-- ==== Sys2Proof/Word.lean ====
section
/-! DEFINITION. The machine's words: the 32-bit word of every host access and command (R73, R100), the byte of the window
(R72) and the 64-bit pattern of a binary64 value (R10). -/

namespace Sys2Proof

/-- A 32-bit register, command word or host access (R23, R73, R100). -/
abbrev Word := BitVec 32

/-- One byte of the window (R72). -/
abbrev Byte := BitVec 8

/-- The bits of one IEEE 754 binary64 value (R10). The operations are in Machine/Float64.lean; they are always called by
their full names (`F64.add x y`), because this is an abbreviation of a bit vector, whose `x + y` is integer addition. -/
abbrev F64 := BitVec 64

end Sys2Proof
end

