-- ==== Sys2Proof/Syntax.lean ====
section
/-! DEFINITION. The seven commands of the opcode table (30_encoding.md R104), as syntax. -/

namespace Sys2Proof

/-- One command. HOP's fields are the numbers of R102 and R103: `nch` unsigned, `cnt` signed. -/
inductive Instr where
  | nop
  | configure
  | clear
  | hop (nch : Nat) (cnt : Int)
  | fftFwd
  | fftInv
  | softReset
deriving DecidableEq, Repr

end Sys2Proof
end

