-- ==== Sys2Proof/WellFormed.lean ====
section
/-! DEFINITION. Which commands the 32-bit format can carry (R102, R103, R109). -/

namespace Sys2Proof

/-- `NCH` is an unsigned field of 4 bits (R102). -/
def nchFits (nch : Nat) : Bool := decide (nch < 16)

/-- `CNT` is a two's-complement field of 20 bits (R103). -/
def cntFits (cnt : Int) : Bool := decide (-524288 ≤ cnt) && decide (cnt ≤ 524287)

/-- A command whose fields lie inside their bits: the ones an assembler does not refuse (R109). -/
def Instr.wf : Instr → Bool
  | .nop => true
  | .configure => true
  | .clear => true
  | .hop nch cnt => nchFits nch && cntFits cnt
  | .fftFwd => true
  | .fftInv => true
  | .softReset => true

end Sys2Proof
end

