-- ==== Sys2Proof/Decode.lean ====
section
/-! DEFINITION. The decoder of R108, total on 32-bit words (R107), and after it the encoder of R109. -/

namespace Sys2Proof

/-- The two ways a command word is illegal (R105, R106). -/
inductive Illegal where
  | reservedOpcode
  | reservedBits
deriving DecidableEq, Repr

/-- `OP = w[7:0]` (R101). -/
def opField (w : Word) : BitVec 8 := w.extractLsb' 0 8

/-- `w[31:8]`, reserved in every command but HOP (R106). -/
def upperField (w : Word) : BitVec 24 := w.extractLsb' 8 24

/-- `NCH = uint(w[11:8])` (R102). -/
def nchField (w : Word) : Nat := (w.extractLsb' 8 4).toNat

/-- `CNT = sint(w[31:12])` (R103). -/
def cntField (w : Word) : Int := (w.extractLsb' 12 20).toInt

/-- The opcodes of the map (R104); all others are reserved (R105). -/
def legalOps : List (BitVec 8) := [0x00#8, 0x01#8, 0x02#8, 0x03#8, 0x04#8, 0x05#8, 0x0F#8]

/-- The command that a legal opcode selects (R104, R108). -/
def ofOpcode (w : Word) : Instr :=
  if opField w = 0x00#8 then .nop
  else if opField w = 0x01#8 then .configure
  else if opField w = 0x02#8 then .clear
  else if opField w = 0x03#8 then .hop (nchField w) (cntField w)
  else if opField w = 0x04#8 then .fftFwd
  else if opField w = 0x05#8 then .fftInv
  else .softReset

/-- `decode` (R108): the opcode is checked first, then the reserved bits. -/
def decode (w : Word) : Except Illegal Instr :=
  if opField w ∉ legalOps then .error .reservedOpcode
  else if opField w ≠ 0x03#8 ∧ upperField w ≠ 0#24 then .error .reservedBits
  else .ok (ofOpcode w)

/-- The opcode of a command (R104). -/
def Instr.opcode : Instr → BitVec 8
  | .nop => 0x00#8
  | .configure => 0x01#8
  | .clear => 0x02#8
  | .hop _ _ => 0x03#8
  | .fftFwd => 0x04#8
  | .fftInv => 0x05#8
  | .softReset => 0x0F#8

/-- The word of a command: `(cnt[19:0], nch[3:0], 0x03)` for HOP, the opcode alone for the others (R109). -/
def encode : Instr → Word
  | .nop => 0x00000000#32
  | .configure => 0x00000001#32
  | .clear => 0x00000002#32
  | .hop nch cnt => BitVec.ofInt 20 cnt ++ (BitVec.ofNat 4 nch ++ 0x03#8)
  | .fftFwd => 0x00000004#32
  | .fftInv => 0x00000005#32
  | .softReset => 0x0000000F#32

/-- What an assembler makes of a command: it refuses a field outside its bits and never truncates (R109). -/
def assemble (i : Instr) : Option Word := if i.wf then some (encode i) else none

/-- The command this decoder reads from the low `nbits` bits of `w`, numbered as spec/opcode_table.json numbers them. A
command is one 32-bit word, so a number that does not fit one is no command. -/
def decodeTableWord (nbits w : Nat) : Option Instr :=
  if w % 2 ^ nbits < 4294967296 then (decode (BitVec.ofNat 32 (w % 2 ^ nbits))).toOption else none

end Sys2Proof
end

