-- ==== Sys2Proof/Machine/Float64.lean ====
section
/-! DEFINITION. Binary64 arithmetic (R10, R11): every operation converts its operands to exact integers, computes exactly
and rounds once, to nearest with ties to even; subnormals are kept and nothing is fused. A finite value is a whole number of
units of 2^-1074, the smallest subnormal, so that exact sums are integers and the other results are quotients of naturals. -/

namespace Sys2Proof.F64

/-- The bits below the sign. For a non-NaN value they order the magnitudes. -/
def mag (x : F64) : Nat := x.toNat % 9223372036854775808

/-- The sign bit. -/
def isNeg (x : F64) : Bool := x.msb

/-- The magnitude bits of an infinity. -/
def infMag : Nat := 0x7FF0000000000000

def isNaN (x : F64) : Bool := decide (infMag < mag x)

def isInf (x : F64) : Bool := mag x == infMag

/-- False exactly for NaN and the two infinities (R11). -/
def isFinite (x : F64) : Bool := decide (mag x < infMag)

/-- `+0` or `-0`. -/
def isZero (x : F64) : Bool := mag x == 0

/-- A value from its sign and its magnitude bits. -/
def pack (neg : Bool) (m : Nat) : F64 := BitVec.ofNat 64 (if neg then 9223372036854775808 + m else m)

def posZero : F64 := 0x0000000000000000#64
def negZero : F64 := 0x8000000000000000#64
def one : F64 := 0x3FF0000000000000#64

/-- The NaN that the operations hand on inside one command. Its bits are seen by no one: a NaN that reaches a place the host
can read is replaced there by a free NaN (`publish` in Machine/Ops.lean; 93_implementation_defined.md I3). -/
def nan : F64 := 0x7FF8000000000000#64

/-- The magnitude of a finite value, in units of 2^-1074. -/
def magUnits (x : F64) : Nat :=
  if mag x / 4503599627370496 = 0 then mag x
  else (4503599627370496 + mag x % 4503599627370496) <<< (mag x / 4503599627370496 - 1)

/-- A finite value, in units of 2^-1074. -/
def units (x : F64) : Int := if isNeg x then -(magUnits x : Int) else (magUnits x : Int)

/-- Whether the remainder `r` of a division by `d` with quotient `m` rounds the quotient up: to nearest, ties to even. -/
def roundsUp (m r d : Nat) : Bool := decide (d < 2 * r) || (2 * r == d && m % 2 == 1)

/-- The place of the last kept bit of a magnitude whose whole part is `q` units: 53 significant bits, and never below one unit. -/
def roundPlace (q : Nat) : Nat := Nat.log2 q - 52

/-- The magnitude bits of the binary64 value nearest to `num / den` units. With the last place at `2^e` units and the rounded
significand `m`, those bits are `e * 2^52 + m` for subnormals and normals alike, also when rounding carries `m` to `2^53`.
Beyond the largest finite value the result is infinite. -/
def roundMag (num den : Nat) : Nat :=
  let e := roundPlace (num / den)
  let d := den <<< e
  let m := num / d
  min (e * 4503599627370496 + (if roundsUp m (num % d) d then m + 1 else m)) infMag

/-- `RN` of the real number of magnitude `num / den` units and the given sign (R11). -/
def round (neg : Bool) (num den : Nat) : F64 := pack neg (roundMag num den)

/-- `-a`: the sign-bit flip (R11). -/
def neg (x : F64) : F64 := x ^^^ negZero

/-- The sum of two finite values. An exact sum of zero is `+0`, unless both operands are negative zeros. -/
def addFinite (x y : F64) : F64 :=
  if units x + units y = 0 then (if isNeg x && isNeg y then negZero else posZero)
  else round (decide (units x + units y < 0)) (units x + units y).natAbs 1

/-- `a + b` (R10, R11). -/
def add (x y : F64) : F64 :=
  if isNaN x || isNaN y then nan
  else if isInf x then (if isInf y && (isNeg x != isNeg y) then nan else x)
  else if isInf y then y
  else addFinite x y

/-- `a - b` (R10, R11). -/
def sub (x y : F64) : F64 := add x (neg y)

/-- `a * b` (R10, R11). -/
def mul (x y : F64) : F64 :=
  if isNaN x || isNaN y then nan
  else if isInf x || isInf y then (if isZero x || isZero y then nan else pack (isNeg x != isNeg y) infMag)
  else round (isNeg x != isNeg y) (magUnits x * magUnits y) (1 <<< 1074)

/-- `a / b` (R10, R11). -/
def div (x y : F64) : F64 :=
  if isNaN x || isNaN y then nan
  else if isInf x then (if isInf y then nan else pack (isNeg x != isNeg y) infMag)
  else if isInf y then pack (isNeg x != isNeg y) 0
  else if isZero y then (if isZero x then nan else pack (isNeg x != isNeg y) infMag)
  else round (isNeg x != isNeg y) (magUnits x <<< 1074) (magUnits y)

/-- The whole square root, one binary digit of it for each unit of the first argument. -/
def isqrt : Nat → Nat → Nat
  | 0, _ => 0
  | f + 1, n =>
    let r := 2 * isqrt f (n / 4)
    if (r + 1) * (r + 1) ≤ n then r + 1 else r

/-- The square root of a positive finite value of `u` units, which is the square root of `u * 2^1074` in units. Of that number
some 110 leading bits are kept; the bits dropped are zeros, since a significand has 53. Whatever lies beyond the whole root is
carried as a half, which no midpoint between two binary64 values equals. -/
def sqrtUnits (u : Nat) : F64 :=
  let z := u <<< 1074
  let q := (Nat.log2 z - 110) / 2
  let z' := z >>> (2 * q)
  let t := isqrt (Nat.log2 z' / 2 + 1) z'
  round false ((2 * t + (if t * t = z' then 0 else 1)) <<< q) 2

/-- `sqrt(a)` (R10, R11). -/
def sqrt (x : F64) : F64 :=
  if isNaN x then nan
  else if isZero x then x
  else if isNeg x then nan
  else if isInf x then x
  else sqrtUnits (magUnits x)

/-- The order of the non-NaN values as integers: `-0` and `+0` are equal. -/
def key (x : F64) : Int := if isNeg x then -(mag x : Int) else (mag x : Int)

/-- `a < b`: false when either is a NaN (R11). -/
def lt (x y : F64) : Bool := !isNaN x && !isNaN y && decide (key x < key y)

/-- `a <= b`: false when either is a NaN (R11). -/
def le (x y : F64) : Bool := !isNaN x && !isNaN y && decide (key x ≤ key y)

/-- `a == b`: false when either is a NaN, and `+0 == -0` (R11). -/
def feq (x y : F64) : Bool := !isNaN x && !isNaN y && decide (key x = key y)

/-- The integer `n` as a binary64 value; exact below 2^53. -/
def ofNat (n : Nat) : F64 := round false (n <<< 1074) 1

end Sys2Proof.F64
end

