-- ==== Sys2Proof/Config.lean ====
section
/-! DEFINITION. What this hardware fixes (R6) and what its spec leaves free. A free value is an opaque constant without a
body: nothing can be proved about which value it is. -/

namespace Sys2Proof.Config

/-- The smallest block size (R6, R202). -/
def nMin : Nat := 64

/-- `N_MAX`, the largest block size and the number of entries of every buffer (R6, R46 to R48). -/
def nMax : Nat := 65536

/-- `K_MAX`, the largest steering window (R6, R202). -/
def kMax : Nat := 4096

/-- The core's window has byte offsets `0x000000` to `0xFFFFFF` (R70). -/
def windowSize : Nat := 0x1000000

/-- FREE VALUE. The byte that the buffers `IN`, `OUT` and `FFTW` hold at an offset from the given power-on until it is
written: "arbitrary but fixed" (R272, 93_implementation_defined.md I5). The arguments are the core's number on its platform
(R254), the number of the power-on, and the offset. Log entries 2 and 13. -/
opaque powerOnByte : Nat → Nat → Nat → BitVec 8

/-- FREE VALUE. The bits of the NaN that a command leaves in a place the host can read, before they are made a NaN: sign and
payload are not fixed (R130, 93_implementation_defined.md I3). The arguments are the core's number on its platform
(R254), the model's counter of its commands that compute, and the window offset of the place. Log entries 3 and 13. -/
opaque nanBits : Nat → Nat → Nat → BitVec 64

end Sys2Proof.Config
end

