-- ==== Sys2Proof/Machine/State.lean ====
section
/-! DEFINITION. The whole state of one core (10_state.md), as plain data; what the outside world does to it, as a list of
inputs (R20, R278); the ways a step stops; and the state after power-on reset (R53, R270). -/

namespace Sys2Proof.Machine

open Sys2Proof

/-- `cfg_mode` (R49): 4 inputs to 2 outputs, or 2 inputs to 4 outputs (R3). -/
inductive Mode where
  | decode
  | encode
deriving DecidableEq, Repr

/-- The steering parameters that CONFIGURE latches when steering is active: `cfg_K`, `cfg_gmin`, `cfg_gboost`, `cfg_aatt`,
`cfg_arel` (R49). -/
structure SteerParams where
  k : Nat
  gmin : F64
  gboost : F64
  aatt : F64
  arel : F64
deriving DecidableEq, Repr

/-- The latched configuration (R49). `cfg_logic = 1` is the presence of steering parameters, which are latched only then
(R203). -/
structure Latched where
  mode : Mode
  n : Nat
  o : Nat
  h : Nat
  delta : Nat
  steer : Option SteerParams
deriving DecidableEq, Repr

/-- Four like things: the input lanes 0 to 3 (R50) or the decoded channels LF, RF, LB, RB (R51). -/
structure Quad (α : Type) where
  q0 : α
  q1 : α
  q2 : α
  q3 : α
deriving DecidableEq, Repr

/-- The overlap tails of one lane, each of `cfg_O` values while a configuration is latched (R50). -/
structure Lane where
  tailO : List F64
  tailH : List F64
deriving DecidableEq, Repr

/-- The buffers `IN`, `OUT` and `FFTW` as the bytes of the window (R46 to R48, R71, R72): the offsets written since power-on,
strictly rising, each with its byte. An offset that is not listed holds no written value; it reads as the free byte of this
power-on, whose number `epoch` is, of this core, whose number on its platform `owner` is (R254, R272). -/
structure Memory where
  cells : List Host.Cell
  epoch : Nat
  owner : Nat
deriving DecidableEq, Repr

/-- One host access (R11 `MemRead`, `MemWrite`): its width in bytes, its byte offset in the window and, for a write, the
value. Only 32-bit accesses complete (R73), so a value of another width is not kept. -/
inductive Access where
  | read (width addr : Nat)
  | write (width addr : Nat) (value : Word)
deriving DecidableEq, Repr

/-- What comes next in the interleaving of R278: a host step, a turn of the core, or a power-on reset (R270). -/
inductive Input where
  | host (a : Access)
  | core
  | powerOn
deriving DecidableEq, Repr

/-- The state of the core: the registers of R23, the buffers, the internal state of R49 to R52, and four fields of the
model's own, which stand last. -/
structure State where
  /-- MODE bits [1:0] (R28). -/
  mode : BitVec 2
  /-- BLOCK_SIZE (R29). -/
  blockSize : Word
  /-- OVERLAP (R30). -/
  overlap : Word
  /-- LOGIC bit [0], LOGIC_EN (R31). -/
  logicEn : BitVec 1
  /-- RMS_WINDOW (R32). -/
  rmsWindow : Word
  /-- IRQ_ENABLE: DONE_EN, ERR_EN in bits 0, 1 (R33). -/
  irqEnable : BitVec 2
  /-- IRQ_STATUS: DONE_PEND, ERR_PEND in bits 0, 1 (R34). -/
  irqStatus : BitVec 2
  /-- GMIN (R38). -/
  gmin : F64
  /-- GBOOST (R39). -/
  gboost : F64
  /-- ALPHA_ATT (R40). -/
  alphaAtt : F64
  /-- ALPHA_REL (R41). -/
  alphaRel : F64
  /-- STATUS.OVR (R27). -/
  ovr : Bool
  /-- STATUS.ERR (R27, R241). -/
  err : BitVec 4
  /-- STATUS.LAST_OP (R27). -/
  lastOp : BitVec 8
  /-- STATUS.DETAIL (R27, R242). -/
  detail : BitVec 8
  /-- HOP_COUNT (R36). -/
  hopCount : Word
  /-- `busy` (R52). -/
  busy : Bool
  /-- `pending`, the latched command word (R52). -/
  pending : Word
  /-- The latched configuration; `cfg_valid = 1` is its presence (R49). -/
  cfg : Option Latched
  /-- The overlap tails of the four lanes (R50). -/
  lanes : Quad Lane
  /-- `hist` of the four decoded channels (R51). -/
  hist : Quad (List F64)
  /-- `g` of the four decoded channels, which GAIN shows (R43, R51). -/
  gain : Quad F64
  /-- `IN`, `OUT` and `FFTW` (R46 to R48). -/
  mem : Memory
  /-- The model's own: how many commands have computed values, which numbers their free NaNs (log entry 3). -/
  nanTick : Nat
  /-- The model's own: what the outside world does next, in order (R278; log entry 1). -/
  inputs : List Input
  /-- The model's own: the words that the core has returned to host reads, the newest first (log entry 1). -/
  returned : List Word
deriving DecidableEq, Repr

/-- Why a step stops. Both are faults of the host program, not of the core (R248, R249). -/
inductive Fault where
  /-- A host access that is not 32 bits wide, not 4-byte aligned or outside the window; raised by `hostStep`. The access has
  no effect (R73 to R75, 93_implementation_defined.md I7). Safe: the model stops where the host gets an error response. -/
  | busError (addr : Nat)
  /-- A host access while BUSY that R84 does not permit; raised by `hostStep`. Safe: the hardware gives it no defined result
  (93_implementation_defined.md I6). -/
  | hostProtocolViolation (addr : Nat)
deriving DecidableEq, Repr

/-- Why a step refuses. -/
inductive Refusal where
  /-- A command without a meaning in this model; raised by `exec` alone. Safe. No arm of this model raises it. -/
  | notModelled (mnemonic : String)
deriving DecidableEq, Repr

/-- The same value four times. -/
def Quad.all {α : Type} (a : α) : Quad α := ⟨a, a, a, a⟩

/-- The state after power-on reset (R53, R270). `cfg`, the tails and the histories hold no value (R49, R50, R53); `pending`
holds none either and is read by nothing while `busy` is clear (log entry 4). -/
def State.reset : State where
  mode := 0#2
  blockSize := 1024#32
  overlap := 512#32
  logicEn := 0#1
  rmsWindow := 256#32
  irqEnable := 0#2
  irqStatus := 0#2
  gmin := 0x3FE009B9CF334252#64
  gboost := 0x3FF0000000000000#64
  alphaAtt := 0x3F7288ADFEC99B75#64
  alphaRel := 0x3F3DB6FD5ADFCB7A#64
  ovr := false
  err := 0#4
  lastOp := 0#8
  detail := 0#8
  hopCount := 0#32
  busy := false
  pending := 0#32
  cfg := none
  lanes := Quad.all ⟨[], []⟩
  hist := Quad.all []
  gain := Quad.all 0x3FF0000000000000#64
  mem := ⟨[], 0, 0⟩
  nanTick := 0
  inputs := []
  returned := []

end Sys2Proof.Machine
end

