-- ==== Sys2Proof/Machine/Ops.lean ====
section
/-! DEFINITION. The named operations over the state: the buffers as memory (R71, R72, R80), the values a command leaves in
them, how a command ends, with or without an error (R240, R244), and the resets (R203 to R206, R270, R271). -/

namespace Sys2Proof.Machine

open Sys2Proof

/-! ### Four like things -/

/-- Element 0, 1, 2 or 3; a larger index is not used. -/
def Quad.get {α : Type} (q : Quad α) : Nat → α
  | 0 => q.q0
  | 1 => q.q1
  | 2 => q.q2
  | _ => q.q3

/-- The four values of a function of the index. -/
def Quad.ofFn {α : Type} (f : Nat → α) : Quad α := ⟨f 0, f 1, f 2, f 3⟩

/-! ### Memory: bytes -/

/-- The written byte at an offset, if there is one. -/
def findCell (cs : List Host.Cell) (a : Nat) : Option Byte :=
  match cs.dropWhile (fun c => decide (c.1 < a)) with
  | [] => none
  | c :: _ => if c.1 = a then some c.2 else none

/-- What an offset that is not listed reads as: the free byte of this power-on (R272). -/
def Memory.unlisted (m : Memory) (a : Nat) : Byte := Config.powerOnByte m.owner m.epoch a

/-- The byte at an offset. -/
def Memory.readByte (m : Memory) (a : Nat) : Byte := (findCell m.cells a).getD (m.unlisted a)

/-- The `n` bytes from `a` up, in one walk over the cells. -/
def readRun (m : Memory) : Nat → Nat → List Host.Cell → List Byte
  | 0, _, _ => []
  | n + 1, a, cs =>
    match cs.dropWhile (fun c => decide (c.1 < a)) with
    | [] => m.unlisted a :: readRun m n (a + 1) []
    | c :: t => if c.1 = a then c.2 :: readRun m n (a + 1) t else m.unlisted a :: readRun m n (a + 1) (c :: t)

/-- The `n` bytes from `a` up. -/
def Memory.readBytes (m : Memory) (a n : Nat) : List Byte := readRun m n a m.cells

/-- Bytes as cells, from `a` up. -/
def cellsFrom : Nat → List Byte → List Host.Cell
  | _, [] => []
  | a, b :: bs => (a, b) :: cellsFrom (a + 1) bs

/-- Stores the bytes from `a` up: the cells below them, theirs, and the cells above them. -/
def Memory.writeBytes (m : Memory) (a : Nat) (bs : List Byte) : Memory :=
  { m with
    cells := m.cells.takeWhile (fun c => decide (c.1 < a)) ++ cellsFrom a bs
      ++ m.cells.dropWhile (fun c => decide (c.1 < a + bs.length)) }

/-- The buffers' offsets: `IN`, `OUT` and `FFTW` (R71). -/
def bufferBase : Nat := 0x100000
def bufferEnd : Nat := 0x600000

/-- The canonical form: the listed offsets strictly rise. (An offset that is not listed holds no written value, so no entry
can be equal to it.) -/
abbrev Memory.wf (m : Memory) : Prop := m.cells.Pairwise (fun c d => c.1 < d.1)

/-- Only offsets of the buffers are listed. -/
abbrev Memory.inBuffers (m : Memory) : Prop := ∀ c ∈ m.cells, bufferBase ≤ c.1 ∧ c.1 < bufferEnd

/-! ### Memory: words and binary64 values, little-endian (R72) -/

/-- The four bytes of a word, the lowest first. -/
def bytesOfWord (w : Word) : List Byte := [w.extractLsb' 0 8, w.extractLsb' 8 8, w.extractLsb' 16 8, w.extractLsb' 24 8]

/-- A word from its four bytes. -/
def wordOfBytes : List Byte → Word
  | [b0, b1, b2, b3] => b3 ++ (b2 ++ (b1 ++ b0))
  | _ => 0#32

/-- The eight bytes of a binary64 value: its low word, then its high word. -/
def bytesOfF64 (x : F64) : List Byte := bytesOfWord (x.extractLsb' 0 32) ++ bytesOfWord (x.extractLsb' 32 32)

/-- Binary64 values one after another. -/
def bytesOfF64s : List F64 → List Byte
  | [] => []
  | x :: xs => bytesOfF64 x ++ bytesOfF64s xs

/-- Binary64 values from their bytes, eight at a time. -/
def f64sOfBytes : List Byte → List F64
  | b0 :: b1 :: b2 :: b3 :: b4 :: b5 :: b6 :: b7 :: t =>
    (b7 ++ (b6 ++ (b5 ++ (b4 ++ (b3 ++ (b2 ++ (b1 ++ b0)))))) : BitVec 64) :: f64sOfBytes t
  | _ => []

def Memory.readWord (m : Memory) (a : Nat) : Word := wordOfBytes (m.readBytes a 4)

def Memory.writeWord (m : Memory) (a : Nat) (w : Word) : Memory := m.writeBytes a (bytesOfWord w)

/-- One binary64 value: its low word at `a`, its high word at `a + 4`. -/
def Memory.readF64 (m : Memory) (a : Nat) : F64 := m.readWord (a + 4) ++ m.readWord a

/-- The `n` binary64 values from `a` up. -/
def Memory.readF64s (m : Memory) (a n : Nat) : List F64 := f64sOfBytes (m.readBytes a (8 * n))

/-- Stores binary64 values from `a` up. -/
def Memory.writeF64s (m : Memory) (a : Nat) (xs : List F64) : Memory := m.writeBytes a (bytesOfF64s xs)

/-! ### Buffer offsets (R71, R80) -/

def inAddr (ch i : Nat) : Nat := 0x100000 + 0x80000 * ch + 8 * i
def outAddr (ch i : Nat) : Nat := 0x300000 + 0x80000 * ch + 8 * i
def fftReAddr (k : Nat) : Nat := 0x500000 + 16 * k
def fftImAddr (k : Nat) : Nat := 0x500008 + 16 * k

/-- The offset of GAIN[ch] (R43). -/
def gainAddr (ch : Nat) : Nat := 0x080 + 8 * ch

/-! ### The values a command leaves where the host can read them -/

/-- Which command computes a NaN: of which core, and the number of the command. -/
structure NaNSource where
  owner : Nat
  tick : Nat
deriving DecidableEq, Repr

/-- The source of the NaNs of the command that the core performs next. -/
def State.nanSource (s : State) : NaNSource := ⟨s.mem.owner, s.nanTick⟩

/-- A NaN with free sign and payload, for the given place and computing command (93_implementation_defined.md I3). -/
def freeNaN (src : NaNSource) (place : Nat) : F64 :=
  if F64.isNaN (Config.nanBits src.owner src.tick place) then Config.nanBits src.owner src.tick place else F64.nan

/-- A computed value as it stands in a place the host can read: itself, or some NaN where it is a NaN. -/
def publish (src : NaNSource) (place : Nat) (x : F64) : F64 := if F64.isNaN x then freeNaN src place else x

/-- Computed values in consecutive places from `a` up. -/
def publishFrom (src : NaNSource) : Nat → List F64 → List F64
  | _, [] => []
  | a, x :: xs => publish src a x :: publishFrom src (a + 8) xs

/-! ### How a command ends -/

/-- `complete(op, code, detail)` (R244). DONE_PEND is set; ERR_PEND is set when the code is not 0, and stays as it is
otherwise. -/
def complete (op : BitVec 8) (code : BitVec 4) (detail : BitVec 8) (s : State) : State :=
  { s with
    err := code
    detail := detail
    lastOp := op
    irqStatus := s.irqStatus ||| (if code = 0#4 then 0b01#2 else 0b11#2)
    busy := false }

/-- The failing checks of every command (R242), in the table's order. -/
inductive CmdError where
  | modeReserved
  | blockSizeNotPowerOfTwo
  | blockSizeTooSmall
  | blockSizeTooLarge
  | overlapOutOfRange
  | rmsWindowOutOfRange
  | gminOutOfRange
  | gboostOutOfRange
  | alphaAttOutOfRange
  | alphaRelOutOfRange
  | reservedOpcode
  | reservedBits
  | inputShape
  | cntNegative
  | cntTooLarge
  | notConfigured
deriving DecidableEq, Repr

/-- The error code of a failing check (R241, R242). -/
def CmdError.code : CmdError → BitVec 4
  | .modeReserved => 1#4
  | .blockSizeNotPowerOfTwo => 1#4
  | .blockSizeTooSmall => 1#4
  | .blockSizeTooLarge => 1#4
  | .overlapOutOfRange => 1#4
  | .rmsWindowOutOfRange => 1#4
  | .gminOutOfRange => 1#4
  | .gboostOutOfRange => 1#4
  | .alphaAttOutOfRange => 1#4
  | .alphaRelOutOfRange => 1#4
  | .reservedOpcode => 4#4
  | .reservedBits => 4#4
  | .inputShape => 2#4
  | .cntNegative => 3#4
  | .cntTooLarge => 3#4
  | .notConfigured => 5#4

/-- The detail code of a failing check (R242). -/
def CmdError.detail : CmdError → BitVec 8
  | .modeReserved => 0x01#8
  | .blockSizeNotPowerOfTwo => 0x02#8
  | .blockSizeTooSmall => 0x03#8
  | .blockSizeTooLarge => 0x04#8
  | .overlapOutOfRange => 0x05#8
  | .rmsWindowOutOfRange => 0x06#8
  | .gminOutOfRange => 0x07#8
  | .gboostOutOfRange => 0x08#8
  | .alphaAttOutOfRange => 0x09#8
  | .alphaRelOutOfRange => 0x0A#8
  | .reservedOpcode => 0x11#8
  | .reservedBits => 0x12#8
  | .inputShape => 0x21#8
  | .cntNegative => 0x31#8
  | .cntTooLarge => 0x32#8
  | .notConfigured => 0x51#8

/-- A command that succeeds (R244). -/
def succeed (op : BitVec 8) (s : State) : State := complete op 0#4 0x00#8 s

/-- `raise Error(code, detail)`: what stands in this hardware for taking an exception. No trap is taken and nothing is saved;
the command completes with the codes of its failing check (R240, R244). -/
def raiseError (op : BitVec 8) (e : CmdError) (s : State) : State := complete op e.code e.detail s

/-! ### Cold start and the resets -/

/-- The tails of a lane after a cold start (R203). -/
def coldLane (o : Nat) : Lane := ⟨List.replicate o F64.posZero, List.replicate o F64.posZero⟩

/-- `cold_start()` (R203), for the overlap `o` of the latched configuration. -/
def coldStart (o : Nat) (s : State) : State :=
  { s with
    lanes := Quad.all (coldLane o)
    hist := Quad.all (List.replicate Config.kMax F64.posZero)
    gain := Quad.all F64.one
    hopCount := 0#32 }

/-- What a failed CONFIGURE leaves: no configuration, tails and histories without a value, unity gains (R204). -/
def unconfigure (s : State) : State :=
  { s with
    cfg := none
    lanes := Quad.all ⟨[], []⟩
    hist := Quad.all []
    gain := Quad.all F64.one
    hopCount := 0#32 }

/-- The effect of SOFT_RESET (R206, R271): every register and all internal state at its reset value, the buffers unchanged.
The model's own fields go on. -/
def softResetState (s : State) : State :=
  { State.reset with
    mem := s.mem
    nanTick := s.nanTick
    inputs := s.inputs
    returned := s.returned }

/-- Power-on reset (R270, R272): as SOFT_RESET, and the buffers hold new unspecified values. -/
def powerOnState (s : State) : State :=
  { State.reset with
    mem := ⟨[], s.mem.epoch + 1, s.mem.owner⟩
    nanTick := s.nanTick
    inputs := s.inputs
    returned := s.returned }

end Sys2Proof.Machine
end

