-- ==== Sys2Proof/Machine/Operands.lean ====
section
/-! DEFINITION. The operands of the commands: the configuration registers and CONFIGURE's checks of them (R202), the checks of
HOP's fields (R167), and the input samples and FFT entries that a command reads (R160, R167, R128). -/

namespace Sys2Proof.Machine

open Sys2Proof

/-- `65536.0`. -/
def gboostMax : F64 := 0x40F0000000000000#64

/-- An operand of the smoothing: `0 < α <= 1` (R202). -/
def alphaOk (a : F64) : Bool := F64.lt F64.posZero a && F64.le a F64.one

/-- CONFIGURE's checks of the steering registers, in order (R202, 0x06 to 0x0A). -/
def validateSteer (s : State) : Except CmdError SteerParams :=
  if s.rmsWindow.toNat < 1 ∨ Config.kMax < s.rmsWindow.toNat then .error .rmsWindowOutOfRange
  else if !(F64.isFinite s.gmin && F64.le F64.posZero s.gmin && F64.le s.gmin F64.one) then .error .gminOutOfRange
  else if !(F64.le F64.one s.gboost && F64.le s.gboost gboostMax) then .error .gboostOutOfRange
  else if !(alphaOk s.alphaAtt) then .error .alphaAttOutOfRange
  else if !(alphaOk s.alphaRel) then .error .alphaRelOutOfRange
  else .ok ⟨s.rmsWindow.toNat, s.gmin, s.gboost, s.alphaAtt, s.alphaRel⟩

/-- The configuration of the given block size and overlap, with `H = N - O` and `δ = floor(O / 4)` (R7, R8, R203). -/
def latch (mode : Mode) (n o : Nat) (steer : Option SteerParams) : Latched := ⟨mode, n, o, n - o, o / 4, steer⟩

/-- `validate()` (R202), with the values that `latch` stores (R203). Steering is requested only in DECODE (R180). -/
def validate (s : State) : Except CmdError Latched :=
  if s.mode = 2#2 ∨ s.mode = 3#2 then .error .modeReserved
  else if s.blockSize.toNat = 0 ∨ s.blockSize.toNat &&& (s.blockSize.toNat - 1) ≠ 0 then .error .blockSizeNotPowerOfTwo
  else if s.blockSize.toNat < Config.nMin then .error .blockSizeTooSmall
  else if Config.nMax < s.blockSize.toNat then .error .blockSizeTooLarge
  else if ¬(0 < s.overlap.toNat ∧ s.overlap.toNat < s.blockSize.toNat) then .error .overlapOutOfRange
  else if s.mode = 1#2 then .ok (latch .encode s.blockSize.toNat s.overlap.toNat none)
  else if s.logicEn = 0#1 then .ok (latch .decode s.blockSize.toNat s.overlap.toNat none)
  else match validateSteer s with
    | .error e => .error e
    | .ok p => .ok (latch .decode s.blockSize.toNat s.overlap.toNat (some p))

/-- The input arity of a mode (R167): 4 in ENCODE, 2 in DECODE. -/
def Mode.arity : Mode → Nat
  | .encode => 4
  | .decode => 2

/-- HOP's checks, in order (R167, R243). -/
def checkHop (nch : Nat) (cnt : Int) (cfg : Option Latched) : Except CmdError Latched :=
  match cfg with
  | none => .error .notConfigured
  | some c =>
    if nch ≠ c.mode.arity then .error .inputShape
    else if cnt < 0 then .error .cntNegative
    else if (c.h : Int) < cnt then .error .cntTooLarge
    else .ok c

/-- `san(x)` (R160). -/
def san (x : F64) : F64 := if F64.isFinite x then x else F64.posZero

/-- The new samples of lane `l` in a hop of `h`: `cnt` sanitised values of `IN[l]`, then `+0` (R167). -/
def hopInput (m : Memory) (l h cnt : Nat) : List F64 :=
  (m.readF64s (inAddr l 0) cnt).map san ++ List.replicate (h - cnt) F64.posZero

end Sys2Proof.Machine
end

