-- ==== Sys2Proof/Machine/Control.lean ====
section
/-! DEFINITION. The control commands NOP, CONFIGURE, CLEAR and SOFT_RESET (44_control.md), and what an illegal command word
does (R105, R106). -/

namespace Sys2Proof.Machine

open Sys2Proof

/-- NOP (R200): only the completion effects. -/
def execNop (s : State) : Host.Outcome State Fault Refusal := .next (succeed 0x00#8 s)

/-- CONFIGURE (R201): it validates, latches and performs a cold start (R202, R203), or leaves the core unconfigured (R204). -/
def execConfigure (s : State) : Host.Outcome State Fault Refusal :=
  match validate s with
  | .error e => .next (raiseError 0x01#8 e (unconfigure s))
  | .ok c => .next (succeed 0x01#8 (coldStart c.o { s with cfg := some c }))

/-- CLEAR (R205): a cold start of the latched configuration. -/
def execClear (s : State) : Host.Outcome State Fault Refusal :=
  match s.cfg with
  | none => .next (raiseError 0x02#8 .notConfigured s)
  | some c => .next (succeed 0x02#8 (coldStart c.o s))

/-- SOFT_RESET (R206): without completion effects (R244). -/
def execSoftReset (s : State) : Host.Outcome State Fault Refusal := .next (softResetState s)

/-- The check that an illegal word fails (R105, R106). -/
def illegalError : Illegal → CmdError
  | .reservedOpcode => .reservedOpcode
  | .reservedBits => .reservedBits

/-- An illegal command has only the completion effects, with `LAST_OP = w[7:0]` (R105, R106, R244). -/
def execIllegal (w : Word) (e : Illegal) (s : State) : Host.Outcome State Fault Refusal :=
  .next (raiseError (opField w) (illegalError e) s)

end Sys2Proof.Machine
end

