-- ==== Sys2Proof/Machine/Fft.lean ====
section
/-! DEFINITION. The FFT primitive, component A (40_fft.md): complex product, twiddles, butterfly, bit reversal, and the
iterative radix-2 transforms that fix every output bit. -/

namespace Sys2Proof.Machine

open Sys2Proof

/-- A complex value is a pair of binary64 values (R11). -/
structure Cx where
  re : F64
  im : F64
deriving DecidableEq, Repr

/-- `(+0, +0)`. -/
def Cx.zero : Cx := ⟨F64.posZero, F64.posZero⟩

/-- The complex product, in R121's order and without fusing. -/
def cmul (w x : Cx) : Cx :=
  ⟨F64.sub (F64.mul w.re x.re) (F64.mul w.im x.im), F64.add (F64.mul w.re x.im) (F64.mul w.im x.re)⟩

/-! ### Twiddles (R122)
The correctly rounded cosines and sines are generated in fixed point with 128 fraction bits: the angle is reduced to the
first octant exactly, the alternating series is summed there, and the sum is rounded once to binary64. -/

/-- 1.0 in fixed point. -/
def fixOne : Nat := 1 <<< 128

/-- `2π` in fixed point, rounded down. -/
def fixTwoPi : Nat := 0x6487ed5110b4611a62633145c06e0e689

/-- `t - (t₁ - (t₂ - …))` with `t₁ = t·x²/((d+1)(d+2))`, `t₂ = t₁·x²/((d+3)(d+4))` and so on, where `x2` is `x²` in fixed point:
the alternating series of the cosine (`d = 0`, `t = 1`) and of the sine (`d = 1`, `t = x`). -/
def alternating (x2 : Nat) : Nat → Nat → Nat → Nat
  | 0, _, t => t
  | n + 1, d, t => t - alternating x2 n (d + 2) (t * x2 / (fixOne * ((d + 1) * (d + 2))))

/-- The angle `2π·k/n` in fixed point. -/
def fixAngle (k n : Nat) : Nat := fixTwoPi * k / n

/-- `cos(2π·k/n)` in fixed point, for an angle of at most an eighth turn. -/
def fixCos (k n : Nat) : Nat := alternating (fixAngle k n * fixAngle k n / fixOne) 16 0 fixOne

/-- `sin(2π·k/n)` in fixed point, for an angle of at most an eighth turn. -/
def fixSin (k n : Nat) : Nat := alternating (fixAngle k n * fixAngle k n / fixOne) 16 1 (fixAngle k n)

/-- `RN` of a non-negative fixed-point number. -/
def roundFix (v : Nat) : F64 := F64.round false (v <<< 1074) fixOne

/-- `RN(-r)` from `RN(r)`: an exact zero rounds to `+0` (R11, R122). -/
def negRounded (x : F64) : F64 := if F64.isZero x then F64.posZero else F64.neg x

/-- `(RN(cos(2π·k/n)), RN(sin(2π·k/n)))` for `k` in `[0, n/2)` and `n` a multiple of 8, by the symmetries of the octants. -/
def cosSin (n k : Nat) : Cx :=
  if 8 * k ≤ n then ⟨roundFix (fixCos k n), roundFix (fixSin k n)⟩
  else if 4 * k ≤ n then ⟨roundFix (fixSin (n / 4 - k) n), roundFix (fixCos (n / 4 - k) n)⟩
  else if 8 * k ≤ 3 * n then ⟨negRounded (roundFix (fixSin (k - n / 4) n)), roundFix (fixCos (k - n / 4) n)⟩
  else ⟨negRounded (roundFix (fixCos (n / 2 - k) n)), roundFix (fixSin (n / 2 - k) n)⟩

/-- The inverse twiddle `twi[k]` of R122. -/
def twi (n k : Nat) : Cx := cosSin n k

/-- The forward twiddle `twf[k]` of R122. -/
def twf (n k : Nat) : Cx := ⟨(cosSin n k).re, negRounded (cosSin n k).im⟩

/-! ### The transforms (R123 to R126) -/

/-- The butterfly of R123. It multiplies by its twiddle even when that is `(1.0, +0)`. -/
def butterfly (u x w : Cx) : Cx × Cx :=
  let t := cmul w x
  (⟨F64.add u.re t.re, F64.add u.im t.im⟩, ⟨F64.sub u.re t.re, F64.sub u.im t.im⟩)

/-- `bitrev_L(i)` (R124): bit `b` of the result is bit `L-1-b` of `i`. -/
def bitrev : Nat → Nat → Nat
  | 0, _ => 0
  | l + 1, i => (i % 2) * 2 ^ l + bitrev l (i / 2)

/-- The elements at even indices. -/
def evens {α : Type} : List α → List α
  | [] => []
  | [a] => [a]
  | a :: _ :: t => a :: evens t

/-- The elements at odd indices. -/
def odds {α : Type} (x : List α) : List α := evens x.tail

/-- `a[bitrev_L(i)] <- x[i]` for `2^L` elements (R125): the even-indexed elements go to the first half, since their reversed
index has a clear top bit, and each half is permuted in turn. -/
def bitReverse {α : Type} : Nat → List α → List α
  | 0, x => x
  | l + 1, x => bitReverse l (evens x) ++ bitReverse l (odds x)

/-- The butterflies of one block: its upper half `us`, its lower half `xs` and the twiddles of the stage, element by element. -/
def butterflies : List Cx → List Cx → List Cx → List Cx × List Cx
  | u :: us, x :: xs, w :: ws =>
    let p := butterfly u x w
    let r := butterflies us xs ws
    (p.1 :: r.1, p.2 :: r.2)
  | _, _, _ => ([], [])

/-- One stage over the given number of blocks of `2 * half` elements. The butterflies of a stage share no element, so their
order is free (R125). -/
def fftStage (half : Nat) (ws : List Cx) : Nat → List Cx → List Cx
  | 0, _ => []
  | blocks + 1, a =>
    let r := butterflies (a.take half) ((a.drop half).take half) ws
    r.1 ++ r.2 ++ fftStage half ws blocks (a.drop (2 * half))

/-- The twiddles of the stage with blocks of `2^(l+1)` elements: `tw[j * step]` for `j` in `[0, 2^l)`, `step = N / 2^(l+1)`. -/
def stageTwiddles (tw : Nat → Cx) (n l : Nat) : List Cx :=
  (List.range (2 ^ l)).map (fun j => tw (j * (n / 2 ^ (l + 1))))

/-- The stages `m = 2, 4, …, N` in order, on `N = 2^L` bit-reversed elements. -/
def fftStages (tw : Nat → Cx) (n : Nat) (a : List Cx) : List Cx :=
  (List.range (Nat.log2 n)).foldl (fun a l => fftStage (2 ^ l) (stageTwiddles tw n l) (n / 2 ^ (l + 1)) a) a

/-- `fft_N` (R125). -/
def fft (n : Nat) (x : List Cx) : List Cx := fftStages (twf n) n (bitReverse (Nat.log2 n) x)

/-- `RN(1/N)`, exactly `2^-L` (R126). -/
def inverseScale (n : Nat) : F64 := F64.round false (1 <<< 1074) n

/-- `ifft_N` (R126). -/
def ifft (n : Nat) (x : List Cx) : List Cx :=
  (fftStages (twi n) n (bitReverse (Nat.log2 n) x)).map
    (fun a => ⟨F64.mul a.re (inverseScale n), F64.mul a.im (inverseScale n)⟩)

end Sys2Proof.Machine
end

