-- ==== Sys2Proof/Machine/Hilbert.lean ====
section
/-! DEFINITION. The Hilbert processor lanes, component B (41_hilbert.md). -/

namespace Sys2Proof.Machine

open Sys2Proof

/-- The Hilbert multiplier: `hmul(k, X)` for `N = n` (R141), an exact swap and sign flip. -/
def hmul (n k : Nat) (x : Cx) : Cx :=
  if k = 0 then Cx.zero
  else if k = n / 2 then Cx.zero
  else if k < n / 2 then ⟨x.im, F64.neg x.re⟩
  else ⟨F64.neg x.im, x.re⟩

/-- The block `b[0..N)` of the hop's samples `u[0..H)`: they stand from `δ` up, among `+0` (R142). -/
def laneBlock (c : Latched) (u : List F64) : List F64 :=
  List.replicate c.delta F64.posZero ++ u ++ List.replicate (c.n - c.delta - c.h) F64.posZero

/-- The overlap-add of R143 and R145: `tail[i] + b[i]` at the first `O` positions, `b[i]` at the others. -/
def overlapAdd (o : Nat) (tail b : List F64) : List F64 := List.zipWith F64.add tail (b.take o) ++ b.drop o

/-- The shifted path's `r` (R144): forward transform, multiplier, inverse transform, real part. -/
def shifted (n : Nat) (b : List F64) : List F64 :=
  (ifft n (List.zipWith (hmul n) (List.range n) (fft n (b.map (fun x => ⟨x, F64.posZero⟩))))).map Cx.re

/-- What a lane step gives: the lane's new tails and the samples of its two streams. -/
structure LaneStep where
  lane : Lane
  yo : List F64
  yh : List F64
deriving DecidableEq, Repr

/-- The original path alone: `lane_hop` for a lane without a shifted path (R146, R150). `tail_h` is neither read nor written,
and `yh` has no value. -/
def laneDelay (c : Latched) (t : Lane) (u : List F64) : LaneStep :=
  let ao := overlapAdd c.o t.tailO (laneBlock c u)
  ⟨⟨ao.drop c.h, t.tailH⟩, ao.take c.h, []⟩

/-- `lane_hop` for a lane with a shifted path (R146, R147). -/
def laneHilbert (c : Latched) (t : Lane) (u : List F64) : LaneStep :=
  let b := laneBlock c u
  let ao := overlapAdd c.o t.tailO b
  let ah := overlapAdd c.o t.tailH (shifted c.n b)
  ⟨⟨ao.drop c.h, ah.drop c.h⟩, ao.take c.h, ah.take c.h⟩

end Sys2Proof.Machine
end

