-- ==== Sys2Proof/Machine/Matrix.lean ====
section
/-! DEFINITION. The matrix combiner, components C and D (42_matrix.md R161 to R166). -/

namespace Sys2Proof.Machine

open Sys2Proof

/-- The matrix scalar `c`, the binary64 value nearest to `√2/2` (R9), which COEF_C reads (R42). -/
def coefC : F64 := 0x3FE6A09E667F3BCD#64

/-- `LT = (o_0 + (c * o_3)) - (c * h_2)` (R162). -/
def matrixLT (o0 o3 h2 : F64) : F64 := F64.sub (F64.add o0 (F64.mul coefC o3)) (F64.mul coefC h2)

/-- `RT = (o_1 - (c * o_2)) + (c * h_3)` (R163; the sign of the second term follows 90_conflicts.md C3). -/
def matrixRT (o1 o2 h3 : F64) : F64 := F64.add (F64.sub o1 (F64.mul coefC o2)) (F64.mul coefC h3)

/-- `LB = (c * h_0) - (c * o_1)` (R165). -/
def matrixLB (o1 h0 : F64) : F64 := F64.sub (F64.mul coefC h0) (F64.mul coefC o1)

/-- `RB = (c * o_0) - (c * h_1)` (R166). -/
def matrixRB (o0 h1 : F64) : F64 := F64.sub (F64.mul coefC o0) (F64.mul coefC h1)

/-- `LT` over the samples of a hop. -/
def mixLT : List F64 → List F64 → List F64 → List F64
  | o0 :: o0s, o3 :: o3s, h2 :: h2s => matrixLT o0 o3 h2 :: mixLT o0s o3s h2s
  | _, _, _ => []

/-- `RT` over the samples of a hop. -/
def mixRT : List F64 → List F64 → List F64 → List F64
  | o1 :: o1s, o2 :: o2s, h3 :: h3s => matrixRT o1 o2 h3 :: mixRT o1s o2s h3s
  | _, _, _ => []

/-- The decoded samples `(LF, RF, LB, RB)` of a hop, with `LF = o_0` and `RF = o_1` (R164 to R166). -/
def mixDecode : List F64 → List F64 → List F64 → List F64 → List (Quad F64)
  | o0 :: o0s, o1 :: o1s, h0 :: h0s, h1 :: h1s =>
    ⟨o0, o1, matrixLB o1 h0, matrixRB o0 h1⟩ :: mixDecode o0s o1s h0s h1s
  | _, _, _, _ => []

end Sys2Proof.Machine
end

