-- ==== Sys2Proof/Machine/Steering.lean ====
section
/-! DEFINITION. The logic steering, component E (43_steering.md). -/

namespace Sys2Proof.Machine

open Sys2Proof

/-- The steering state (R51). -/
structure SteerState where
  hist : Quad (List F64)
  gain : Quad F64
deriving DecidableEq, Repr

/-- The push of R181 into the window of `k` samples, oldest first. The entries at `k` and above stay. -/
def pushHist (k : Nat) (h : List F64) (d : F64) : List F64 := (h.take k).drop 1 ++ d :: h.drop k

/-- The sum of squares over the window, oldest first (R182). -/
def sumSquares (k : Nat) (h : List F64) : F64 := (h.take k).foldl (fun s x => F64.add s (F64.mul x x)) F64.posZero

/-- The RMS of a channel (R182). -/
def rms (k : Nat) (h : List F64) : F64 := F64.sqrt (F64.div (sumSquares k h) (F64.ofNat k))

/-- The dominant channel; a tie goes to the lowest index (R183). -/
def dominant (r : Quad F64) : Nat :=
  [1, 2, 3].foldl (fun dom ch => if F64.lt (r.get dom) (r.get ch) then ch else dom) 0

/-- The target gain of channel `ch` (R184). -/
def target (p : SteerParams) (r : Quad F64) (dom ch : Nat) : F64 :=
  if F64.feq (r.get dom) F64.posZero then F64.one
  else if ch = dom then p.gboost
  else F64.sub F64.one (F64.mul (F64.sub F64.one p.gmin) (F64.sub F64.one (F64.div (r.get ch) (r.get dom))))

/-- The one-pole smoothing of a gain (R185). -/
def smooth (p : SteerParams) (tgt g : F64) : F64 :=
  F64.add g (F64.mul (if F64.lt tgt g then p.aatt else p.arel) (F64.sub tgt g))

/-- `steer(d)` for one sample position (R187), with the applied gain of R186. -/
def steer (p : SteerParams) (st : SteerState) (d : Quad F64) : SteerState × Quad F64 :=
  let hist := Quad.ofFn (fun ch => pushHist p.k (st.hist.get ch) (d.get ch))
  let r := Quad.ofFn (fun ch => rms p.k (hist.get ch))
  let gain := Quad.ofFn (fun ch => smooth p (target p r (dominant r) ch) (st.gain.get ch))
  (⟨hist, gain⟩, Quad.ofFn (fun ch => F64.mul (gain.get ch) (d.get ch)))

/-- `steer` once per sample position, in ascending order, each call seeing the state of the one before (R187). -/
def steerAll (p : SteerParams) : SteerState → List (Quad F64) → SteerState × List (Quad F64)
  | st, [] => (st, [])
  | st, d :: ds =>
    let r := steer p st d
    let t := steerAll p r.1 ds
    (t.1, r.2 :: t.2)

end Sys2Proof.Machine
end

