-- ==== Sys2Proof/Machine/Hop.lean ====
section
/-! DEFINITION. The HOP command (R167 to R169): sanitised input, one lane step for each active lane, the matrix of the latched
mode, steering where it is active, and the writes of `OUT`. -/

namespace Sys2Proof.Machine

open Sys2Proof

/-- Writes the samples of one output channel from `OUT[ch][0]` up (R168). -/
def writeOut (src : NaNSource) (ch : Nat) (xs : List F64) (m : Memory) : Memory :=
  m.writeF64s (outAddr ch 0) (publishFrom src (outAddr ch 0) xs)

/-- The new samples of the four lanes (R167). Those of a lane that is not active are not used (R140). -/
def hopInputs (m : Memory) (h cnt : Nat) : Quad (List F64) := Quad.ofFn (fun l => hopInput m l h cnt)

/-- The lane steps of a hop in ENCODE: lanes 0 and 1 have only the original path (R140). -/
def encodeLanes (c : Latched) (t : Quad Lane) (u : Quad (List F64)) : Quad LaneStep :=
  ⟨laneDelay c t.q0 u.q0, laneDelay c t.q1 u.q1, laneHilbert c t.q2 u.q2, laneHilbert c t.q3 u.q3⟩

/-- The lanes after a hop in ENCODE. -/
def encodeTails (r : Quad LaneStep) : Quad Lane := ⟨r.q0.lane, r.q1.lane, r.q2.lane, r.q3.lane⟩

/-- The samples of LT and RT of a hop (R161 to R163). -/
def encodeLT (r : Quad LaneStep) : List F64 := mixLT r.q0.yo r.q3.yo r.q2.yh
def encodeRT (r : Quad LaneStep) : List F64 := mixRT r.q1.yo r.q2.yo r.q3.yh

/-- A hop in ENCODE: `OUT[0]` and `OUT[1]` take LT and RT (R167, R168). -/
def hopEncode (c : Latched) (cnt : Nat) (s : State) : State :=
  let r := encodeLanes c s.lanes (hopInputs s.mem c.h cnt)
  { s with
    lanes := encodeTails r
    mem := writeOut s.nanSource 1 (encodeRT r) (writeOut s.nanSource 0 (encodeLT r) s.mem)
    hopCount := s.hopCount + 1#32
    nanTick := s.nanTick + 1 }

/-- The lane steps of a hop in DECODE: the active lanes 0 and 1, both with a shifted path (R140). -/
def decodeLanes (c : Latched) (t : Quad Lane) (u : Quad (List F64)) : LaneStep × LaneStep :=
  (laneHilbert c t.q0 u.q0, laneHilbert c t.q1 u.q1)

/-- The lanes after a hop in DECODE: lanes 2 and 3 are not written (R140). -/
def decodeTails (r : LaneStep × LaneStep) (t : Quad Lane) : Quad Lane := ⟨r.1.lane, r.2.lane, t.q2, t.q3⟩

/-- The decoded samples of a hop before steering (R164 to R166). -/
def decodeMix (r : LaneStep × LaneStep) : List (Quad F64) := mixDecode r.1.yo r.2.yo r.1.yh r.2.yh

/-- The gains as GAIN shows them. -/
def publishGain (src : NaNSource) (g : Quad F64) : Quad F64 := Quad.ofFn (fun ch => publish src (gainAddr ch) (g.get ch))

/-- The output samples of a hop in DECODE and the steering state after it; without steering both stay as they are (R167,
R180). -/
def decodeSamples (c : Latched) (src : NaNSource) (d : List (Quad F64)) (st : SteerState) : SteerState × List (Quad F64) :=
  match c.steer with
  | none => (st, d)
  | some p =>
    let r := steerAll p st d
    (⟨r.1.hist, publishGain src r.1.gain⟩, r.2)

/-- Writes the four output channels of a hop in DECODE (R161, R168). -/
def writeDecoded (src : NaNSource) (y : List (Quad F64)) (m : Memory) : Memory :=
  writeOut src 3 (y.map Quad.q3) (writeOut src 2 (y.map Quad.q2) (writeOut src 1 (y.map Quad.q1)
    (writeOut src 0 (y.map Quad.q0) m)))

/-- A hop in DECODE: `OUT[0..3]` take LF, RF, LB, RB (R167, R168). -/
def hopDecode (c : Latched) (cnt : Nat) (s : State) : State :=
  let r := decodeLanes c s.lanes (hopInputs s.mem c.h cnt)
  let d := decodeSamples c s.nanSource (decodeMix r) ⟨s.hist, s.gain⟩
  { s with
    lanes := decodeTails r s.lanes
    hist := d.1.hist
    gain := d.1.gain
    mem := writeDecoded s.nanSource d.2 s.mem
    hopCount := s.hopCount + 1#32
    nanTick := s.nanTick + 1 }

/-- The effect of a hop whose checks pass (R167). -/
def hopEffect (c : Latched) (cnt : Nat) (s : State) : State :=
  match c.mode with
  | .encode => hopEncode c cnt s
  | .decode => hopDecode c cnt s

/-- HOP (R167). -/
def execHop (nch : Nat) (cnt : Int) (s : State) : Host.Outcome State Fault Refusal :=
  match checkHop nch cnt s.cfg with
  | .error e => .next (raiseError 0x03#8 e s)
  | .ok c => .next (succeed 0x03#8 (hopEffect c cnt.toNat s))

end Sys2Proof.Machine
end

