-- ==== Sys2Proof/Machine/Transform.lean ====
section
/-! DEFINITION. The commands FFT_FWD and FFT_INV on the diagnostic window `FFTW[0..cfg_N)` (R128, R129). -/

namespace Sys2Proof.Machine

open Sys2Proof

/-- Complex values from their parts, in the window's order: `re`, `im`, `re`, … (R71). -/
def cxsOfF64s : List F64 → List Cx
  | re :: im :: t => ⟨re, im⟩ :: cxsOfF64s t
  | _ => []

/-- The parts of complex values, in the window's order. -/
def f64sOfCxs : List Cx → List F64
  | [] => []
  | x :: xs => x.re :: x.im :: f64sOfCxs xs

/-- `FFTW[0..n)`. -/
def readFftw (m : Memory) (n : Nat) : List Cx := cxsOfF64s (m.readF64s (fftReAddr 0) (2 * n))

/-- Rewrites `FFTW[0..n)` with computed values and counts the command. -/
def writeFftw (xs : List Cx) (s : State) : State :=
  { s with
    mem := s.mem.writeF64s (fftReAddr 0) (publishFrom s.nanSource (fftReAddr 0) (f64sOfCxs xs))
    nanTick := s.nanTick + 1 }

/-- FFT_FWD (R128). -/
def execFftFwd (s : State) : Host.Outcome State Fault Refusal :=
  match s.cfg with
  | none => .next (raiseError 0x04#8 .notConfigured s)
  | some c => .next (succeed 0x04#8 (writeFftw (fft c.n (readFftw s.mem c.n)) s))

/-- FFT_INV (R129). -/
def execFftInv (s : State) : Host.Outcome State Fault Refusal :=
  match s.cfg with
  | none => .next (raiseError 0x05#8 .notConfigured s)
  | some c => .next (succeed 0x05#8 (writeFftw (ifft c.n (readFftw s.mem c.n)) s))

end Sys2Proof.Machine
end

