-- ==== Sys2Proof/Machine/Flags.lean ====
section
/-! DEFINITION. The status and interrupt bits (R27, R33, R34, R245) and the registers that show latched state (R35, R37). -/

namespace Sys2Proof.Machine

open Sys2Proof

/-- `cfg_valid` (R49). -/
def State.cfgValid (s : State) : Bool := s.cfg.isSome

/-- STATUS.ACTIVE_MODE: 1 for ENCODE, 0 for DECODE and while nothing is latched (R27). -/
def State.activeMode (s : State) : Bool :=
  match s.cfg with
  | none => false
  | some c => decide (c.mode = .encode)

/-- STATUS.ACTIVE_LOGIC, which is `cfg_logic` (R27, R180). -/
def State.activeLogic (s : State) : Bool :=
  match s.cfg with
  | none => false
  | some c => c.steer.isSome

/-- STATUS (R27). -/
def State.status (s : State) : Word :=
  s.detail ++ (s.lastOp ++ (0#4 ++ (s.err ++ (0#3 ++ (BitVec.ofBool s.activeLogic ++ (BitVec.ofBool s.activeMode
    ++ (BitVec.ofBool s.ovr ++ (BitVec.ofBool s.cfgValid ++ BitVec.ofBool s.busy))))))))

/-- A number of the latched configuration, 0 while nothing is latched (R35). -/
def State.latchedNat (s : State) (f : Latched → Nat) : Word :=
  match s.cfg with
  | none => 0#32
  | some c => BitVec.ofNat 32 (f c)

/-- ACTIVE_K: `cfg_K` while steering is latched active, and 0 otherwise (R37). -/
def Latched.activeK (c : Latched) : Nat :=
  match c.steer with
  | none => 0
  | some p => p.k

/-- The interrupt output `irq` (R245). -/
def State.irq (s : State) : Bool :=
  (s.irqStatus.getLsbD 0 && s.irqEnable.getLsbD 0) || (s.irqStatus.getLsbD 1 && s.irqEnable.getLsbD 1)

end Sys2Proof.Machine
end

