-- ==== Sys2Proof/Machine/Registers.lean ====
section
/-! DEFINITION. The register map (R23), what a host read of each register returns and what a host write of it does
(R24 to R45), and which of them the host may touch while BUSY (R84). -/

namespace Sys2Proof.Machine

open Sys2Proof

/-- The two words of a 64-bit register pair (R45). -/
inductive Half where
  | lo
  | hi
deriving DecidableEq, Repr

/-- The registers of R23. A reserved offset is no register. -/
inductive Reg where
  | id
  | caps
  | cmd
  | status
  | mode
  | blockSize
  | overlap
  | logic
  | rmsWindow
  | irqEnable
  | irqStatus
  | activeN
  | activeO
  | activeH
  | delta
  | hopCount
  | activeK
  | gmin (half : Half)
  | gboost (half : Half)
  | alphaAtt (half : Half)
  | alphaRel (half : Half)
  | coefC (half : Half)
  | gain (ch : Nat) (half : Half)
deriving DecidableEq, Repr

/-- The register map (R23). -/
def regMap : List (Nat × Reg) :=
  [(0x000, .id), (0x004, .caps), (0x008, .cmd), (0x00C, .status), (0x010, .mode), (0x014, .blockSize), (0x018, .overlap),
   (0x01C, .logic), (0x020, .rmsWindow), (0x024, .irqEnable), (0x028, .irqStatus), (0x02C, .activeN), (0x030, .activeO),
   (0x034, .activeH), (0x038, .delta), (0x03C, .hopCount), (0x040, .activeK), (0x048, .gmin .lo), (0x04C, .gmin .hi),
   (0x050, .gboost .lo), (0x054, .gboost .hi), (0x058, .alphaAtt .lo), (0x05C, .alphaAtt .hi), (0x060, .alphaRel .lo),
   (0x064, .alphaRel .hi), (0x068, .coefC .lo), (0x06C, .coefC .hi), (0x080, .gain 0 .lo), (0x084, .gain 0 .hi),
   (0x088, .gain 1 .lo), (0x08C, .gain 1 .hi), (0x090, .gain 2 .lo), (0x094, .gain 2 .hi), (0x098, .gain 3 .lo),
   (0x09C, .gain 3 .hi)]

/-- The register at an offset; none where the offset is reserved (R44). -/
def regAt (off : Nat) : Option Reg := regMap.lookup off

/-- `v[31:0]` or `v[63:32]` (R45). -/
def halfOf (h : Half) (v : F64) : Word :=
  match h with
  | .lo => v.extractLsb' 0 32
  | .hi => v.extractLsb' 32 32

/-- The value with one half written (R45). -/
def setHalf (h : Half) (w : Word) (v : F64) : F64 :=
  match h with
  | .lo => (v.extractLsb' 32 32 : BitVec 32) ++ w
  | .hi => w ++ (v.extractLsb' 0 32 : BitVec 32)

/-- What a host read of a register returns. -/
def Reg.read (r : Reg) (s : State) : Word :=
  match r with
  | .id => 0x53510001#32
  | .caps => 0x10000410#32
  | .cmd => 0#32
  | .status => s.status
  | .mode => s.mode.setWidth 32
  | .blockSize => s.blockSize
  | .overlap => s.overlap
  | .logic => s.logicEn.setWidth 32
  | .rmsWindow => s.rmsWindow
  | .irqEnable => s.irqEnable.setWidth 32
  | .irqStatus => s.irqStatus.setWidth 32
  | .activeN => s.latchedNat Latched.n
  | .activeO => s.latchedNat Latched.o
  | .activeH => s.latchedNat Latched.h
  | .delta => s.latchedNat Latched.delta
  | .hopCount => s.hopCount
  | .activeK => s.latchedNat Latched.activeK
  | .gmin h => halfOf h s.gmin
  | .gboost h => halfOf h s.gboost
  | .alphaAtt h => halfOf h s.alphaAtt
  | .alphaRel h => halfOf h s.alphaRel
  | .coefC h => halfOf h Sys2Proof.Machine.coefC
  | .gain ch h => halfOf h (s.gain.get ch)

/-- A CMD write: it latches the command while idle (R26), and is dropped with OVR set while BUSY (R247). -/
def writeCmd (v : Word) (s : State) : State :=
  if s.busy then { s with ovr := true } else { s with busy := true, pending := v }

/-- What a host write of a register does. Writes to the read-only ones are ignored (R78). -/
def Reg.write (r : Reg) (v : Word) (s : State) : State :=
  match r with
  | .id => s
  | .caps => s
  | .cmd => writeCmd v s
  | .status => { s with ovr := s.ovr && !v.getLsbD 2 }
  | .mode => { s with mode := v.extractLsb' 0 2 }
  | .blockSize => { s with blockSize := v }
  | .overlap => { s with overlap := v }
  | .logic => { s with logicEn := v.extractLsb' 0 1 }
  | .rmsWindow => { s with rmsWindow := v }
  | .irqEnable => { s with irqEnable := v.extractLsb' 0 2 }
  | .irqStatus => { s with irqStatus := s.irqStatus &&& ~~~(v.extractLsb' 0 2) }
  | .activeN => s
  | .activeO => s
  | .activeH => s
  | .delta => s
  | .hopCount => s
  | .activeK => s
  | .gmin h => { s with gmin := setHalf h v s.gmin }
  | .gboost h => { s with gboost := setHalf h v s.gboost }
  | .alphaAtt h => { s with alphaAtt := setHalf h v s.alphaAtt }
  | .alphaRel h => { s with alphaRel := setHalf h v s.alphaRel }
  | .coefC _ => s
  | .gain _ _ => s

/-- The registers that may be read while BUSY (R84). -/
def Reg.busyReadable : Reg → Bool
  | .id => true
  | .caps => true
  | .cmd => false
  | .status => true
  | .mode => false
  | .blockSize => false
  | .overlap => false
  | .logic => false
  | .rmsWindow => false
  | .irqEnable => true
  | .irqStatus => true
  | .activeN => false
  | .activeO => false
  | .activeH => false
  | .delta => false
  | .hopCount => false
  | .activeK => false
  | .gmin _ => false
  | .gboost _ => false
  | .alphaAtt _ => false
  | .alphaRel _ => false
  | .coefC _ => false
  | .gain _ _ => false

/-- The registers that may be written while BUSY (R84). -/
def Reg.busyWritable : Reg → Bool
  | .id => false
  | .caps => false
  | .cmd => true
  | .status => true
  | .mode => false
  | .blockSize => false
  | .overlap => false
  | .logic => false
  | .rmsWindow => false
  | .irqEnable => true
  | .irqStatus => true
  | .activeN => false
  | .activeO => false
  | .activeH => false
  | .delta => false
  | .hopCount => false
  | .activeK => false
  | .gmin _ => false
  | .gboost _ => false
  | .alphaAtt _ => false
  | .alphaRel _ => false
  | .coefC _ => false
  | .gain _ _ => false

end Sys2Proof.Machine
end

