-- ==== Sys2Proof/Machine/HostBus.lean ====
section
/-! DEFINITION. The host's accesses to the core's window: address decode (R71), bus errors (R73 to R75), the BUSY protocol
(R84), and the host step (R278). -/

namespace Sys2Proof.Machine

open Sys2Proof

/-- What stands at a word of the window (R71). -/
inductive Target where
  | register (r : Reg)
  | inBuffer
  | outBuffer
  | fftWindow
  | reserved
deriving DecidableEq, Repr

/-- The address map (R71). -/
def targetAt (a : Nat) : Target :=
  if a < 0x001000 then (match regAt a with | some r => .register r | none => .reserved)
  else if a < 0x100000 then .reserved
  else if a < 0x300000 then .inBuffer
  else if a < 0x500000 then .outBuffer
  else if a < 0x600000 then .fftWindow
  else .reserved

/-- What a 32-bit aligned read returns. Reserved offsets read 0 (R76). -/
def readWindow (a : Nat) (s : State) : Word :=
  match targetAt a with
  | .register r => r.read s
  | .inBuffer => s.mem.readWord a
  | .outBuffer => s.mem.readWord a
  | .fftWindow => s.mem.readWord a
  | .reserved => 0#32

/-- What a 32-bit aligned write does. Writes to `OUT` and to reserved offsets are ignored (R76, R78). -/
def writeWindow (a : Nat) (v : Word) (s : State) : State :=
  match targetAt a with
  | .register r => r.write v s
  | .inBuffer => { s with mem := s.mem.writeWord a v }
  | .outBuffer => s
  | .fftWindow => { s with mem := s.mem.writeWord a v }
  | .reserved => s

/-- The offset of an access. -/
def Access.addr : Access → Nat
  | .read _ a => a
  | .write _ a _ => a

/-- The width of an access, in bytes. -/
def Access.width : Access → Nat
  | .read w _ => w
  | .write w _ _ => w

/-- Whether an access is a 32-bit aligned one inside the window (R70, R73, R74). -/
def Access.onBus (a : Access) : Bool :=
  decide (a.width = 4) && decide (a.addr % 4 = 0) && decide (a.addr < Config.windowSize)

/-- Whether R84 permits an access while BUSY. -/
def Access.busyPermitted : Access → Bool
  | .read _ a => (match targetAt a with | .register r => r.busyReadable | _ => false)
  | .write _ a _ => (match targetAt a with | .register r => r.busyWritable | _ => false)

/-- What a permitted access does: a read returns a word to the host and changes nothing else (R77). -/
def Access.perform (a : Access) (s : State) : State :=
  match a with
  | .read _ off => { s with returned := readWindow off s :: s.returned }
  | .write _ off v => writeWindow off v s

/-- A host step (R278): one access, which takes effect at once. A bus error comes before the BUSY protocol, since the
access is not performed at all (R75; log entry 7). -/
def hostStep (a : Access) (s : State) : Host.Outcome State Fault Refusal :=
  if !a.onBus then .fault (.busError a.addr)
  else if s.busy && !a.busyPermitted then .fault (.hostProtocolViolation a.addr)
  else .next (a.perform s)

end Sys2Proof.Machine
end

