-- ==== Sys2Proof/Machine/Agents.lean ====
section
/-! DEFINITION. The two agents and their interleaving (R20, R278), and the power-on reset. -/

namespace Sys2Proof.Machine

open Sys2Proof

/-- The core performs the pending command, whole, with its completion effects (R52, R108, R278). -/
def performPending (s : State) : Host.Outcome State Fault Refusal :=
  match decode s.pending with
  | .ok i => exec i s
  | .error e => execIllegal s.pending e s

/-- A core step, possible only while `busy = 1`; an idle core waits for the first CMD write (R270, R278). -/
def coreStep (s : State) : Host.Outcome State Fault Refusal := if s.busy then performPending s else .next s

/-- The next transition: the first of the inputs, or a core step when there is none, so that a running command always ends
(R278's fairness). -/
def transition (s : State) : Host.Outcome State Fault Refusal :=
  match s.inputs with
  | [] => coreStep s
  | .core :: rest => coreStep { s with inputs := rest }
  | .host a :: rest => hostStep a { s with inputs := rest }
  | .powerOn :: rest => .next (powerOnState { s with inputs := rest })

/-- The state whose very next transition performs the command word `w` (its low `nbits` bits): as if the host had just
written it to CMD of an idle core, and the core's turn came next (R26; log entry 1). -/
def placeCommand (s : State) (nbits w : Nat) : State :=
  { s with busy := true, pending := BitVec.ofNat 32 (w % 2 ^ nbits), inputs := .core :: s.inputs }

end Sys2Proof.Machine
end

