-- ==== Sys2Proof/Machine/Step.lean ====
section
/-! DEFINITION. One step of the machine (R278). -/

namespace Sys2Proof.Machine

/-- One step: the next transition of the interleaving. -/
def step (s : State) : Host.Outcome State Fault Refusal := transition s

/-- `s` with the command of the low `nbits` bits of `w` as the one that the next step performs. -/
def State.withFetchWord (s : State) (nbits w : Nat) : State := placeCommand s nbits w

end Sys2Proof.Machine
end

