-- ==== Sys2Proof/Machine/Platform.lean ====
section
/-! DEFINITION. A platform with any number of core instances, each with its own window at its own `CORE_BASE` and its own
complete state (R70, R89, R254). `CORE_BASE` is a parameter of the platform (R71, 93_implementation_defined.md I20). -/

namespace Sys2Proof.Machine

open Sys2Proof

/-- One instance: its `CORE_BASE` and its core. -/
structure CoreAt where
  base : Nat
  core : State
deriving DecidableEq, Repr

/-- Whether a platform address lies in an instance's window. -/
def CoreAt.holds (c : CoreAt) (p : Nat) : Bool := decide (c.base ≤ p) && decide (p < c.base + Config.windowSize)

/-- An access at a platform address, as the access at its offset in the window that starts at `base`. -/
def Access.relative (a : Access) (base : Nat) : Access :=
  match a with
  | .read w p => .read w (p - base)
  | .write w p v => .write w (p - base) v

/-- A host access at a platform address: the instance whose window holds the address performs it, and no other changes. -/
def platformAccess (a : Access) : List CoreAt → Host.Outcome (List CoreAt) Fault Refusal
  | [] => .fault (.busError a.addr)
  | c :: cs =>
    if c.holds a.addr then
      match hostStep (a.relative c.base) c.core with
      | .next s => .next ({ c with core := s } :: cs)
      | .fault e => .fault e
      | .refused e => .refused e
    else
      match platformAccess a cs with
      | .next cs' => .next (c :: cs')
      | .fault e => .fault e
      | .refused e => .refused e

/-- What one instance does alone, for the instance with the given number; no other changes. A number without an instance
changes nothing. -/
def platformAt (act : State → Host.Outcome State Fault Refusal) : Nat → List CoreAt → Host.Outcome (List CoreAt) Fault Refusal
  | _, [] => .next []
  | 0, c :: cs =>
    match act c.core with
    | .next s => .next ({ c with core := s } :: cs)
    | .fault e => .fault e
    | .refused e => .refused e
  | i + 1, c :: cs =>
    match platformAt act i cs with
    | .next cs' => .next (c :: cs')
    | .fault e => .fault e
    | .refused e => .refused e

/-- What happens next on a platform: a host access, a core step of one instance, or a power-on reset of one instance alone,
since each starts from its own reset (R254, R278). -/
inductive PlatformInput where
  | host (a : Access)
  | core (n : Nat)
  | powerOn (n : Nat)
deriving DecidableEq, Repr

/-- One transition of a platform. -/
def platformStep (i : PlatformInput) (cs : List CoreAt) : Host.Outcome (List CoreAt) Fault Refusal :=
  match i with
  | .host a => platformAccess a cs
  | .core n => platformAt coreStep n cs
  | .powerOn n => platformAt (fun s => .next (powerOnState s)) n cs

/-- The instances from number `n` up, right after their resets, one at each of the given bases. The number of an instance
selects its free values, so that no two share the unspecified contents of their buffers (R254, R272). -/
def platformFrom : Nat → List Nat → List CoreAt
  | _, [] => []
  | n, b :: bs => ⟨b, { State.reset with mem := { State.reset.mem with owner := n } }⟩ :: platformFrom (n + 1) bs

/-- A platform right after the power-on of all its instances. -/
def platformReset (bases : List Nat) : List CoreAt := platformFrom 0 bases

/-- The interrupt outputs, one for each instance (R245, R254). -/
def platformIrqs (cs : List CoreAt) : List Bool := cs.map (fun c => c.core.irq)

end Sys2Proof.Machine
end

