-- ==== Sys2Proof/Machine/HostProgram.lean ====
section
/-! DEFINITION. The assembler's text syntax (R109), the host statements (R110), and a host that runs them in turns with the
core. -/

namespace Sys2Proof.Machine

open Sys2Proof

/-! ### Assembler syntax (R109) -/

/-- The tokens of a line: words between spaces, and each comma by itself. The first argument is the word read so far. -/
def tokens : List Char → List Char → List (List Char)
  | w, [] => if w = [] then [] else [w]
  | w, c :: cs =>
    if c = ' ' then (if w = [] then tokens [] cs else w :: tokens [] cs)
    else if c = ',' then (if w = [] then [','] :: tokens [] cs else w :: [','] :: tokens [] cs)
    else tokens (w ++ [c.toUpper]) cs

/-- The value of a digit in capitals, below the given base. -/
def digit (base : Nat) (c : Char) : Option Nat :=
  let v := if '0'.toNat ≤ c.toNat ∧ c.toNat ≤ '9'.toNat then c.toNat - '0'.toNat
    else if 'A'.toNat ≤ c.toNat ∧ c.toNat ≤ 'F'.toNat then c.toNat - 'A'.toNat + 10 else base
  if v < base then some v else none

/-- Digits after the number read so far. -/
def digits (base : Nat) : Nat → List Char → Option Nat
  | n, [] => some n
  | n, c :: cs => (digit base c).bind (fun v => digits base (n * base + v) cs)

/-- A number without a sign: decimal, or hexadecimal after `0x`. -/
def natural : List Char → Option Nat
  | [] => none
  | '0' :: 'X' :: c :: cs => digits 16 0 (c :: cs)
  | c :: cs => digits 10 0 (c :: cs)

/-- A number with an optional minus sign. -/
def integer : List Char → Option Int
  | '-' :: cs => (natural cs).map (fun n => -(n : Int))
  | cs => (natural cs).map (fun n => (n : Int))

/-- `FLUSH nch`: one hop of all-zero input (R110). -/
def flush (nch : Nat) : Instr := .hop nch 0

/-- The command that a line of text writes. Mnemonics are case-insensitive (R109). -/
def parseLine (line : String) : Option Instr :=
  match tokens [] line.toList with
  | [m] =>
    if m = "NOP".toList then some .nop
    else if m = "CONFIGURE".toList then some .configure
    else if m = "CLEAR".toList then some .clear
    else if m = "FFT.FWD".toList then some .fftFwd
    else if m = "FFT.INV".toList then some .fftInv
    else if m = "SOFT_RESET".toList then some .softReset
    else none
  | [m, a] => if m = "FLUSH".toList then (natural a).map flush else none
  | [m, a, comma, b] =>
    if m = "HOP".toList ∧ comma = [','] then (natural a).bind (fun n => (integer b).map (fun c => .hop n c)) else none
  | _ => none

/-- The word that a line of text assembles to. A field outside its bits is refused, never truncated (R109). -/
def assembleLine (line : String) : Option Word := (parseLine line).bind assemble

/-! ### Host statements (R110) -/

/-- A host statement. Offsets stand for register names and buffer entries. -/
inductive Stmt where
  | wr32 (off : Nat) (v : Word)
  | rd32 (off : Nat)
  | wrf64 (off : Nat) (x : F64)
  | rdf64 (off : Nat)
  | cmd (i : Instr)
  | wait
  | run (i : Instr)
deriving DecidableEq, Repr

def offCmd : Nat := 0x008
def offStatus : Nat := 0x00C

/-- `wr32 off, v`. -/
def wr32 (off : Nat) (v : Word) : Access := .write 4 off v

/-- `rd32 off`. -/
def rd32 (off : Nat) : Access := .read 4 off

/-- The accesses of `wrf64 off, x`: the low word, then the high word. -/
def wrf64 (off : Nat) (x : F64) : List Access := [wr32 off (x.extractLsb' 0 32), wr32 (off + 4) (x.extractLsb' 32 32)]

/-- What the host does next: an access, or `wait`. -/
inductive HostOp where
  | access (a : Access)
  | wait
deriving DecidableEq, Repr

/-- The expansion of a statement (R110). A command is written by its assembled word, so a statement whose command the
assembler refuses has none (R109). -/
def Stmt.expand : Stmt → Option (List HostOp)
  | .wr32 off v => some [.access (Sys2Proof.Machine.wr32 off v)]
  | .rd32 off => some [.access (Sys2Proof.Machine.rd32 off)]
  | .wrf64 off x => some ((Sys2Proof.Machine.wrf64 off x).map HostOp.access)
  | .rdf64 off => some [.access (Sys2Proof.Machine.rd32 off), .access (Sys2Proof.Machine.rd32 (off + 4))]
  | .cmd i => (assemble i).map (fun w => [.access (Sys2Proof.Machine.wr32 offCmd w)])
  | .wait => some [.wait]
  | .run i => (assemble i).map (fun w => [.access (Sys2Proof.Machine.wr32 offCmd w), .wait])

/-- The expansion of a host program. -/
def programOps : List Stmt → Option (List HostOp)
  | [] => some []
  | p :: ps => p.expand.bind (fun a => (programOps ps).map (fun b => a ++ b))

/-! ### Running a host program -/

/-- A host program in progress: the core, and what the host has still to do. The words read stand in `core.returned`. -/
structure HostRun where
  core : State
  ops : List HostOp
deriving DecidableEq, Repr

/-- The run after a step of the core's state, with what is left to do. -/
def HostRun.resume (r : Host.Outcome State Fault Refusal) (ops : List HostOp) : Host.Outcome HostRun Fault Refusal :=
  match r with
  | .next s => .next ⟨s, ops⟩
  | .fault e => .fault e
  | .refused e => .refused e

/-- A host step of a program. `wait` reads STATUS, and is over when the value read has bit 0 clear (R110). A program that has
ended does nothing (R279). -/
def HostRun.hostTurn (r : HostRun) : Host.Outcome HostRun Fault Refusal :=
  match r.ops with
  | [] => .next r
  | .access a :: rest => HostRun.resume (hostStep a r.core) rest
  | .wait :: rest =>
    HostRun.resume (hostStep (rd32 offStatus) r.core)
      (if (readWindow offStatus r.core).getLsbD 0 then .wait :: rest else rest)

/-- Whose step comes next (R278). -/
inductive Turn where
  | host
  | core
deriving DecidableEq, Repr

/-- One step of the interleaving of a host program with the core (R278). -/
def Turn.take (t : Turn) (r : HostRun) : Host.Outcome HostRun Fault Refusal :=
  match t with
  | .host => r.hostTurn
  | .core => HostRun.resume (coreStep r.core) r.ops

/-- A host program and the core in the given interleaving, which is any (R278). -/
def takeTurns : List Turn → HostRun → Host.Outcome HostRun Fault Refusal
  | [], r => .next r
  | t :: ts, r =>
    match t.take r with
    | .next r' => takeTurns ts r'
    | .fault e => .fault e
    | .refused e => .refused e

end Sys2Proof.Machine
end

