-- ==== Sys2Proof/Machine/Frame.lean ====
section
/-! DEFINITION. The frame driver (45_frame.md): the host procedure that realises the source's `process` calls on one core. It
runs on the host and adds no state to the core; it reaches the core only through host steps and core steps. -/

namespace Sys2Proof.Machine

open Sys2Proof

/-- An AudioFrame (R220). -/
structure AudioFrame where
  rate : Nat
  numSamples : Int
  ch : List (List F64)
deriving DecidableEq, Repr

/-- The errors of the source that the driver reports (R221, R222). -/
inductive FrameError where
  | configuration (detail : BitVec 8)
  | inputShape
  | inputRange
deriving DecidableEq, Repr

/-- The result of a host procedure: a value and the core's state after it, or the fault of one of its steps. -/
abbrev HostResult (α : Type) := Host.Outcome (α × State) Fault Refusal

/-- One procedure after another; a fault ends both. -/
def andThen {α β : Type} (r : Host.Outcome α Fault Refusal) (f : α → Host.Outcome β Fault Refusal) :
    Host.Outcome β Fault Refusal :=
  match r with
  | .next a => f a
  | .fault e => .fault e
  | .refused e => .refused e

/-- Host accesses, one after another. -/
def hostSteps : List Access → State → Host.Outcome State Fault Refusal
  | [], s => .next s
  | a :: as, s => andThen (hostStep a s) (hostSteps as)

/-- `rd32 off -> r`. -/
def hostRead (off : Nat) (s : State) : HostResult Word :=
  andThen (hostStep (rd32 off) s) (fun t => .next (readWindow off s, t))

/-- `rdf64` of `n` values from `off` up. -/
def hostReadF64s : Nat → Nat → State → HostResult (List F64)
  | 0, _, s => .next ([], s)
  | n + 1, off, s =>
    andThen (hostRead off s) (fun lo => andThen (hostRead (off + 4) lo.2) (fun hi =>
      andThen (hostReadF64s n (off + 8) hi.2) (fun t => .next ((hi.1 ++ lo.1 : BitVec 64) :: t.1, t.2))))

/-- `wrf64` of values from `off` up, as accesses. -/
def writesF64s : Nat → List F64 → List Access
  | _, [] => []
  | off, x :: xs => wrf64 off x ++ writesF64s (off + 8) xs

/-- `run C`: the CMD write, the core's step and the read of STATUS that ends the wait (R110). -/
def runCommand (i : Instr) (s : State) : Host.Outcome State Fault Refusal :=
  andThen (hostStep (wr32 offCmd (encode i)) s) (fun t =>
    andThen (coreStep t) (fun v => hostStep (rd32 offStatus) v))

/-- The steering registers that `new_decoder` writes when steering is wanted (R188, R221). RMS_WINDOW has 32 bits (R32), and
the spec does not say what a driver does with a `K` that does not fit them: this one writes `K` modulo `2^32` (DESIGN CHOICE,
log entry 19). -/
def steeringWrites (p : SteerParams) : List Access :=
  wr32 0x020 (BitVec.ofNat 32 p.k) :: (wrf64 0x048 p.gmin ++ wrf64 0x050 p.gboost ++ wrf64 0x058 p.aatt ++ wrf64 0x060 p.arel)

/-- The register writes of `new_encoder(N, O)` and `new_decoder(N, O)` (R221). Steering parameters belong to a decoder. -/
def codecWrites (mode : Mode) (n o : Word) (steer : Option SteerParams) : List Access :=
  [wr32 0x010 (match mode with | .encode => 1#32 | .decode => 0#32), wr32 0x014 n, wr32 0x018 o,
   wr32 0x01C (match mode, steer with | .decode, some _ => 1#32 | _, _ => 0#32)]
  ++ (match mode, steer with | .decode, some p => steeringWrites p | _, _ => [])

/-- `new_encoder(N, O)` or `new_decoder(N, O)` (R221): none when CONFIGURE succeeds, the error when STATUS.ERR is 1. -/
def newCodec (mode : Mode) (n o : Word) (steer : Option SteerParams) (s : State) : HostResult (Option FrameError) :=
  andThen (hostSteps (codecWrites mode n o steer) s) (fun t =>
    andThen (runCommand .configure t) (fun v =>
      andThen (hostRead offStatus v) (fun r =>
        .next (if r.1.extractLsb' 8 4 = 1#4 then some (.configuration (r.1.extractLsb' 24 8)) else none, r.2))))

/-- The output channels of a mode (R161, R224). -/
def Mode.outputs : Mode → Nat
  | .encode => 2
  | .decode => 4

/-- The frame checks, in order; the first failure is the error (R222). -/
def frameCheck (mode : Mode) (f : AudioFrame) : Option FrameError :=
  if f.ch.length ≠ mode.arity then some .inputShape
  else if f.numSamples < 0 then some .inputRange
  else if f.ch.all (fun x => decide (x.length = (f.ch.headD []).length) && decide (f.numSamples ≤ (x.length : Int))) then none
  else some .inputShape

/-- `cnt` of hop `m` (R223): `clamp(n - δ - m·H, 0, H)`. -/
def frameCnt (c : Latched) (n m : Nat) : Nat := min (n - c.delta - m * c.h) c.h

/-- The number `M` of hops of a frame of `n` samples (R223). -/
def frameHops (c : Latched) (n : Nat) : Nat := if n = 0 then 0 else (n + c.delta + c.h - 1) / c.h

/-- The writes of hop `m`: `x_l[m·H + k + δ]` to `IN(l, k)` for `k < cnt`, lane by lane (R223). -/
def hopWrites (c : Latched) (cnt m : Nat) : Nat → List (List F64) → List Access
  | _, [] => []
  | l, x :: xs => writesF64s (inAddr l 0) ((x.drop (m * c.h + c.delta)).take cnt) ++ hopWrites c cnt m (l + 1) xs

/-- The reads of a hop: `OUT(c, 0..H)` for each of the given output channels, from channel `ch` up. -/
def hopReads (c : Latched) : Nat → Nat → State → HostResult (List (List F64))
  | 0, _, s => .next ([], s)
  | j + 1, ch, s =>
    andThen (hostReadF64s c.h (outAddr ch 0) s) (fun y =>
      andThen (hopReads c j (ch + 1) y.2) (fun ys => .next (y.1 :: ys.1, ys.2)))

/-- Hop `m` of a frame of `n` samples: the samples of each output channel (R223). -/
def frameHop (c : Latched) (x : List (List F64)) (n m : Nat) (s : State) : HostResult (List (List F64)) :=
  andThen (hostSteps (hopWrites c (frameCnt c n m) m 0 x) s) (fun t =>
    andThen (runCommand (.hop c.mode.arity (frameCnt c n m)) t) (hopReads c c.mode.outputs 0))

/-- The hops from `m` on, their samples joined channel by channel (R223). -/
def frameHopsFrom (c : Latched) (x : List (List F64)) (n : Nat) : Nat → Nat → State → HostResult (List (List F64))
  | 0, _, s => .next (List.replicate c.mode.outputs [], s)
  | j + 1, m, s =>
    andThen (frameHop c x n m s) (fun y =>
      andThen (frameHopsFrom c x n j (m + 1) y.2) (fun ys => .next (List.zipWith (· ++ ·) y.1 ys.1, ys.2)))

/-- `process(frame)` on a core configured with `c` (R222 to R224, R227): the checks, CLEAR, the hops, and the `n` samples of
each output channel from stream position `δ` on. A frame that fails a check issues no command. -/
def processFrame (c : Latched) (f : AudioFrame) (s : State) : HostResult (Except FrameError AudioFrame) :=
  match frameCheck c.mode f with
  | some e => .next (.error e, s)
  | none =>
    let n := f.numSamples.toNat
    andThen (runCommand .clear s) (fun t =>
      andThen (frameHopsFrom c (f.ch.map (fun x => x.take n)) n (frameHops c n) 0 t) (fun y =>
        .next (.ok ⟨f.rate, f.numSamples, y.1.map (fun z => (z.drop c.delta).take n)⟩, y.2)))

end Sys2Proof.Machine
end

