-- ==== Sys2Proof/Safety.lean ====
section
/-! DEFINITION. The terms in which statements about the machine are made: the invariant of its states, safe steps, equality
up to a zero's sign or a NaN's bits, correct rounding of a real number, the FFT as the loops of R125 write it, and streams
of hops. -/

namespace Sys2Proof.Machine

open Sys2Proof

/-! ### The invariant -/

/-- Steering parameters that CONFIGURE's checks accept (R202). -/
abbrev SteerParams.Wf (p : SteerParams) : Prop :=
  (1 ≤ p.k ∧ p.k ≤ Config.kMax) ∧
  (F64.isFinite p.gmin = true ∧ F64.le F64.posZero p.gmin = true ∧ F64.le p.gmin F64.one = true) ∧
  (F64.le F64.one p.gboost = true ∧ F64.le p.gboost gboostMax = true) ∧
  alphaOk p.aatt = true ∧ alphaOk p.arel = true

/-- What holds of optional steering parameters: nothing in ENCODE, and accepted ones where they are present. -/
abbrev steerWf (mode : Mode) : Option SteerParams → Prop
  | none => True
  | some p => mode = .decode ∧ p.Wf

/-- A configuration that CONFIGURE can have latched (R6 to R8, R202, R203). -/
abbrev Latched.Wf (c : Latched) : Prop :=
  (c.n = 2 ^ Nat.log2 c.n ∧ Config.nMin ≤ c.n ∧ c.n ≤ Config.nMax) ∧ (0 < c.o ∧ c.o < c.n) ∧
  c.h = c.n - c.o ∧ c.delta = c.o / 4 ∧ steerWf c.mode c.steer

/-- Something of each of four like things. -/
abbrev Quad.Each {α : Type} (P : α → Prop) (q : Quad α) : Prop := P q.q0 ∧ P q.q1 ∧ P q.q2 ∧ P q.q3

/-- Two tails of `o` values (R50). -/
abbrev Lane.Sized (o : Nat) (t : Lane) : Prop := t.tailO.length = o ∧ t.tailH.length = o

/-- What holds of the latched configuration and the stream state: while nothing is latched they are as R204 leaves them;
otherwise the configuration is one that CONFIGURE accepts, the tails have `cfg_O` values and the histories `K_MAX` (R50, R51),
and without steering every gain is 1.0 (R43, R180). -/
abbrev streamInv (s : State) : Option Latched → Prop
  | none => s.lanes = Quad.all ⟨[], []⟩ ∧ s.hist = Quad.all [] ∧ s.gain = Quad.all F64.one ∧ s.hopCount = 0#32
  | some c => c.Wf ∧ s.lanes.Each (Lane.Sized c.o) ∧ s.hist.Each (fun h => h.length = Config.kMax) ∧
      (c.steer = none → s.gain = Quad.all F64.one)

/-- The pairs of ERR and DETAIL that can be produced: success, and the table of R242. -/
def statusPairs : List (BitVec 4 × BitVec 8) :=
  [(0, 0x00), (1, 0x01), (1, 0x02), (1, 0x03), (1, 0x04), (1, 0x05), (1, 0x06), (1, 0x07), (1, 0x08), (1, 0x09), (1, 0x0A),
   (4, 0x11), (4, 0x12), (2, 0x21), (3, 0x31), (3, 0x32), (5, 0x51)]

/-- The invariant of the machine's states. -/
abbrev State.Inv (s : State) : Prop :=
  (s.mem.wf ∧ s.mem.inBuffers) ∧ streamInv s s.cfg ∧ (s.err, s.detail) ∈ statusPairs

/-! ### Safe steps -/

/-- A step that stops neither with a fault nor with a refusal. -/
def SafeStep (s : State) : Prop := ∃ t, step s = .next t

/-- The offsets that a host may read, and those it may write, while BUSY (R84). -/
def busyReads : List Nat := [0x000, 0x004, 0x00C, 0x024, 0x028]
def busyWrites : List Nat := [0x008, 0x00C, 0x024, 0x028]

/-! ### Equality up to what the spec leaves open -/

/-- Equal, or two zeros: equality up to the sign of zero (R148, R170). -/
abbrev SameUpToZeroSign (x y : F64) : Prop := x = y ∨ (F64.isZero x = true ∧ F64.isZero y = true)

/-- Equal, or two NaNs: equality up to what 93_implementation_defined.md I3 leaves open. -/
abbrev SameUpToNaN (x y : F64) : Prop := x = y ∨ (F64.isNaN x = true ∧ F64.isNaN y = true)

/-- `y` stands where the computed value `x` was written: `x` itself, or some NaN where `x` is one. -/
abbrev Shows (x y : F64) : Prop := if F64.isNaN x = true then F64.isNaN y = true else y = x

/-! ### Correct rounding (R10, R11) -/

/-- The exact value of a finite binary64. -/
def exactValue (x : F64) : ℚ := (F64.units x : ℚ) / 2 ^ 1074

/-- `x` is the binary64 value nearest to the real number `r`, ties to even, and infinite beyond the largest finite value by
half a last place or more. The sign of a zero is not said here. -/
def RoundsTo (r : ℝ) (x : F64) : Prop :=
  (|r| < 2 ^ 1024 - 2 ^ 970 → F64.isFinite x = true ∧ ∀ y : F64, F64.isFinite y = true →
    |r - (exactValue x : ℝ)| ≤ |r - (exactValue y : ℝ)| ∧
    (|r - (exactValue x : ℝ)| = |r - (exactValue y : ℝ)| → exactValue y ≠ exactValue x → F64.mag x % 2 = 0)) ∧
  (2 ^ 1024 - 2 ^ 970 ≤ r → x = F64.pack false F64.infMag) ∧
  (r ≤ -(2 ^ 1024 - 2 ^ 970) → x = F64.pack true F64.infMag)

/-! ### The FFT as loops over indices (R125) -/

/-- One stage with blocks of `2 * half` elements: each element is one side of the butterfly of its index. -/
def loopStage (tw : Nat → Cx) (n half : Nat) (a : Nat → Cx) (i : Nat) : Cx :=
  if i % (2 * half) < half then (butterfly (a i) (a (i + half)) (tw (i % (2 * half) * (n / (2 * half))))).1
  else (butterfly (a (i - half)) (a i) (tw ((i % (2 * half) - half) * (n / (2 * half))))).2

/-- The first `l` stages, `half = 1, 2, 4, …`. -/
def loopStages (tw : Nat → Cx) (n : Nat) (a : Nat → Cx) : Nat → Nat → Cx
  | 0 => a
  | l + 1 => loopStage tw n (2 ^ l) (loopStages tw n a l)

/-- All stages on the bit-reversed input, for `N = 2^l`. -/
def loopFft (tw : Nat → Cx) (l : Nat) (x : List Cx) : Nat → Cx :=
  loopStages tw (2 ^ l) (fun i => x.getD (bitrev l i) Cx.zero) l

/-! ### Streams of hops (R148, R170) -/

/-- The original-path output stream of a lane that takes the given hops, with the given lane step. -/
def laneStream (laneStep : Lane → List F64 → LaneStep) : Lane → List (List F64) → List F64
  | _, [] => []
  | t, u :: us => (laneStep t u).yo ++ laneStream laneStep (laneStep t u).lane us

/-- The outputs `(LT, RT)` of successive hops in ENCODE. -/
def encodeStream (c : Latched) : Quad Lane → List (Quad (List F64)) → List (List F64 × List F64)
  | _, [] => []
  | t, u :: us =>
    (encodeLT (encodeLanes c t u), encodeRT (encodeLanes c t u)) :: encodeStream c (encodeTails (encodeLanes c t u)) us

/-- The outputs `(LF, RF, LB, RB)` of successive hops in DECODE without steering, of the sanitised input hops `(LT, RT)`. -/
def decodeStream (c : Latched) : Quad Lane → List (List F64 × List F64) → List (List (Quad F64))
  | _, [] => []
  | t, u :: us =>
    let r := decodeLanes c t ⟨u.1.map san, u.2.map san, [], []⟩
    decodeMix r :: decodeStream c (decodeTails r t) us

/-! ### The stream of a frame (R223) -/

/-- The samples of lane `l` in hop `m` of a frame of `n` samples: the frame's, advanced by `δ`, sanitised, and `+0` from
index `n` on (R160, R223). -/
def frameInput (c : Latched) (x : List (List F64)) (n m l : Nat) : List F64 :=
  (List.range c.h).map (fun k =>
    if m * c.h + k + c.delta < n then san ((x.getD l []).getD (m * c.h + k + c.delta) F64.posZero) else F64.posZero)

/-- One hop of the engine without its buffers: the lanes and the steering state after it, and the samples of each output
channel, before any NaN is made free. -/
def engineHop (c : Latched) (t : Quad Lane) (st : SteerState) (u : Quad (List F64)) :
    Quad Lane × SteerState × List (List F64) :=
  match c.mode with
  | .encode => (encodeTails (encodeLanes c t u), st, [encodeLT (encodeLanes c t u), encodeRT (encodeLanes c t u)])
  | .decode =>
    let r := decodeLanes c t u
    let y := match c.steer with
      | none => (st, decodeMix r)
      | some p => steerAll p st (decodeMix r)
    (decodeTails r t, y.1, [y.2.map Quad.q0, y.2.map Quad.q1, y.2.map Quad.q2, y.2.map Quad.q3])

/-- The lanes and the steering state before hop `m` of a frame, from a cold start. -/
def engineState (c : Latched) (u : Nat → Quad (List F64)) : Nat → Quad Lane × SteerState
  | 0 => (Quad.all (coldLane c.o), ⟨Quad.all (List.replicate Config.kMax F64.posZero), Quad.all F64.one⟩)
  | m + 1 =>
    let r := engineHop c (engineState c u m).1 (engineState c u m).2 (u m)
    (r.1, r.2.1)

/-- The samples of each output channel in hop `m` of a frame. -/
def engineOut (c : Latched) (u : Nat → Quad (List F64)) (m : Nat) : List (List F64) :=
  (engineHop c (engineState c u m).1 (engineState c u m).2 (u m)).2.2

/-- Tails, histories and gains of a core that has heard nothing but silence (R171). -/
abbrev State.Silent (s : State) : Prop :=
  s.lanes.Each (fun t => (∀ x ∈ t.tailO, F64.isZero x = true) ∧ ∀ x ∈ t.tailH, F64.isZero x = true) ∧
  s.hist.Each (fun h => ∀ x ∈ h, F64.isZero x = true) ∧ s.gain = Quad.all F64.one

end Sys2Proof.Machine
end

