-- ==== Sys2Proof/Certificates/Slice0/Obligations.lean ====
section
/-! DEFINITION. The statements for the provers. The helpers before them write out, field by field and in the spec's numbers,
what a completion, a cold start and a latch leave. -/

namespace Sys2Proof.Stated

open Sys2Proof Sys2Proof.Machine

/-- A command that ends without an error (R244): ERR 0, DETAIL 0, LAST_OP, DONE_PEND set, BUSY 0. -/
def done (op : BitVec 8) (s : State) : State :=
  { s with err := 0#4, detail := 0x00#8, lastOp := op, irqStatus := s.irqStatus ||| 0b01#2, busy := false }

/-- A command that ends with an error (R244): its codes, LAST_OP, DONE_PEND and ERR_PEND set, BUSY 0. -/
def failed (op : BitVec 8) (code : BitVec 4) (detail : BitVec 8) (s : State) : State :=
  { s with err := code, detail := detail, lastOp := op, irqStatus := s.irqStatus ||| 0b11#2, busy := false }

/-- `n` times `+0`. -/
def zeros (n : Nat) : List F64 := List.replicate n 0x0000000000000000#64

/-- `1.0`. -/
def unity : F64 := 0x3FF0000000000000#64

/-- A cold start with tails of `o` values (R203): tails and histories `+0`, gains 1.0, HOP_COUNT 0. -/
def cold (o : Nat) (s : State) : State :=
  { s with
    lanes := Quad.all ⟨zeros o, zeros o⟩
    hist := Quad.all (zeros 4096)
    gain := Quad.all unity
    hopCount := 0#32 }

/-- The pairs of a read offset and the value it returns after power-on reset (R23, R53). -/
def resetTable : List (Nat × Word) :=
  [(0x000, 0x53510001#32), (0x004, 0x10000410#32), (0x008, 0#32), (0x00C, 0#32), (0x010, 0#32), (0x014, 1024#32),
   (0x018, 512#32), (0x01C, 0#32), (0x020, 256#32), (0x024, 0#32), (0x028, 0#32), (0x02C, 0#32), (0x030, 0#32), (0x034, 0#32),
   (0x038, 0#32), (0x03C, 0#32), (0x040, 0#32), (0x044, 0#32), (0x048, 0xCF334252#32), (0x04C, 0x3FE009B9#32), (0x050, 0#32),
   (0x054, 0x3FF00000#32), (0x058, 0xFEC99B75#32), (0x05C, 0x3F7288AD#32), (0x060, 0x5ADFCB7A#32), (0x064, 0x3F3DB6FD#32),
   (0x068, 0x667F3BCD#32), (0x06C, 0x3FE6A09E#32), (0x080, 0#32), (0x084, 0x3FF00000#32), (0x088, 0#32), (0x08C, 0x3FF00000#32),
   (0x090, 0#32), (0x094, 0x3FF00000#32), (0x098, 0#32), (0x09C, 0x3FF00000#32)]

/-- The offsets of the read-only registers ID, CAPS, ACTIVE_N, ACTIVE_O, ACTIVE_H, DELTA, HOP_COUNT, ACTIVE_K, COEF_C and GAIN
(R78). -/
def readOnlyOffsets : List Nat :=
  [0x000, 0x004, 0x02C, 0x030, 0x034, 0x038, 0x03C, 0x040, 0x068, 0x06C, 0x080, 0x084, 0x088, 0x08C, 0x090, 0x094, 0x098, 0x09C]

/-- The other offsets that the table of R23 names. -/
def writableOffsets : List Nat :=
  [0x008, 0x00C, 0x010, 0x014, 0x018, 0x01C, 0x020, 0x024, 0x028, 0x048, 0x04C, 0x050, 0x054, 0x058, 0x05C, 0x060, 0x064]

/-- The reserved offsets of the window (R44, R71, R76). -/
def reservedOffset (a : Nat) : Prop :=
  (a < 0x001000 ∧ a ∉ readOnlyOffsets ∧ a ∉ writableOffsets) ∨ (0x001000 ≤ a ∧ a < 0x100000) ∨
  (0x600000 ≤ a ∧ a < 0x1000000)

/-- A word of `IN` or of `FFTW` (R71). -/
def hostBufferWord (a : Nat) : Prop := a % 4 = 0 ∧ ((0x100000 ≤ a ∧ a < 0x300000) ∨ (0x500000 ≤ a ∧ a < 0x600000))

/-- A failed CONFIGURE (R204, R244): the core is unconfigured, HOP_COUNT 0, gains 1.0, ERR 1 and the detail. -/
def configureFails (s : State) (detail : BitVec 8) : Prop :=
  exec .configure s = .next (failed 0x01#8 1#4 detail
    { s with cfg := none, lanes := Quad.all ⟨[], []⟩, hist := Quad.all [], gain := Quad.all unity, hopCount := 0#32 })

/-- A CONFIGURE that latches the given mode, block size, overlap and steering (R203). -/
def configureLatches (s : State) (mode : Mode) (n o : Nat) (steer : Option SteerParams) : Prop :=
  exec .configure s = .next (done 0x01#8 (cold o { s with cfg := some ⟨mode, n, o, n - o, o / 4, steer⟩ }))

/-- The registers' block size and overlap pass CONFIGURE's checks (R202). -/
def sizesAccepted (s : State) : Prop :=
  (∃ l, 6 ≤ l ∧ l ≤ 16 ∧ s.blockSize.toNat = 2 ^ l) ∧ 0 < s.overlap.toNat ∧ s.overlap.toNat < s.blockSize.toNat

/-- Steering is requested: DECODE with LOGIC_EN (R180). -/
def steeringRequested (s : State) : Prop := s.mode = 0#2 ∧ s.logicEn = 1#1

/-- The conditions of the checks 0x06 to 0x0A (R202), each for its register. -/
def windowAccepted (s : State) : Prop := 1 ≤ s.rmsWindow.toNat ∧ s.rmsWindow.toNat ≤ 4096
def gminAccepted (s : State) : Prop :=
  F64.isFinite s.gmin = true ∧ F64.le 0x0000000000000000#64 s.gmin = true ∧ F64.le s.gmin unity = true
def gboostAccepted (s : State) : Prop := F64.le unity s.gboost = true ∧ F64.le s.gboost 0x40F0000000000000#64 = true
def alphaAccepted (a : F64) : Prop := F64.lt 0x0000000000000000#64 a = true ∧ F64.le a unity = true

/-- The transform that FFT_FWD or FFT_INV leaves in `FFTW[0..n)`: every part of every entry shows the computed value, every
byte outside them is as before, and nothing else changes but the completion effects and the model's own counter. -/
def transforms (s : State) (op : BitVec 8) (n : Nat) (x : List Cx) (r : Host.Outcome State Fault Refusal) : Prop :=
  ∃ t, r = .next t ∧ t = done op { s with mem := t.mem, nanTick := s.nanTick + 1 } ∧
    (∀ k, k < n → Shows (x.getD k Cx.zero).re (t.mem.readF64 (0x500000 + 16 * k)) ∧
      Shows (x.getD k Cx.zero).im (t.mem.readF64 (0x500008 + 16 * k))) ∧
    (∀ a, a < 0x500000 ∨ 0x500000 + 16 * n ≤ a → t.mem.readByte a = s.mem.readByte a)

/-- The sum of squares of the first `k` entries, oldest first, from `+0` (R182). -/
def squares (h : List F64) : Nat → F64
  | 0 => 0x0000000000000000#64
  | k + 1 => F64.add (squares h k) (F64.mul (h.getD k unity) (h.getD k unity))

/-- The decoded samples `(LF, RF, LB, RB)` at position `k` of the lane steps of LT and RT (R161, R164 to R166). -/
def decoded (a b : LaneStep) (k : Nat) : Quad F64 :=
  let z : F64 := 0x0000000000000000#64
  ⟨a.yo.getD k z, b.yo.getD k z,
    F64.sub (F64.mul 0x3FE6A09E667F3BCD#64 (a.yh.getD k z)) (F64.mul 0x3FE6A09E667F3BCD#64 (b.yo.getD k z)),
    F64.sub (F64.mul 0x3FE6A09E667F3BCD#64 (a.yo.getD k z)) (F64.mul 0x3FE6A09E667F3BCD#64 (b.yh.getD k z))⟩

/-- The steering state before sample `k`: one call of `steer` for each sample position below it, in ascending order (R187). -/
def steeredTo (p : SteerParams) (st : SteerState) (d : Nat → Quad F64) : Nat → SteerState
  | 0 => st
  | k + 1 => (steer p (steeredTo p st d k) (d k)).1

/-- An infinity of the given sign. -/
def infinity (neg : Bool) : F64 := if neg then 0xFFF0000000000000#64 else 0x7FF0000000000000#64

/-- A zero of the given sign. -/
def zero (neg : Bool) : F64 := if neg then 0x8000000000000000#64 else 0x0000000000000000#64

/-- An idle core with the given latched configuration. -/
def ready (c : Latched) (s : State) : Prop := s.Inv ∧ s.cfg = some c ∧ s.busy = false

/-- A frame of `n` samples that passes the checks of R222. -/
def frameFits (mode : Mode) (f : AudioFrame) (n : Nat) : Prop :=
  f.ch.length = (if mode = .encode then 4 else 2) ∧ f.numSamples = (n : Int) ∧ ∃ len, n ≤ len ∧ ∀ x ∈ f.ch, x.length = len

/-- `y` is the first `n` samples of `x` advanced by `lead`, up to the sign of zero, with zeros where the advance runs past them
(R225, R226). -/
def leads (lead n : Nat) (x y : List F64) : Prop :=
  y.length = n ∧ ∀ i, i < n →
    (i + lead < n → SameUpToZeroSign (y.getD i unity) (x.getD (i + lead) unity)) ∧
    (n ≤ i + lead → F64.isZero (y.getD i unity) = true)

/-- The registers as `new_encoder` or `new_decoder` leaves them for its CONFIGURE (R221); a `K` is written modulo `2^32` (the
model's choice, log entry 19). -/
def codecRegisters (mode : Mode) (n o : Word) (steer : Option SteerParams) (s : State) : State :=
  match mode, steer with
  | .encode, _ => { s with mode := 1#2, blockSize := n, overlap := o, logicEn := 0#1 }
  | .decode, none => { s with mode := 0#2, blockSize := n, overlap := o, logicEn := 0#1 }
  | .decode, some p =>
    { s with
      mode := 0#2
      blockSize := n
      overlap := o
      logicEn := 1#1
      rmsWindow := BitVec.ofNat 32 p.k
      gmin := p.gmin
      gboost := p.gboost
      alphaAtt := p.aatt
      alphaRel := p.arel }

end Sys2Proof.Stated

open Sys2Proof Sys2Proof.Machine Sys2Proof.Stated

/-! ### Decoding and stepping -/

/-- Words written out from the spec's encodings (R100, R104, R109) decode to their commands, and text assembles to its word. -/
def Obligations.WrittenOutWordsDecode : Prop :=
  decode 0b00000000000000000000000000000000#32 = .ok .nop ∧ decode 0b00000000000000000000000000000001#32 = .ok .configure ∧
  decode 0b00000000000000000000000000000010#32 = .ok .clear ∧ decode 0b00000000000000100000010000000011#32 = .ok (.hop 4 32) ∧
  decode 0b11111111111111111111001000000011#32 = .ok (.hop 2 (-1)) ∧
  decode 0b00000000000000000000000000000100#32 = .ok .fftFwd ∧ decode 0b00000000000000000000000000000101#32 = .ok .fftInv ∧
  decode 0b00000000000000000000000000001111#32 = .ok .softReset ∧ decode 0x00000106#32 = .error .reservedOpcode ∧
  decode 0x0001000F#32 = .error .reservedBits ∧ assembleLine "hop 4, 32" = some 0x00020403#32 ∧
  assembleLine "HOP 16, 1" = none

/-- Decoding the word of a well-formed command gives it back, and an assembler refuses exactly the others (R109). -/
def Obligations.DecodeOfEncodeIsTheCommand : Prop :=
  ∀ i : Instr, (i.wf = true → decode (encode i) = .ok i ∧ assemble i = some (encode i)) ∧ (i.wf = false → assemble i = none)

/-- A word that decodes to a command is the word of that command, which is well-formed: no two words mean one command. -/
def Obligations.EncodeOfDecodeIsTheWord : Prop :=
  ∀ (w : Word) (i : Instr), decode w = .ok i → encode i = w ∧ i.wf = true

/-- HOP's fields, read from the word as a number: `NCH` unsigned from bits 11:8, `CNT` two's complement from bits 31:12
(R102, R103). -/
def Obligations.HopFieldsReadFromTheWord : Prop :=
  ∀ w : Word, w.toNat % 256 = 3 →
    decode w = .ok (.hop (w.toNat / 256 % 16)
      (if w.toNat < 2147483648 then ((w.toNat / 4096 : Nat) : Int) else ((w.toNat / 4096 : Nat) : Int) - 1048576))

/-- A core that is busy performs, in its step, the command that the pending word decodes to (R52, R108, R278). -/
def Obligations.StepPerformsDecodedCommand : Prop :=
  ∀ (s : State) (i : Instr), s.busy = true → decode s.pending = .ok i →
    (s.inputs = [] → step s = exec i s) ∧
    (∀ rest, s.inputs = .core :: rest → step s = exec i { s with inputs := rest })

/-- An idle core only waits, and a host step or a power-on is the next transition when it is the next input (R270, R278). The
list of inputs, and the turn of an idle core that only takes one from it, are the model's choice of a form for the interleaving
(log entry 1), as is power-on as an input (log entry 10); that an empty list gives the core its turn is log entry 5. -/
def Obligations.IdleCoreWaitsAndInputsComeInOrder : Prop :=
  ∀ s : State,
    (s.busy = false → s.inputs = [] → step s = .next s) ∧
    (∀ rest, s.busy = false → s.inputs = .core :: rest → step s = .next { s with inputs := rest }) ∧
    (∀ a rest, s.inputs = .host a :: rest → step s = hostStep a { s with inputs := rest }) ∧
    (∀ rest, s.inputs = .powerOn :: rest → step s = .next (powerOnState { s with inputs := rest }))

/-- A pending word with a reserved opcode completes with ERR 4 and DETAIL 0x11, and does nothing else, in the core's turn,
whether the list of inputs (log entry 1) is empty or names it (R105). -/
def Obligations.ReservedOpcodesAreIllegal : Prop :=
  ∀ s : State, s.busy = true →
    (0x06 ≤ s.pending.toNat % 256 ∧ s.pending.toNat % 256 ≤ 0x0E) ∨ 0x10 ≤ s.pending.toNat % 256 →
    (s.inputs = [] → step s = .next (failed (BitVec.ofNat 8 (s.pending.toNat % 256)) 4#4 0x11#8 s)) ∧
    (∀ rest, s.inputs = .core :: rest →
      step s = .next (failed (BitVec.ofNat 8 (s.pending.toNat % 256)) 4#4 0x11#8 { s with inputs := rest }))

/-- A pending word with a legal opcode other than HOP's and a bit set in `w[31:8]` completes with ERR 4 and DETAIL 0x12, and
does nothing else, in the core's turn, whether the list of inputs (log entry 1) is empty or names it (R106). -/
def Obligations.ReservedBitsAreIllegal : Prop :=
  ∀ s : State, s.busy = true →
    s.pending.toNat % 256 ∈ [0x00, 0x01, 0x02, 0x04, 0x05, 0x0F] → s.pending.toNat / 256 ≠ 0 →
    (s.inputs = [] → step s = .next (failed (BitVec.ofNat 8 (s.pending.toNat % 256)) 4#4 0x12#8 s)) ∧
    (∀ rest, s.inputs = .core :: rest →
      step s = .next (failed (BitVec.ofNat 8 (s.pending.toNat % 256)) 4#4 0x12#8 { s with inputs := rest }))

/-- Every accepted command completes in the core's turn, with an error or without: the core never halts (R240, R278). The turn
comes when the list of inputs (log entry 1) is empty or names it. -/
def Obligations.EveryAcceptedCommandCompletes : Prop :=
  ∀ s : State, s.busy = true → s.inputs = [] ∨ (∃ rest, s.inputs = .core :: rest) → ∃ t, step s = .next t ∧ t.busy = false

/-- A step stops only on a host access, and is never refused: on a bus error when the access is not a 32-bit aligned one inside
the window (R73 to R75; outside the window, 93_implementation_defined.md I7), and on a protocol violation when it is one, the
core is BUSY and R84 does not list it (R84, R240, R248, R249). That a wrong access while BUSY is a bus error, and never a
protocol violation, is deduced (log entry 7). -/
def Obligations.StepStopsOnlyOnHostErrors : Prop :=
  ∀ s : State, (∀ q, step s ≠ .refused q) ∧
    ∀ e, step s = .fault e → ∃ a rest, s.inputs = .host a :: rest ∧
      ((e = .busError a.addr ∧ ¬(a.width = 4 ∧ a.addr % 4 = 0 ∧ a.addr < 0x1000000)) ∨
       (e = .hostProtocolViolation a.addr ∧ s.busy = true ∧ (a.width = 4 ∧ a.addr % 4 = 0 ∧ a.addr < 0x1000000) ∧
         (∀ w off, a = .read w off → off ∉ busyReads) ∧ (∀ w off v, a = .write w off v → off ∉ busyWrites)))

/-! ### Reset and the invariant -/

/-- Power-on reset: every register reads as the table of R53 says, the interrupt output is deasserted, nothing is latched and
the core is idle; the buffers list no written byte (R53, R270, R272). -/
def Obligations.PowerOnResetsEveryRegister : Prop :=
  ∀ (s : State) (rest : List Input), s.inputs = .powerOn :: rest → ∃ t, step s = .next t ∧
    (∀ p ∈ resetTable, hostStep (.read 4 p.1) t = .next { t with returned := p.2 :: t.returned }) ∧
    t.irq = false ∧ t.cfg = none ∧ t.busy = false ∧ t.hopCount = 0#32 ∧ t.gain = Quad.all unity ∧ t.mem.cells = []

/-- The state after reset meets the invariant, whose clause for a core with nothing latched says that tails and histories are
empty lists: the model's choice where the spec gives them no value (log entry 4). -/
def Obligations.ResetMeetsInvariant : Prop := State.reset.Inv

/-- Every step keeps the invariant: the memory's canonical form, the latched configuration's validity, the sizes of tails and
histories, unity gains without steering, and a status pair of R242's table. The form of the memory, written offsets in rising
order, is the model's (log entry 2), and so are the empty tails and histories of a core with nothing latched, where the spec
gives them no value (log entry 4). -/
def Obligations.StepKeepsInvariant : Prop := ∀ s t : State, s.Inv → step s = .next t → t.Inv

/-- The latched configuration changes only by a power-on, or by a CONFIGURE or SOFT_RESET that the core performs in its turn
(R49). -/
def Obligations.OnlyConfigureAndResetsChangeTheLatch : Prop :=
  ∀ s t : State, step s = .next t → t.cfg ≠ s.cfg →
    (∃ rest, s.inputs = .powerOn :: rest) ∨
    (s.busy = true ∧ (s.inputs = [] ∨ ∃ rest, s.inputs = .core :: rest) ∧
      (decode s.pending = .ok .configure ∨ decode s.pending = .ok .softReset))

/-! ### Registers and host accesses -/

/-- ID and CAPS always read the same, COEF_C whenever it may be read, and writes to them while idle are ignored (R24, R25, R42). -/
def Obligations.IdentificationRegistersAreFixed : Prop :=
  ∀ s : State,
    hostStep (.read 4 0x000) s = .next { s with returned := 0x53510001#32 :: s.returned } ∧
    hostStep (.read 4 0x004) s = .next { s with returned := 0x10000410#32 :: s.returned } ∧
    (s.busy = false →
      hostStep (.read 4 0x068) s = .next { s with returned := 0x667F3BCD#32 :: s.returned } ∧
      hostStep (.read 4 0x06C) s = .next { s with returned := 0x3FE6A09E#32 :: s.returned } ∧
      ∀ v, ∀ a ∈ [0x000, 0x004, 0x068, 0x06C], hostStep (.write 4 a v) s = .next s)

/-- ACTIVE_N, ACTIVE_O, ACTIVE_H, DELTA and ACTIVE_K show the latched values, 0 while nothing is latched, ACTIVE_K also 0
without steering; at reset they read 0, and writes to them while idle are ignored (R35, R37). GAIN[ch] shows the gain of its
channel, low word first (R43). -/
def Obligations.ActiveRegistersShowTheLatch : Prop :=
  ∀ s : State,
    (s.cfg = none → ∀ a ∈ [0x02C, 0x030, 0x034, 0x038, 0x040], readWindow a s = 0#32) ∧
    (∀ c, s.cfg = some c →
      readWindow 0x02C s = BitVec.ofNat 32 c.n ∧ readWindow 0x030 s = BitVec.ofNat 32 c.o ∧
      readWindow 0x034 s = BitVec.ofNat 32 c.h ∧ readWindow 0x038 s = BitVec.ofNat 32 c.delta ∧
      (c.steer = none → readWindow 0x040 s = 0#32) ∧ (∀ p, c.steer = some p → readWindow 0x040 s = BitVec.ofNat 32 p.k)) ∧
    (∀ a ∈ [0x02C, 0x030, 0x034, 0x038, 0x040], readWindow a State.reset = 0#32 ∧
      (s.busy = false → ∀ v, hostStep (.write 4 a v) s = .next s)) ∧
    (∀ ch, ch < 4 → (readWindow (0x080 + 8 * ch) s).toNat = (s.gain.get ch).toNat % 4294967296 ∧
      (readWindow (0x084 + 8 * ch) s).toNat = (s.gain.get ch).toNat / 4294967296)

/-- The fields of STATUS, and what a write to it does: it clears OVR when bit 2 of the value is 1 and ignores the other bits.
A write of 1 to a bit of IRQ_STATUS clears it and a write of 0 leaves it; IRQ_ENABLE holds what is written. Both read their two
bits, with zeros above (R27, R33, R34). -/
def Obligations.StatusAndInterruptRegisters : Prop :=
  ∀ (s : State) (v : Word),
    (readWindow 0x00C s).toNat = (if s.busy then 1 else 0) + (if s.cfg.isSome then 2 else 0) + (if s.ovr then 4 else 0)
      + (if (∃ c, s.cfg = some c ∧ c.mode = .encode) then 8 else 0)
      + (if (∃ c, s.cfg = some c ∧ c.steer.isSome = true) then 16 else 0)
      + 256 * s.err.toNat + 65536 * s.lastOp.toNat + 16777216 * s.detail.toNat ∧
    hostStep (.write 4 0x00C v) s = .next { s with ovr := s.ovr && !v.getLsbD 2 } ∧
    (∃ t, hostStep (.write 4 0x028 v) s = .next t ∧ t = { s with irqStatus := t.irqStatus } ∧
      ∀ i, i < 2 → t.irqStatus.getLsbD i = (s.irqStatus.getLsbD i && !v.getLsbD i)) ∧
    (∃ t, hostStep (.write 4 0x024 v) s = .next t ∧ t = { s with irqEnable := t.irqEnable } ∧
      ∀ i, i < 2 → t.irqEnable.getLsbD i = v.getLsbD i) ∧
    (readWindow 0x024 s).toNat = s.irqEnable.toNat ∧ (readWindow 0x028 s).toNat = s.irqStatus.toNat

/-- The interrupt output (R245), as the bits that the host reads: DONE_PEND with DONE_EN, or ERR_PEND with ERR_EN. -/
def Obligations.InterruptOutputIsALevel : Prop :=
  ∀ s : State, s.irq = true ↔
    ((readWindow 0x028 s).getLsbD 0 = true ∧ (readWindow 0x024 s).getLsbD 0 = true) ∨
    ((readWindow 0x028 s).getLsbD 1 = true ∧ (readWindow 0x024 s).getLsbD 1 = true)

/-- The configuration registers hold what is written to their bits and change nothing else; each half of a 64-bit pair is
written on its own. A read returns what the register holds, with zeros in the bits that it does not have (R28 to R32, R38 to
R41, R45, R275). -/
def Obligations.ConfigurationRegistersHoldWhatIsWritten : Prop :=
  (∀ s : State, (readWindow 0x010 s).toNat = s.mode.toNat ∧ readWindow 0x014 s = s.blockSize ∧
    readWindow 0x018 s = s.overlap ∧ (readWindow 0x01C s).toNat = s.logicEn.toNat ∧ readWindow 0x020 s = s.rmsWindow ∧
    ∀ p ∈ [(0x048, State.gmin), (0x050, State.gboost), (0x058, State.alphaAtt), (0x060, State.alphaRel)],
      (readWindow p.1 s).toNat = (p.2 s).toNat % 4294967296 ∧
      (readWindow (p.1 + 4) s).toNat = (p.2 s).toNat / 4294967296) ∧
  ∀ (s : State) (v : Word), s.busy = false →
    (∃ t, hostStep (.write 4 0x010 v) s = .next t ∧ t = { s with mode := t.mode } ∧ t.mode.toNat = v.toNat % 4) ∧
    hostStep (.write 4 0x014 v) s = .next { s with blockSize := v } ∧
    hostStep (.write 4 0x018 v) s = .next { s with overlap := v } ∧
    (∃ t, hostStep (.write 4 0x01C v) s = .next t ∧ t = { s with logicEn := t.logicEn } ∧ t.logicEn.toNat = v.toNat % 2) ∧
    hostStep (.write 4 0x020 v) s = .next { s with rmsWindow := v } ∧
    (∀ p ∈ [(0x048, State.gmin), (0x050, State.gboost), (0x058, State.alphaAtt), (0x060, State.alphaRel)],
      (∃ t, hostStep (.write 4 p.1 v) s = .next t ∧
        (p.2 t).toNat = (p.2 s).toNat / 4294967296 * 4294967296 + v.toNat ∧
        readWindow p.1 t = v ∧ readWindow (p.1 + 4) t = readWindow (p.1 + 4) s ∧
        t = { s with gmin := t.gmin, gboost := t.gboost, alphaAtt := t.alphaAtt, alphaRel := t.alphaRel } ∧
        ∀ q ∈ [(0x048, State.gmin), (0x050, State.gboost), (0x058, State.alphaAtt), (0x060, State.alphaRel)],
          q.1 ≠ p.1 → q.2 t = q.2 s) ∧
      (∃ t, hostStep (.write 4 (p.1 + 4) v) s = .next t ∧
        (p.2 t).toNat = v.toNat * 4294967296 + (p.2 s).toNat % 4294967296 ∧
        readWindow (p.1 + 4) t = v ∧ readWindow p.1 t = readWindow p.1 s ∧
        t = { s with gmin := t.gmin, gboost := t.gboost, alphaAtt := t.alphaAtt, alphaRel := t.alphaRel } ∧
        ∀ q ∈ [(0x048, State.gmin), (0x050, State.gboost), (0x058, State.alphaAtt), (0x060, State.alphaRel)],
          q.1 ≠ p.1 → q.2 t = q.2 s))

/-- A write to a read-only register or to an `OUT` word, and a write to a reserved offset, completes and is ignored; a read of
a reserved offset returns 0 (R76, R78). -/
def Obligations.ReadOnlyAndReservedWritesAreIgnored : Prop :=
  ∀ (s : State) (a : Nat) (v : Word), s.busy = false → a % 4 = 0 →
    (a ∈ readOnlyOffsets ∨ (0x300000 ≤ a ∧ a < 0x500000) → hostStep (.write 4 a v) s = .next s) ∧
    (reservedOffset a → hostStep (.write 4 a v) s = .next s ∧
      hostStep (.read 4 a) s = .next { s with returned := 0#32 :: s.returned })

/-- An access that is not 32 bits wide, not 4-byte aligned or outside the window is a bus error and has no next state
(R73 to R75; outside the window, 93_implementation_defined.md I7). That it is one also while BUSY, and not a protocol
violation, is deduced (log entry 7). -/
def Obligations.WrongAccessesAreBusErrors : Prop :=
  ∀ (a : Access) (s : State), ¬(a.width = 4 ∧ a.addr % 4 = 0 ∧ a.addr < 0x1000000) → hostStep a s = .fault (.busError a.addr)

/-- While BUSY, exactly the accesses that R84 lists complete; any other aligned 32-bit access is a protocol violation. That
a read of CMD and a write of ID or CAPS are among the others is deduced from R84's list, which R280 does not repeat in full (log
entry 6). -/
def Obligations.BusyPermitsOnlyTheListedAccesses : Prop :=
  ∀ (s : State) (a : Nat) (v : Word), s.busy = true → a % 4 = 0 → a < 0x1000000 →
    (a ∈ busyReads → hostStep (.read 4 a) s = .next { s with returned := readWindow a s :: s.returned }) ∧
    (a ∉ busyReads → hostStep (.read 4 a) s = .fault (.hostProtocolViolation a)) ∧
    (a ∈ busyWrites → ∃ t, hostStep (.write 4 a v) s = .next t) ∧
    (a ∉ busyWrites → hostStep (.write 4 a v) s = .fault (.hostProtocolViolation a))

/-- A CMD write latches the word and sets BUSY while idle; while BUSY it is dropped and its only effect is OVR. A read of CMD
returns 0 (R26, R247). -/
def Obligations.CmdWriteStartsOrOverruns : Prop :=
  ∀ (s : State) (v : Word),
    (s.busy = false → hostStep (.write 4 0x008 v) s = .next { s with busy := true, pending := v } ∧
      hostStep (.read 4 0x008) s = .next { s with returned := 0#32 :: s.returned }) ∧
    (s.busy = true → hostStep (.write 4 0x008 v) s = .next { s with ovr := true })

/-- A word written to `IN` or `FFTW` is read back, little-endian bytes in its four offsets, and every other byte of the buffers
stays (R46, R48, R71, R72). -/
def Obligations.BufferWordsReadBack : Prop :=
  ∀ (s : State) (a : Nat) (v : Word), s.busy = false → hostBufferWord a →
    ∃ t, hostStep (.write 4 a v) s = .next t ∧ t = { s with mem := t.mem } ∧ readWindow a t = v ∧
      (∀ i, i < 4 → (t.mem.readByte (a + i)).toNat = v.toNat / 256 ^ i % 256) ∧
      (∀ b, b < a ∨ a + 4 ≤ b → t.mem.readByte b = s.mem.readByte b)

/-- A host access changes no latched configuration, no stream state, no status of the last command and no byte of `OUT`, and a
read changes nothing but the words returned (R27, R49, R77, R78, R275). -/
def Obligations.HostStepsLeaveTheStreamAlone : Prop :=
  ∀ (s t : State) (a : Access), hostStep a s = .next t →
    t.cfg = s.cfg ∧ t.lanes = s.lanes ∧ t.hist = s.hist ∧ t.gain = s.gain ∧ t.hopCount = s.hopCount ∧ t.err = s.err ∧
    t.lastOp = s.lastOp ∧ t.detail = s.detail ∧
    (∀ b, 0x300000 ≤ b → b < 0x500000 → t.mem.readByte b = s.mem.readByte b) ∧
    (∀ w off, a = .read w off → t = { s with returned := readWindow off s :: s.returned })

/-- On a platform, a core step or a power-on reset of instance `n` changes at most instance `n`, as that instance alone would;
an access changes at most the first instance whose window holds its address, as the access at its offset there would. No base
changes (R89, R254). That an address belongs to the first of several windows is the model's choice (log entry 13). -/
def Obligations.InstancesShareNothing : Prop :=
  ∀ (e : PlatformInput) (cs ds : List CoreAt), platformStep e cs = .next ds →
    ds.map CoreAt.base = cs.map CoreAt.base ∧
    (∀ n, e = .core n ∨ e = .powerOn n → (∀ j : Nat, j ≠ n → ds[j]? = cs[j]?) ∧
      ∀ c, cs[n]? = some c → ∃ d, ds[n]? = some d ∧
        (e = .core n → coreStep c.core = .next d.core) ∧ (e = .powerOn n → d.core = powerOnState c.core)) ∧
    (∀ a, e = .host a → ∃ (i : Nat) (c d : CoreAt), cs[i]? = some c ∧ ds[i]? = some d ∧
      (c.base ≤ a.addr ∧ a.addr < c.base + 0x1000000) ∧
      (∀ (j : Nat) (b : CoreAt), j < i → cs[j]? = some b → ¬(b.base ≤ a.addr ∧ a.addr < b.base + 0x1000000)) ∧
      hostStep (a.relative c.base) c.core = .next d.core ∧ ∀ j : Nat, j ≠ i → ds[j]? = cs[j]?)

/-! ### The control commands -/

/-- NOP is the word 0 exactly, needs no configuration and has only the completion effects (R200). -/
def Obligations.NopOnlyCompletes : Prop :=
  (∀ w : Word, decode w = .ok .nop ↔ w = 0x00000000#32) ∧ ∀ s : State, exec .nop s = .next (done 0x00#8 s)

/-- CONFIGURE with accepted registers latches them and performs a cold start; steering is latched exactly when it is requested
(R203, with R202's conditions and R180). That a CONFIGURE without steering keeps no older steering parameters is the model's
choice (log entry 8). -/
def Obligations.ConfigureLatchesAcceptedRegisters : Prop :=
  ∀ s : State, sizesAccepted s →
    (s.mode = 1#2 → configureLatches s .encode s.blockSize.toNat s.overlap.toNat none) ∧
    (s.mode = 0#2 → s.logicEn = 0#1 → configureLatches s .decode s.blockSize.toNat s.overlap.toNat none) ∧
    (steeringRequested s → windowAccepted s → gminAccepted s → gboostAccepted s → alphaAccepted s.alphaAtt →
      alphaAccepted s.alphaRel →
      configureLatches s .decode s.blockSize.toNat s.overlap.toNat
        (some ⟨s.rmsWindow.toNat, s.gmin, s.gboost, s.alphaAtt, s.alphaRel⟩))

/-- CONFIGURE fails on the first check of R202 that fails, with that check's detail, and leaves the core unconfigured (R204).
That tails, histories and the latch then hold no value is an empty list or none in this model (the model's choice, log entry 4). -/
def Obligations.ConfigureFailsOnTheFirstFailingCheck : Prop :=
  ∀ s : State,
    (s.mode = 2#2 ∨ s.mode = 3#2 → configureFails s 0x01#8) ∧
    (s.mode = 0#2 ∨ s.mode = 1#2 →
      ((¬∃ l, s.blockSize.toNat = 2 ^ l) → configureFails s 0x02#8) ∧
      ((∃ l, s.blockSize.toNat = 2 ^ l) → s.blockSize.toNat < 64 → configureFails s 0x03#8) ∧
      ((∃ l, s.blockSize.toNat = 2 ^ l) → 65536 < s.blockSize.toNat → configureFails s 0x04#8) ∧
      ((∃ l, 6 ≤ l ∧ l ≤ 16 ∧ s.blockSize.toNat = 2 ^ l) →
        s.overlap.toNat = 0 ∨ s.blockSize.toNat ≤ s.overlap.toNat → configureFails s 0x05#8)) ∧
    (sizesAccepted s → steeringRequested s →
      (¬windowAccepted s → configureFails s 0x06#8) ∧
      (windowAccepted s → ¬gminAccepted s → configureFails s 0x07#8) ∧
      (windowAccepted s → gminAccepted s → ¬gboostAccepted s → configureFails s 0x08#8) ∧
      (windowAccepted s → gminAccepted s → gboostAccepted s → ¬alphaAccepted s.alphaAtt → configureFails s 0x09#8) ∧
      (windowAccepted s → gminAccepted s → gboostAccepted s → alphaAccepted s.alphaAtt → ¬alphaAccepted s.alphaRel →
        configureFails s 0x0A#8))

/-- CLEAR is the word 2 exactly; it performs a cold start of the latched configuration, and only that, and fails with 0x51
while none is latched (R205). -/
def Obligations.ClearColdStarts : Prop :=
  (∀ w : Word, decode w = .ok .clear ↔ w = 0x00000002#32) ∧
  ∀ s : State,
    (∀ c, s.cfg = some c → exec .clear s = .next (done 0x02#8 (cold c.o s))) ∧
    (s.cfg = none → exec .clear s = .next (failed 0x02#8 5#4 0x51#8 s))

/-- HOP, CLEAR, FFT_FWD and FFT_INV on an unconfigured core complete with NOT_CONFIGURED and no other effect; NOP, CONFIGURE
and SOFT_RESET never do (R207). -/
def Obligations.CommandsThatNeedAConfiguration : Prop :=
  ∀ s : State,
    (s.cfg = none →
      (∀ nch cnt, exec (.hop nch cnt) s = .next (failed 0x03#8 5#4 0x51#8 s)) ∧
      exec .clear s = .next (failed 0x02#8 5#4 0x51#8 s) ∧ exec .fftFwd s = .next (failed 0x04#8 5#4 0x51#8 s) ∧
      exec .fftInv s = .next (failed 0x05#8 5#4 0x51#8 s)) ∧
    (∀ i ∈ [Instr.nop, .configure, .softReset], ∃ t, exec i s = .next t ∧ t.err ≠ 5#4)

/-- SOFT_RESET puts every register and all internal state at the value after power-on reset, without a completion event; `IN`,
`OUT` and `FFTW` keep their contents (R206, R271). What power-on reset leaves without a value, `pending`, tails and histories,
is as State.reset has it (the model's choice, log entry 4), and that the model's own fields go on is log entry 10. -/
def Obligations.SoftResetKeepsOnlyTheBuffers : Prop :=
  ∀ s : State, ∃ t, exec .softReset s = .next t ∧ t.mem = s.mem ∧
    { t with mem := State.reset.mem } = { State.reset with nanTick := s.nanTick, inputs := s.inputs, returned := s.returned } ∧
    (∀ p ∈ resetTable, readWindow p.1 t = p.2) ∧ t.irq = false

/-- HOP_COUNT counts the hops completed without error since the last cold start, modulo 2^32; it reads what it counts, and is
0 at reset (R36). -/
def Obligations.HopCountCountsSuccessfulHops : Prop :=
  State.reset.hopCount = 0#32 ∧
  ∀ s : State,
    readWindow 0x03C s = s.hopCount ∧
    (∀ nch cnt, ∃ t, exec (.hop nch cnt) s = .next t ∧
      (t.err = 0#4 → t.hopCount.toNat = (s.hopCount.toNat + 1) % 4294967296) ∧ (t.err ≠ 0#4 → t.hopCount = s.hopCount)) ∧
    (∃ t, exec .configure s = .next t ∧ t.hopCount = 0#32) ∧ (∃ t, exec .softReset s = .next t ∧ t.hopCount = 0#32) ∧
    (∃ t, exec .clear s = .next t ∧ (t.err = 0#4 → t.hopCount = 0#32) ∧ (t.err ≠ 0#4 → t.hopCount = s.hopCount)) ∧
    (∀ i ∈ [Instr.nop, .fftFwd, .fftInv], ∃ t, exec i s = .next t ∧ t.hopCount = s.hopCount)

/-- No command writes `IN`, only HOP writes `OUT`, and only FFT_FWD and FFT_INV write `FFTW` (R46 to R48). -/
def Obligations.CommandsWriteOnlyTheirBuffers : Prop :=
  ∀ (s t : State) (i : Instr), s.Inv → exec i s = .next t → ∀ a,
    (a < 0x300000 ∨ 0x600000 ≤ a → t.mem.readByte a = s.mem.readByte a) ∧
    (0x300000 ≤ a → a < 0x500000 → (∀ nch cnt, i ≠ .hop nch cnt) → t.mem.readByte a = s.mem.readByte a) ∧
    (0x500000 ≤ a → a < 0x600000 → i ≠ .fftFwd → i ≠ .fftInv → t.mem.readByte a = s.mem.readByte a)

/-! ### The transforms -/

/-- FFT_FWD rewrites `FFTW[0..cfg_N)` with the forward transform of what stood there, and nothing else; unconfigured it fails
with 0x51 (R128). A NaN part shows some NaN (93_implementation_defined.md I3). -/
def Obligations.FftFwdRewritesItsWindow : Prop :=
  ∀ s : State,
    (∀ c, s.cfg = some c → c.Wf → transforms s 0x04#8 c.n (fft c.n (readFftw s.mem c.n)) (exec .fftFwd s)) ∧
    (s.cfg = none → exec .fftFwd s = .next (failed 0x04#8 5#4 0x51#8 s))

/-- FFT_INV rewrites `FFTW[0..cfg_N)` with the inverse transform of what stood there, and nothing else; unconfigured it fails
with 0x51 (R129). -/
def Obligations.FftInvRewritesItsWindow : Prop :=
  ∀ s : State,
    (∀ c, s.cfg = some c → c.Wf → transforms s 0x05#8 c.n (ifft c.n (readFftw s.mem c.n)) (exec .fftInv s)) ∧
    (s.cfg = none → exec .fftInv s = .next (failed 0x05#8 5#4 0x51#8 s))

/-- `FFTW[k]` is read from its offsets: the real part at `0x500000 + 16k`, the imaginary part at `0x500008 + 16k`, and
`IN[l][k]` from `0x100000 + 0x80000·l + 8k`, each as two little-endian words. An idle host read returns what stands at its
offset, and in `IN`, `OUT` and `FFTW` that is the little-endian word of the four bytes there (R71, R72, R80). -/
def Obligations.BufferEntriesStandAtTheirOffsets : Prop :=
  ∀ (m : Memory) (n k : Nat), k < n →
    (readFftw m n)[k]? = some ⟨m.readF64 (0x500000 + 16 * k), m.readF64 (0x500008 + 16 * k)⟩ ∧
    (∀ l, (m.readF64s (inAddr l 0) n)[k]? = some (m.readF64 (0x100000 + 0x80000 * l + 8 * k))) ∧
    (∀ a, (m.readF64 a).toNat = (m.readByte a).toNat + 256 * (m.readByte (a + 1)).toNat + 256 ^ 2 * (m.readByte (a + 2)).toNat
      + 256 ^ 3 * (m.readByte (a + 3)).toNat + 256 ^ 4 * (m.readByte (a + 4)).toNat + 256 ^ 5 * (m.readByte (a + 5)).toNat
      + 256 ^ 6 * (m.readByte (a + 6)).toNat + 256 ^ 7 * (m.readByte (a + 7)).toNat) ∧
    (∀ (s : State) (a : Nat), a % 4 = 0 → a < 0x1000000 →
      (s.busy = false → hostStep (.read 4 a) s = .next { s with returned := readWindow a s :: s.returned }) ∧
      (0x100000 ≤ a → a < 0x600000 → (readWindow a s).toNat = (s.mem.readByte a).toNat + 256 * (s.mem.readByte (a + 1)).toNat
        + 256 ^ 2 * (s.mem.readByte (a + 2)).toNat + 256 ^ 3 * (s.mem.readByte (a + 3)).toNat))

/-- Bit `b` of a reversed index is bit `L-1-b` of the index, and the permutation moves `x[i]` to that place (R124, R125). -/
def Obligations.BitReversalPermutesByReversedIndex : Prop :=
  ∀ (l i : Nat) (x : List Cx), i < 2 ^ l → x.length = 2 ^ l →
    bitrev l i < 2 ^ l ∧ (∀ b, b < l → (bitrev l i).testBit b = i.testBit (l - 1 - b)) ∧
    (bitReverse l x)[bitrev l i]? = x[i]?

/-- The butterfly is that of R123, with the complex product of R121, operation by operation. The transforms are the loops of R125
and R126 over it, element by element: the forward one with `twf`, the inverse one with `twi` and the factor `RN(1/N)`. -/
def Obligations.FftIsTheLoopsOverIndices : Prop :=
  (∀ ur ui xr xi wr wi : F64,
    let tr := F64.sub (F64.mul wr xr) (F64.mul wi xi)
    let ti := F64.add (F64.mul wr xi) (F64.mul wi xr)
    cmul ⟨wr, wi⟩ ⟨xr, xi⟩ = ⟨tr, ti⟩ ∧
    butterfly ⟨ur, ui⟩ ⟨xr, xi⟩ ⟨wr, wi⟩ = (⟨F64.add ur tr, F64.add ui ti⟩, ⟨F64.sub ur tr, F64.sub ui ti⟩)) ∧
  ∀ (l i : Nat) (x : List Cx), i < 2 ^ l → x.length = 2 ^ l →
    (fft (2 ^ l) x)[i]? = some (loopFft (twf (2 ^ l)) l x i) ∧
    (ifft (2 ^ l) x)[i]? = some ⟨F64.mul (loopFft (twi (2 ^ l)) l x i).re (F64.round false (2 ^ 1074) (2 ^ l)),
      F64.mul (loopFft (twi (2 ^ l)) l x i).im (F64.round false (2 ^ 1074) (2 ^ l))⟩

/-- The twiddles are the correctly rounded cosines and sines of R122, for every block size, with `+0` for an exact zero. -/
def Obligations.TwiddlesAreCorrectlyRounded : Prop :=
  ∀ l k : Nat, 6 ≤ l → l ≤ 16 → k < 2 ^ l / 2 →
    RoundsTo (Real.cos (2 * Real.pi * k / 2 ^ l)) (twf (2 ^ l) k).re ∧
    RoundsTo (-Real.sin (2 * Real.pi * k / 2 ^ l)) (twf (2 ^ l) k).im ∧
    RoundsTo (Real.cos (2 * Real.pi * k / 2 ^ l)) (twi (2 ^ l) k).re ∧
    RoundsTo (Real.sin (2 * Real.pi * k / 2 ^ l)) (twi (2 ^ l) k).im ∧
    (k = 0 → twf (2 ^ l) k = ⟨0x3FF0000000000000#64, 0x0000000000000000#64⟩) ∧
    (k = 2 ^ l / 4 → twf (2 ^ l) k = ⟨0x0000000000000000#64, 0xBFF0000000000000#64⟩) ∧
    (k = 0 → twi (2 ^ l) k = ⟨0x3FF0000000000000#64, 0x0000000000000000#64⟩) ∧
    (k = 2 ^ l / 4 → twi (2 ^ l) k = ⟨0x0000000000000000#64, 0x3FF0000000000000#64⟩)

/-! ### Binary64 arithmetic -/

/-- Sums and differences of finite values are correctly rounded; a zero sum is `+0`, but `-0` for two negative zeros, and a zero
difference is `+0`, but `-0` for a negative zero less a positive one. A NaN operand gives a NaN, and so do a sum of opposite and
a difference of equal infinities; otherwise an infinity stays. Comparisons with a NaN are false, those of finite values are
those of their exact values, so that `+0 == -0`, and the infinities stand at the ends (R10, R11). The signs of zeros, the
overflow to infinity and the special operands are taken from IEEE 754 (PRESUMED, log entry 17). -/
def Obligations.SumsAreCorrectlyRounded : Prop :=
  (∀ x y : F64, F64.isFinite x = true → F64.isFinite y = true →
    RoundsTo ((exactValue x : ℝ) + (exactValue y : ℝ)) (F64.add x y) ∧
    RoundsTo ((exactValue x : ℝ) - (exactValue y : ℝ)) (F64.sub x y) ∧
    (exactValue x + exactValue y = 0 → F64.add x y =
      if F64.isNeg x = true ∧ F64.isNeg y = true then 0x8000000000000000#64 else 0x0000000000000000#64) ∧
    (exactValue x - exactValue y = 0 → F64.sub x y =
      if F64.isNeg x = true ∧ F64.isNeg y = false then 0x8000000000000000#64 else 0x0000000000000000#64) ∧
    (F64.lt x y = true ↔ exactValue x < exactValue y) ∧ (F64.le x y = true ↔ exactValue x ≤ exactValue y) ∧
    (F64.feq x y = true ↔ exactValue x = exactValue y)) ∧
  (∀ x y : F64, F64.isNaN x = true ∨ F64.isNaN y = true →
    F64.isNaN (F64.add x y) = true ∧ F64.isNaN (F64.sub x y) = true ∧
    F64.lt x y = false ∧ F64.le x y = false ∧ F64.feq x y = false) ∧
  (∀ (n : Bool) (x : F64), F64.isNaN x = false →
    (x ≠ infinity !n → F64.add (infinity n) x = infinity n ∧ F64.add x (infinity n) = infinity n ∧
      F64.sub x (infinity !n) = infinity n) ∧
    (x ≠ infinity n → F64.sub (infinity n) x = infinity n) ∧
    F64.isNaN (F64.add (infinity n) (infinity !n)) = true ∧ F64.isNaN (F64.sub (infinity n) (infinity n)) = true ∧
    (F64.lt (infinity true) x = true ↔ x ≠ infinity true) ∧ (F64.lt x (infinity false) = true ↔ x ≠ infinity false) ∧
    F64.lt x (infinity true) = false ∧ F64.lt (infinity false) x = false ∧
    F64.le (infinity true) x = true ∧ F64.le x (infinity false) = true ∧
    (F64.le x (infinity true) = true ↔ x = infinity true) ∧ (F64.le (infinity false) x = true ↔ x = infinity false) ∧
    (F64.feq x (infinity n) = true ↔ x = infinity n) ∧ (F64.feq (infinity n) x = true ↔ x = infinity n))

/-- Products and quotients of finite values are correctly rounded, with the sign of the operands' signs together, also of a
zero (R10, R11). A NaN operand gives a NaN, and so do a product of a zero and an infinity and a quotient of two zeros or of two
infinities; otherwise an infinite operand or a zero divisor gives an infinity, and an infinite divisor a zero, of that same
sign. Signs of zeros, overflow to infinity and special operands are taken from IEEE 754 (PRESUMED, log entry 17). -/
def Obligations.ProductsAndQuotientsAreCorrectlyRounded : Prop :=
  (∀ x y : F64, F64.isFinite x = true → F64.isFinite y = true →
    RoundsTo ((exactValue x : ℝ) * (exactValue y : ℝ)) (F64.mul x y) ∧
    F64.isNeg (F64.mul x y) = (F64.isNeg x != F64.isNeg y) ∧
    (F64.isZero y = false →
      RoundsTo ((exactValue x : ℝ) / (exactValue y : ℝ)) (F64.div x y) ∧
      F64.isNeg (F64.div x y) = (F64.isNeg x != F64.isNeg y))) ∧
  (∀ x y : F64, F64.isNaN x = true ∨ F64.isNaN y = true →
    F64.isNaN (F64.mul x y) = true ∧ F64.isNaN (F64.div x y) = true) ∧
  (∀ (n m : Bool) (x : F64), F64.isNaN x = false →
    (F64.isZero x = false → F64.mul (infinity n) x = infinity (n != F64.isNeg x) ∧
      F64.mul x (infinity n) = infinity (F64.isNeg x != n) ∧ F64.div x (zero n) = infinity (F64.isNeg x != n)) ∧
    (F64.isFinite x = true → F64.div (infinity n) x = infinity (n != F64.isNeg x) ∧
      F64.div x (infinity n) = zero (F64.isNeg x != n)) ∧
    F64.isNaN (F64.mul (infinity n) (zero m)) = true ∧ F64.isNaN (F64.mul (zero m) (infinity n)) = true ∧
    F64.isNaN (F64.div (zero n) (zero m)) = true ∧ F64.isNaN (F64.div (infinity n) (infinity m)) = true)

/-- The square root of a finite value that is not negative is correctly rounded (R10, R11). The root of a zero is that zero,
that of `+∞` is `+∞`, and that of a NaN or of any other negative value is a NaN (IEEE 754; PRESUMED, log entry 17). -/
def Obligations.SquareRootsAreCorrectlyRounded : Prop :=
  (∀ x : F64, F64.isFinite x = true → F64.isNeg x = false → RoundsTo (Real.sqrt (exactValue x : ℝ)) (F64.sqrt x)) ∧
  (∀ n : Bool, F64.sqrt (zero n) = zero n) ∧ F64.sqrt (infinity false) = infinity false ∧
  ∀ x : F64, F64.isNaN x = true ∨ (F64.isNeg x = true ∧ F64.isZero x = false) → F64.isNaN (F64.sqrt x) = true

/-- The matrix scalar is the binary64 value nearest to `√2/2`, and its negative has the sign bit flipped (R9). -/
def Obligations.MatrixScalarIsNearestToHalfRootTwo : Prop :=
  coefC = 0x3FE6A09E667F3BCD#64 ∧ RoundsTo (Real.sqrt 2 / 2) coefC ∧ F64.neg coefC = 0xBFE6A09E667F3BCD#64

/-- The reset values of the steering registers are the rounded values of the source's defaults: 6 dB and 0 dB, and 5 ms and
50 ms at 44100 Hz (R38 to R41, R188). -/
def Obligations.SteeringResetValuesAreTheRoundedDefaults : Prop :=
  RoundsTo ((10 : ℝ) ^ (-(6 : ℝ) / 20)) State.reset.gmin ∧ RoundsTo ((10 : ℝ) ^ ((0 : ℝ) / 20)) State.reset.gboost ∧
  RoundsTo (1 - Real.exp (-1 / (5 / 1000 * 44100))) State.reset.alphaAtt ∧
  RoundsTo (1 - Real.exp (-1 / (50 / 1000 * 44100))) State.reset.alphaRel

/-! ### The lanes, the matrix and the steering -/

/-- The Hilbert multiplier is 0 at bins 0 and N/2, and an exact swap and sign flip at the others (R141). -/
def Obligations.HilbertMultiplierSwapsAndFlips : Prop :=
  ∀ (n k : Nat) (a b : F64), k < n → n % 2 = 0 →
    (k = 0 ∨ k = n / 2 → hmul n k ⟨a, b⟩ = ⟨0x0000000000000000#64, 0x0000000000000000#64⟩) ∧
    (1 ≤ k → k < n / 2 → hmul n k ⟨a, b⟩ = ⟨b, a ^^^ 0x8000000000000000#64⟩) ∧
    (n / 2 < k → hmul n k ⟨a, b⟩ = ⟨b ^^^ 0x8000000000000000#64, a⟩)

/-- A hop's samples: `san(IN[l][k])` below `CNT` and `+0` above (R160, R167), and the block that holds them from `δ` up among
zeros (R142). -/
def Obligations.HopSamplesAndTheirBlock : Prop :=
  (∀ (m : Memory) (l h cnt k : Nat), cnt ≤ h → k < h →
    (hopInput m l h cnt)[k]? = some (if k < cnt then
      (if F64.isFinite (m.readF64 (0x100000 + 0x80000 * l + 8 * k)) = true
        then m.readF64 (0x100000 + 0x80000 * l + 8 * k) else 0x0000000000000000#64) else 0x0000000000000000#64)) ∧
  (∀ (c : Latched) (u : List F64) (i : Nat), c.Wf → u.length = c.h → i < c.n →
    (laneBlock c u)[i]? = some (if c.delta ≤ i ∧ i < c.delta + c.h then u.getD (i - c.delta) 0x0000000000000000#64
      else 0x0000000000000000#64))

/-- A lane step emits the first `H` positions of each accumulator and keeps the others as tails; an accumulator is
`tail[i] + b[i]` at the first `O` positions and `b[i]` at the others. The shifted path's `r[i]` is the real part of the inverse
transform of the multiplier applied, bin by bin, to the forward transform of the block with zero imaginary parts (R143 to
R145, R147). -/
def Obligations.LaneStepAddsTailsAndKeepsTheRest : Prop :=
  ∀ (c : Latched) (t : Lane) (u : List F64), c.Wf → t.Sized c.o → u.length = c.h →
    let b := laneBlock c u
    let r := shifted c.n b
    let acc := fun (tail b : List F64) (i : Nat) =>
      if i < c.o then F64.add (tail.getD i 0x0000000000000000#64) (b.getD i 0x0000000000000000#64)
      else b.getD i 0x0000000000000000#64
    (∀ k, k < c.h → (laneHilbert c t u).yo[k]? = some (acc t.tailO b k) ∧ (laneHilbert c t u).yh[k]? = some (acc t.tailH r k)) ∧
    (∀ i, i < c.o → (laneHilbert c t u).lane.tailO[i]? = some (acc t.tailO b (c.h + i)) ∧
      (laneHilbert c t u).lane.tailH[i]? = some (acc t.tailH r (c.h + i))) ∧
    (let x := fft c.n (b.map (fun v => ⟨v, 0x0000000000000000#64⟩))
     let z := ifft c.n ((List.range c.n).map (fun k => hmul c.n k (x.getD k Cx.zero)))
     r.length = c.n ∧ ∀ i, i < c.n → r[i]? = some (z.getD i Cx.zero).re) ∧
    (laneHilbert c t u).lane.Sized c.o ∧
    (laneDelay c t u).yo = (laneHilbert c t u).yo ∧ (laneDelay c t u).lane = ⟨(laneHilbert c t u).lane.tailO, t.tailH⟩

/-- From a cold start, the original path of a lane, of either kind, is an exact delay of `δ`: `+0` for the first `δ` samples,
then the input samples, up to the sign of zero (R148). -/
def Obligations.OriginalPathIsADelayOfDelta : Prop :=
  ∀ (c : Latched) (us : List (List F64)), c.Wf → (∀ u ∈ us, u.length = c.h ∧ ∀ x ∈ u, F64.isFinite x = true) →
    ∀ f ∈ [laneDelay c, laneHilbert c],
      let y := laneStream f (coldLane c.o) us
      y.length = us.flatten.length ∧
      ∀ t, t < y.length →
        (t < c.delta → y.getD t unity = 0x0000000000000000#64) ∧
        (c.delta ≤ t → SameUpToZeroSign (y.getD t unity) (us.flatten.getD (t - c.delta) unity))

/-- The matrix of both modes, in the order of evaluation that the spec gives (R162 to R166). -/
def Obligations.MatrixEvaluatesInOrder : Prop :=
  ∀ o0 o1 o2 o3 h0 h1 h2 h3 : F64,
    matrixLT o0 o3 h2 = F64.sub (F64.add o0 (F64.mul 0x3FE6A09E667F3BCD#64 o3)) (F64.mul 0x3FE6A09E667F3BCD#64 h2) ∧
    matrixRT o1 o2 h3 = F64.add (F64.sub o1 (F64.mul 0x3FE6A09E667F3BCD#64 o2)) (F64.mul 0x3FE6A09E667F3BCD#64 h3) ∧
    mixDecode [o0] [o1] [h0] [h1] =
      [⟨o0, o1, F64.sub (F64.mul 0x3FE6A09E667F3BCD#64 h0) (F64.mul 0x3FE6A09E667F3BCD#64 o1),
        F64.sub (F64.mul 0x3FE6A09E667F3BCD#64 o0) (F64.mul 0x3FE6A09E667F3BCD#64 h1)⟩]

/-- HOP in ENCODE on a fitting hop: lanes 0 and 1 take the original path alone and lanes 2 and 3 both paths, each with the
samples of its own `IN`; `OUT[0][k]` and `OUT[1][k]` show LT and RT of them for every `k < H`, the tails move on, HOP_COUNT
counts, every byte outside those entries stays, and nothing else changes but the completion effects and the model's own counter
(R140, R161 to R163, R167 to R169). -/
def Obligations.HopEncodesOneHop : Prop :=
  ∀ (s : State) (c : Latched) (cnt : Nat), s.Inv → s.cfg = some c → c.mode = .encode → cnt ≤ c.h →
    let lf := laneDelay c s.lanes.q0 (hopInput s.mem 0 c.h cnt)
    let rf := laneDelay c s.lanes.q1 (hopInput s.mem 1 c.h cnt)
    let lb := laneHilbert c s.lanes.q2 (hopInput s.mem 2 c.h cnt)
    let rb := laneHilbert c s.lanes.q3 (hopInput s.mem 3 c.h cnt)
    let z : F64 := 0x0000000000000000#64
    ∃ t, exec (.hop 4 cnt) s = .next t ∧
      t = done 0x03#8
        { s with
          mem := t.mem
          nanTick := s.nanTick + 1
          hopCount := s.hopCount + 1#32
          lanes := ⟨lf.lane, rf.lane, lb.lane, rb.lane⟩ } ∧
      (∀ k, k < c.h →
        Shows (matrixLT (lf.yo.getD k z) (rb.yo.getD k z) (lb.yh.getD k z)) (t.mem.readF64 (0x300000 + 8 * k)) ∧
        Shows (matrixRT (rf.yo.getD k z) (lb.yo.getD k z) (rb.yh.getD k z)) (t.mem.readF64 (0x380000 + 8 * k))) ∧
      (∀ a, a < 0x300000 ∨ (0x300000 + 8 * c.h ≤ a ∧ a < 0x380000) ∨ 0x380000 + 8 * c.h ≤ a →
        t.mem.readByte a = s.mem.readByte a)

/-- HOP in DECODE on a fitting hop: lanes 0 and 1 take both paths, each with the samples of its own `IN`; `OUT[0..3][k]` show
the decoded samples for every `k < H`, steered one by one in ascending order, each with the state that the one before left,
where steering is active, and as the matrix gives them where it is not; the steering state moves on only where it is active;
lanes 2 and 3 and every byte outside those entries stay (R140, R161, R164 to R169, R180, R187). -/
def Obligations.HopDecodesOneHop : Prop :=
  ∀ (s : State) (c : Latched) (cnt : Nat), s.Inv → s.cfg = some c → c.mode = .decode → cnt ≤ c.h →
    let lt := laneHilbert c s.lanes.q0 (hopInput s.mem 0 c.h cnt)
    let rt := laneHilbert c s.lanes.q1 (hopInput s.mem 1 c.h cnt)
    let d := decoded lt rt
    ∃ t, exec (.hop 2 cnt) s = .next t ∧
      t = done 0x03#8
        { s with
          mem := t.mem
          nanTick := s.nanTick + 1
          hopCount := s.hopCount + 1#32
          hist := t.hist
          gain := t.gain
          lanes := ⟨lt.lane, rt.lane, s.lanes.q2, s.lanes.q3⟩ } ∧
      (c.steer = none → t.hist = s.hist ∧ t.gain = s.gain ∧ ∀ k ch, k < c.h → ch < 4 →
        Shows ((d k).get ch) (t.mem.readF64 (0x300000 + 0x80000 * ch + 8 * k))) ∧
      (∀ p, c.steer = some p →
        let y := steeredTo p ⟨s.hist, s.gain⟩ d
        t.hist = (y c.h).hist ∧ (∀ ch, ch < 4 → Shows ((y c.h).gain.get ch) (t.gain.get ch)) ∧
        ∀ k ch, k < c.h → ch < 4 →
          Shows ((steer p (y k) (d k)).2.get ch) (t.mem.readF64 (0x300000 + 0x80000 * ch + 8 * k))) ∧
      (∀ a, (∀ ch, ch < 4 → a < 0x300000 + 0x80000 * ch ∨ 0x300000 + 0x80000 * ch + 8 * c.h ≤ a) →
        t.mem.readByte a = s.mem.readByte a)

/-- HOP's errors, each on the first check that fails, with no effect but the completion (R167, R243). -/
def Obligations.HopReportsTheFirstFailingCheck : Prop :=
  ∀ (s : State) (c : Latched) (nch : Nat) (cnt : Int), s.cfg = some c →
    let arity := if c.mode = .encode then 4 else 2
    (nch ≠ arity → exec (.hop nch cnt) s = .next (failed 0x03#8 2#4 0x21#8 s)) ∧
    (nch = arity → cnt < 0 → exec (.hop nch cnt) s = .next (failed 0x03#8 3#4 0x31#8 s)) ∧
    (nch = arity → (c.h : Int) < cnt → exec (.hop nch cnt) s = .next (failed 0x03#8 3#4 0x32#8 s))

/-- The dominant channel is found by the three comparisons of R183's loop, whatever the RMS values are, also where one is a NaN
(93_implementation_defined.md I14), with which every comparison is false (R11). Without NaNs it is the loudest channel, and of
equally loud ones the lowest (R183). -/
def Obligations.DominantChannelIsLoudestAndLowest : Prop :=
  (∀ r : Quad F64,
    let a := if F64.lt (r.get 0) (r.get 1) = true then 1 else 0
    let b := if F64.lt (r.get a) (r.get 2) = true then 2 else a
    dominant r = (if F64.lt (r.get b) (r.get 3) = true then 3 else b)) ∧
  ∀ r : Quad F64, r.Each (fun x => F64.isNaN x = false) →
    dominant r < 4 ∧ (∀ ch, ch < 4 → F64.lt (r.get (dominant r)) (r.get ch) = false) ∧
    (∀ ch, ch < dominant r → F64.lt (r.get ch) (r.get (dominant r)) = true)

/-- One steered sample (R181, R182, R184 to R187): the window of `K` moves by one; the RMS is the square root of the sum of
squares over the window, oldest first, divided by `K`, which is exact in binary64, and on finite samples it is not negative; the
gains move toward their targets with the attack or the release coefficient, and the output uses the gain after its update. -/
def Obligations.SteeringUpdatesEachChannel : Prop :=
  (∀ k : Nat, k ≤ 4096 → F64.isFinite (F64.ofNat k) = true ∧ exactValue (F64.ofNat k) = k) ∧
  ∀ (p : SteerParams) (st : SteerState) (d : Quad F64) (ch : Nat), ch < 4 → 1 ≤ p.k →
    (∀ j, j < 4 → p.k ≤ (st.hist.get j).length) →
    let z : F64 := 0x0000000000000000#64
    let q := steer p st d
    let r := Quad.ofFn (fun j => F64.sqrt (F64.div (squares (q.1.hist.get j) p.k) (F64.ofNat p.k)))
    let dom := dominant r
    let tgt := if F64.feq (r.get dom) z = true then unity else if ch = dom then p.gboost
      else F64.sub unity (F64.mul (F64.sub unity p.gmin) (F64.sub unity (F64.div (r.get ch) (r.get dom))))
    let g := st.gain.get ch
    (q.1.hist.get ch).length = (st.hist.get ch).length ∧
    (∀ j, j + 1 < p.k → (q.1.hist.get ch)[j]? = (st.hist.get ch)[j + 1]?) ∧
    (q.1.hist.get ch)[p.k - 1]? = some (d.get ch) ∧
    (∀ j, p.k ≤ j → (q.1.hist.get ch)[j]? = (st.hist.get ch)[j]?) ∧
    (p.k ≤ 4096 → (∀ j, j < p.k → F64.isFinite ((q.1.hist.get ch).getD j unity) = true) →
      F64.le z (r.get ch) = true) ∧
    q.1.gain.get ch = F64.add g (F64.mul (if F64.lt tgt g = true then p.aatt else p.arel) (F64.sub tgt g)) ∧
    q.2.get ch = F64.mul (q.1.gain.get ch) (d.get ch)

/-- Silence stays silent (R171): with tails and histories of zeros and unity gains, a hop of zeros or of non-finite samples
gives zeros on every output channel and leaves such a state, with steering or without. -/
def Obligations.SilenceStaysSilent : Prop :=
  ∀ (s : State) (c : Latched) (cnt : Nat), s.Inv → s.cfg = some c → cnt ≤ c.h → s.Silent →
    (∀ l k, l < c.mode.arity → k < cnt → F64.isZero (s.mem.readF64 (inAddr l k)) = true ∨
      F64.isFinite (s.mem.readF64 (inAddr l k)) = false) →
    ∃ t, exec (.hop c.mode.arity cnt) s = .next t ∧ t.Silent ∧
      ∀ ch k, ch < c.mode.outputs → k < c.h → F64.isZero (t.mem.readF64 (outAddr ch k)) = true

/-- The stream round trip (R170): an encoder that takes front streams and silent rears, then a decoder without steering of the
same `N` and `O`, both from a cold start, give the front streams back after exactly `2δ`, up to the sign of zero. -/
def Obligations.FrontRoundTripIsADelayOfTwoDelta : Prop :=
  ∀ (ce cd : Latched) (us : List (List F64 × List F64)), ce.Wf → cd.Wf → ce.mode = .encode → cd.mode = .decode →
    cd.n = ce.n → cd.o = ce.o →
    (∀ u ∈ us, (u.1.length = ce.h ∧ ∀ x ∈ u.1, F64.isFinite x = true) ∧
      u.2.length = ce.h ∧ ∀ x ∈ u.2, F64.isFinite x = true) →
    let rears := us.map (fun u => (⟨u.1, u.2, zeros ce.h, zeros ce.h⟩ : Quad (List F64)))
    let dec := decodeStream cd (Quad.all (coldLane cd.o)) (encodeStream ce (Quad.all (coldLane ce.o)) rears)
    let lf := (dec.map (fun y => y.map Quad.q0)).flatten
    let rf := (dec.map (fun y => y.map Quad.q1)).flatten
    lf.length = us.length * ce.h ∧ rf.length = us.length * ce.h ∧
    ∀ t, t < us.length * ce.h →
      (t < 2 * ce.delta → F64.isZero (lf.getD t unity) = true ∧ F64.isZero (rf.getD t unity) = true) ∧
      (2 * ce.delta ≤ t →
        SameUpToZeroSign (lf.getD t unity) ((us.map Prod.fst).flatten.getD (t - 2 * ce.delta) unity) ∧
        SameUpToZeroSign (rf.getD t unity) ((us.map Prod.snd).flatten.getD (t - 2 * ce.delta) unity))

/-! ### Frames -/

/-- Creating a codec is CONFIGURE on the registers that it writes, with STATUS read twice, and fails with CONFIGURE's detail
(R221). The frame checks come before any command, in R222's order, and leave the core as it was; an empty frame runs CLEAR and
no hop and gives empty channels (R222, R227). How often the driver reads STATUS is the model's choice (log entry 11), and so is
a `K` written modulo `2^32` (log entry 19). -/
def Obligations.FrameChecksAndEmptyFrames : Prop :=
  (∀ (mode : Mode) (n o : Word) (p : Option SteerParams) (s : State), s.busy = false →
    ∃ u, exec .configure { codecRegisters mode n o p s with busy := true, pending := 0x00000001#32 } = .next u ∧
      newCodec mode n o p s = .next (if u.err = 1#4 then some (.configuration u.detail) else none,
        { u with returned := readWindow 0x00C u :: readWindow 0x00C u :: s.returned })) ∧
  ∀ (c : Latched) (f : AudioFrame) (s : State),
    let arity := if c.mode = .encode then 4 else 2
    (f.ch.length ≠ arity → processFrame c f s = .next (.error .inputShape, s)) ∧
    (f.ch.length = arity → f.numSamples < 0 → processFrame c f s = .next (.error .inputRange, s)) ∧
    (f.ch.length = arity → 0 ≤ f.numSamples →
      (∃ x ∈ f.ch, (x.length : Int) < f.numSamples ∨ ∃ y ∈ f.ch, x.length ≠ y.length) →
      processFrame c f s = .next (.error .inputShape, s)) ∧
    (f.ch.length = arity → f.numSamples = 0 → (∀ x ∈ f.ch, ∀ y ∈ f.ch, x.length = y.length) → s.cfg = some c →
      s.busy = false →
      ∃ t, processFrame c f s = .next
          (.ok ⟨f.rate, 0, List.replicate (if c.mode = .encode then 2 else 4) []⟩, t) ∧
        ∃ w, t = { done 0x02#8 (cold c.o { s with pending := 0x00000002#32 }) with returned := w :: s.returned })

/-- A frame's result depends on the frame and the configuration alone (R229): two idle cores with the same latched
configuration, whatever their buffers, tails and gains, complete it with the same output, up to the bits of NaNs. -/
def Obligations.FrameResultIgnoresHistory : Prop :=
  ∀ (c : Latched) (f : AudioFrame) (s s' : State), s.Inv → s'.Inv → s.cfg = some c → s'.cfg = some c → s.busy = false →
    s'.busy = false →
    ∃ r r' t t', processFrame c f s = .next (r, t) ∧ processFrame c f s' = .next (r', t') ∧
      ((∃ e, r = .error e ∧ r' = .error e) ∨
       (∃ g g' : AudioFrame, r = .ok g ∧ r' = .ok g' ∧ g.rate = f.rate ∧ g'.rate = f.rate ∧ g.numSamples = f.numSamples ∧
         g'.numSamples = f.numSamples ∧ List.Forall₂ (List.Forall₂ SameUpToNaN) g.ch g'.ch))

/-- What a frame returns (R223, R225, R226). Output sample `i` of each channel is the engine's at stream position `i + δ`, for the
stream of the frame's samples advanced by `δ`, from a cold start, up to the bits of NaNs; HOP_COUNT is the number of hops. So the
fronts of a decoder without steering, and those of an encoder with silent rears, lead by `δ`, and a frame with silent rears
comes back from an encoder and a decoder without steering with its fronts leading by `2δ`. -/
def Obligations.FramesReturnTheAdvancedStream : Prop :=
  (∀ (c : Latched) (f : AudioFrame) (n : Nat) (s : State), ready c s → frameFits c.mode f n →
    let u := fun m => Quad.ofFn (frameInput c f.ch n m)
    let outs := if c.mode = .encode then 2 else 4
    ∃ g t, processFrame c f s = .next (.ok g, t) ∧ ready c t ∧ g.rate = f.rate ∧ g.numSamples = n ∧
      g.ch.length = outs ∧ t.hopCount = BitVec.ofNat 32 (if n = 0 then 0 else (n + c.delta + c.h - 1) / c.h) ∧
      ∀ ch, ch < outs → (g.ch.getD ch []).length = n ∧ ∀ i, i < n →
        SameUpToNaN ((g.ch.getD ch []).getD i unity)
          (((engineOut c u ((i + c.delta) / c.h)).getD ch []).getD ((i + c.delta) % c.h) unity)) ∧
  (∀ (c : Latched) (f : AudioFrame) (n : Nat) (s : State), ready c s → frameFits c.mode f n → c.steer = none →
    (∀ x ∈ f.ch, ∀ v ∈ x, F64.isFinite v = true) →
    (∀ l, 2 ≤ l → ∀ v ∈ f.ch.getD l [], F64.isZero v = true) →
    ∃ g t, processFrame c f s = .next (.ok g, t) ∧ ∀ l, l < 2 → leads c.delta n (f.ch.getD l []) (g.ch.getD l [])) ∧
  (∀ (c d : Latched) (f : AudioFrame) (n : Nat) (s v : State), ready c s → ready d v → c.mode = .encode → d.mode = .decode →
    d.n = c.n → d.o = c.o → d.steer = none → frameFits .encode f n → (∀ x ∈ f.ch, ∀ v ∈ x, F64.isFinite v = true) →
    (∀ l, 2 ≤ l → ∀ v ∈ f.ch.getD l [], F64.isZero v = true) →
    ∃ g t w r, processFrame c f s = .next (.ok g, t) ∧ processFrame d g v = .next (.ok w, r) ∧
      ∀ l, l < 2 → leads (2 * c.delta) n (f.ch.getD l []) (w.ch.getD l []))
end

