-- ==== Sys2Proof/Laws/Memory.lean ====
section
/-! SUPPORT. The laws of the buffers' memory: reading after a store, the canonical form, and the walk that reads a run of
bytes. -/

namespace Sys2Proof.Machine

open Sys2Proof

theorem dropWhile_dropWhile {α : Type} (p q : α → Bool) (l : List α) (h : ∀ x, q x = true → p x = true) :
    (l.dropWhile q).dropWhile p = l.dropWhile p := by
  induction l with
  | nil => rfl
  | cons x t ih =>
    by_cases hq : q x = true
    · rw [List.dropWhile_cons_of_pos hq, ih, List.dropWhile_cons_of_pos (h x hq)]
    · rw [List.dropWhile_cons_of_neg hq]

/-- Dropping the cells below `a` and then those below a larger offset drops the latter. -/
theorem dropBelow_dropBelow (cs : List Host.Cell) {a b : Nat} (h : a ≤ b) :
    (cs.dropWhile (fun c => decide (c.1 < a))).dropWhile (fun c => decide (c.1 < b))
      = cs.dropWhile (fun c => decide (c.1 < b)) :=
  dropWhile_dropWhile _ _ _ (by intro x hx; simp only [decide_eq_true_eq] at *; omega)

theorem findCell_dropBelow (cs : List Host.Cell) {a b : Nat} (h : a ≤ b) :
    findCell (cs.dropWhile (fun c => decide (c.1 < a))) b = findCell cs b := by
  simp only [findCell, dropBelow_dropBelow cs h]

theorem findCell_append_below (p cs : List Host.Cell) (a : Nat) (h : ∀ c ∈ p, c.1 < a) :
    findCell (p ++ cs) a = findCell cs a := by
  simp only [findCell]
  rw [List.dropWhile_append_of_pos (by intro c hc; simpa using h c hc)]

/-- Where every cell of a list lies above `a` at its head, nothing is found at `a`. -/
theorem findCell_head_above (cs : List Host.Cell) (a : Nat) (h : ∀ c, cs.head? = some c → a < c.1) :
    findCell cs a = none := by
  cases cs with
  | nil => rfl
  | cons c t =>
    have hc := h c rfl
    simp only [findCell]
    rw [List.dropWhile_cons_of_neg (by simp; omega)]
    simp only [if_neg (show ¬ c.1 = a by omega)]

theorem head_dropBelow (cs : List Host.Cell) (a : Nat) (c : Host.Cell)
    (h : (cs.dropWhile (fun c => decide (c.1 < a))).head? = some c) : a ≤ c.1 := by
  have := List.head?_dropWhile_not (fun c : Host.Cell => decide (c.1 < a)) cs
  rw [h] at this
  simpa using this

/-- The cells of stored bytes hold them. -/
theorem findCell_cellsFrom (bs : List Byte) (cs : List Host.Cell) (a x : Nat) (h : a ≤ x) (h' : x < a + bs.length) :
    findCell (cellsFrom a bs ++ cs) x = bs[x - a]? := by
  induction bs generalizing a with
  | nil => simp at h'; omega
  | cons b t ih =>
    by_cases hx : x = a
    · subst hx
      simp [findCell, cellsFrom]
    · simp only [List.length_cons] at h'
      have := ih (a + 1) (by omega) (by omega)
      have hd : findCell (cellsFrom a (b :: t) ++ cs) x = findCell (cellsFrom (a + 1) t ++ cs) x :=
        findCell_append_below [(a, b)] (cellsFrom (a + 1) t ++ cs) x (by simp; omega)
      rw [hd, this, show x - a = (x - (a + 1)) + 1 by omega, List.getElem?_cons_succ]

theorem mem_cellsFrom (bs : List Byte) (a : Nat) (c : Host.Cell) (h : c ∈ cellsFrom a bs) :
    a ≤ c.1 ∧ c.1 < a + bs.length := by
  induction bs generalizing a with
  | nil => simp [cellsFrom] at h
  | cons b t ih =>
    simp only [cellsFrom, List.mem_cons] at h
    simp only [List.length_cons]
    obtain rfl | h := h
    · simp
    · have := ih (a + 1) h
      omega

theorem takeBelow_lt (cs : List Host.Cell) (a : Nat) (c : Host.Cell)
    (h : c ∈ cs.takeWhile (fun c => decide (c.1 < a))) : c.1 < a := by
  simpa using List.mem_takeWhile_imp h

/-- What is found after a store: the stored byte inside the stored run, and what was found before outside it. -/
theorem findCell_store (cs : List Host.Cell) (a x : Nat) (bs : List Byte) :
    findCell (cs.takeWhile (fun c => decide (c.1 < a)) ++ cellsFrom a bs
      ++ cs.dropWhile (fun c => decide (c.1 < a + bs.length))) x
      = if a ≤ x ∧ x < a + bs.length then bs[x - a]? else findCell cs x := by
  have hsplit : cs = cs.takeWhile (fun c => decide (c.1 < a)) ++ cs.dropWhile (fun c => decide (c.1 < a)) :=
    (List.takeWhile_append_dropWhile).symm
  split
  · rename_i hx
    rw [List.append_assoc, findCell_append_below _ _ _ (fun c hc => by have := takeBelow_lt cs a c hc; omega)]
    exact findCell_cellsFrom bs _ a x hx.1 hx.2
  · rename_i hx
    by_cases hxa : x < a
    · -- below the store: both lists start with the cells below `a`, and what follows lies above `x`
      have key : ∀ t : List Host.Cell, (∀ c, t.head? = some c → x < c.1) →
          findCell (cs.takeWhile (fun c => decide (c.1 < a)) ++ t) x
            = findCell (cs.takeWhile (fun c => decide (c.1 < a))) x := by
        intro t ht
        generalize cs.takeWhile (fun c => decide (c.1 < a)) = p
        induction p with
        | nil => simpa [findCell] using findCell_head_above t x ht
        | cons c p ih =>
          by_cases hc : c.1 < x
          · have e1 := findCell_append_below [c] (p ++ t) x (by simpa using hc)
            have e2 := findCell_append_below [c] p x (by simpa using hc)
            simpa using (e1.trans ih).trans e2.symm
          · simp [findCell, hc]
      rw [List.append_assoc, key _ ?_]
      · conv_rhs => rw [hsplit]
        rw [key _ (fun c hc => by have := head_dropBelow cs a c hc; omega)]
      · intro c hc
        cases bs with
        | nil =>
          simp only [cellsFrom, List.nil_append, List.length_nil, Nat.add_zero] at hc
          have := head_dropBelow cs a c hc
          omega
        | cons b t =>
          simp only [cellsFrom, List.cons_append, List.head?_cons, Option.some.injEq] at hc
          subst hc
          exact hxa
    · -- above the store
      have hge : a + bs.length ≤ x := by omega
      rw [findCell_append_below _ _ _ (fun c hc => by
        rcases List.mem_append.1 hc with hc | hc
        · have := takeBelow_lt cs a c hc; omega
        · have := mem_cellsFrom bs a c hc; omega)]
      exact findCell_dropBelow cs hge

/-- Reading a byte after a store. -/
theorem Memory.readByte_writeBytes (m : Memory) (a x : Nat) (bs : List Byte) :
    (m.writeBytes a bs).readByte x = if h : a ≤ x ∧ x < a + bs.length then bs[x - a]'(by omega) else m.readByte x := by
  simp only [Memory.readByte, Memory.writeBytes, findCell_store, Memory.unlisted]
  split
  · rename_i h
    rw [List.getElem?_eq_getElem (by omega)]
    simp
  · rfl

/-- A store leaves every byte outside it. -/
theorem Memory.readByte_writeBytes_of_not_mem (m : Memory) (a x : Nat) (bs : List Byte)
    (h : x < a ∨ a + bs.length ≤ x) : (m.writeBytes a bs).readByte x = m.readByte x := by
  rw [Memory.readByte_writeBytes, dif_neg (by omega)]

theorem cellsFrom_rising (bs : List Byte) (a : Nat) : (cellsFrom a bs).Pairwise (fun c d => c.1 < d.1) := by
  induction bs generalizing a with
  | nil => exact List.Pairwise.nil
  | cons b t ih =>
    refine List.Pairwise.cons (fun c hc => ?_) (ih (a + 1))
    have := mem_cellsFrom t (a + 1) c hc
    simp only
    omega

/-- A store keeps the canonical form. -/
theorem Memory.wf_writeBytes (m : Memory) (a : Nat) (bs : List Byte) (h : m.wf) : (m.writeBytes a bs).wf := by
  have hd : ∀ c ∈ m.cells.dropWhile (fun c => decide (c.1 < a + bs.length)), a + bs.length ≤ c.1 := by
    intro c hc
    have hp : (m.cells.dropWhile (fun c => decide (c.1 < a + bs.length))).Pairwise (fun c d => c.1 < d.1) :=
      List.Pairwise.sublist (List.dropWhile_sublist _) h
    generalize he : m.cells.dropWhile (fun c => decide (c.1 < a + bs.length)) = l at hc hp
    cases l with
    | nil => simp at hc
    | cons d t =>
      have h0 := head_dropBelow m.cells (a + bs.length) d (by rw [he]; rfl)
      rcases List.mem_cons.1 hc with rfl | hc
      · exact h0
      · have := (List.pairwise_cons.1 hp).1 c hc
        omega
  simp only [Memory.wf, Memory.writeBytes, List.pairwise_append]
  refine ⟨⟨List.Pairwise.sublist (List.takeWhile_sublist _) h, cellsFrom_rising bs a, ?_⟩,
    List.Pairwise.sublist (List.dropWhile_sublist _) h, ?_⟩
  · intro c hc d hd'
    have h1 := takeBelow_lt m.cells a c hc
    have h2 := mem_cellsFrom bs a d hd'
    omega
  · intro c hc d hd'
    have h2 := hd d hd'
    rcases List.mem_append.1 hc with hc | hc
    · have := takeBelow_lt m.cells a c hc
      omega
    · have := mem_cellsFrom bs a c hc
      omega

/-- A store inside the buffers lists offsets of the buffers alone. -/
theorem Memory.inBuffers_writeBytes (m : Memory) (a : Nat) (bs : List Byte) (h : m.inBuffers) (ha : bufferBase ≤ a)
    (hb : a + bs.length ≤ bufferEnd) : (m.writeBytes a bs).inBuffers := by
  intro c hc
  simp only [Memory.writeBytes, List.mem_append] at hc
  rcases hc with (hc | hc) | hc
  · exact h c ((List.takeWhile_sublist _).subset hc)
  · have := mem_cellsFrom bs a c hc
    omega
  · exact h c ((List.dropWhile_sublist _).subset hc)

@[simp] theorem Memory.writeBytes_owner (m : Memory) (a : Nat) (bs : List Byte) : (m.writeBytes a bs).owner = m.owner := rfl

@[simp] theorem Memory.writeBytes_epoch (m : Memory) (a : Nat) (bs : List Byte) : (m.writeBytes a bs).epoch = m.epoch := rfl

theorem readRun_eq (m : Memory) (n a : Nat) (cs : List Host.Cell) :
    readRun m n a cs = (List.range' a n).map (fun x => (findCell cs x).getD (m.unlisted x)) := by
  induction n generalizing a cs with
  | zero => rfl
  | succ n ih =>
    have hrest : ∀ ds, cs.dropWhile (fun c => decide (c.1 < a)) = ds →
        (List.range' (a + 1) n).map (fun x => (findCell cs x).getD (m.unlisted x))
          = (List.range' (a + 1) n).map (fun x => (findCell ds x).getD (m.unlisted x)) := by
      intro ds hds
      apply List.map_congr_left
      intro x hx
      rw [← hds, findCell_dropBelow cs (by have := List.mem_range'_1.1 hx; omega)]
    simp only [readRun, List.range'_succ, List.map_cons]
    split
    · rename_i hd
      rw [ih, hrest [] hd]
      simp [findCell, hd]
    · rename_i c t hd
      have hf : findCell cs a = if c.1 = a then some c.2 else none := by simp [findCell, hd]
      rw [hf, hrest _ hd]
      split
      · rename_i hc
        rw [ih]
        congr 1
        apply List.map_congr_left
        intro x hx
        have := List.mem_range'_1.1 hx
        have := findCell_append_below [c] t x (by simp; omega)
        simp only [List.singleton_append] at this
        rw [this]
      · rw [ih]
        rfl

/-- The walk reads each byte of the run. -/
theorem Memory.readBytes_eq (m : Memory) (a n : Nat) : m.readBytes a n = (List.range' a n).map m.readByte :=
  readRun_eq m n a m.cells

@[simp] theorem Memory.readBytes_length (m : Memory) (a n : Nat) : (m.readBytes a n).length = n := by
  simp [Memory.readBytes_eq]

@[simp] theorem bytesOfF64s_length (xs : List F64) : (bytesOfF64s xs).length = 8 * xs.length := by
  induction xs with
  | nil => rfl
  | cons x t ih =>
    simp only [bytesOfF64s, List.length_append, ih, List.length_cons]
    simp [bytesOfF64, bytesOfWord]
    omega

@[simp] theorem publishFrom_length (src : NaNSource) (a : Nat) (xs : List F64) : (publishFrom src a xs).length = xs.length := by
  induction xs generalizing a with
  | nil => rfl
  | cons x t ih => simp [publishFrom, ih]

/-- A free NaN is a NaN. -/
theorem isNaN_freeNaN (src : NaNSource) (place : Nat) : F64.isNaN (freeNaN src place) = true := by
  unfold freeNaN
  split
  · assumption
  · decide

theorem publish_of_not_nan (src : NaNSource) (place : Nat) (x : F64) (h : F64.isNaN x = false) : publish src place x = x := by
  simp [publish, h]

theorem isNaN_publish (src : NaNSource) (place : Nat) (x : F64) : F64.isNaN (publish src place x) = F64.isNaN x := by
  unfold publish
  split
  · rename_i h
    rw [isNaN_freeNaN, h]
  · rfl

/-- A word read back from the four bytes of a word. -/
theorem wordOfBytes_bytesOfWord (w : Word) : wordOfBytes (bytesOfWord w) = w := by
  simp only [bytesOfWord, wordOfBytes]
  ext i hi
  simp only [BitVec.getElem_append, BitVec.getElem_extractLsb', BitVec.getLsbD]
  split <;> (try split) <;> (try split) <;> simp only [BitVec.getElem_eq_testBit_toNat] <;> congr 1 <;> omega

end Sys2Proof.Machine
end

