-- ==== Sys2Proof/Laws/Lengths.lean ====
section
/-! SUPPORT. How long the lists of the transforms, the lanes, the matrix and the steering are. -/

namespace Sys2Proof.Machine

open Sys2Proof

theorem evens_length {α : Type} (x : List α) : (evens x).length = (x.length + 1) / 2 := by
  induction x using evens.induct with
  | case1 => simp [evens]
  | case2 a => simp [evens]
  | case3 a b t ih =>
    simp only [evens, List.length_cons, ih]
    omega

theorem odds_length {α : Type} (x : List α) : (odds x).length = x.length / 2 := by
  cases x with
  | nil => simp [odds, evens]
  | cons a t =>
    simp only [odds, List.tail_cons, evens_length, List.length_cons]

theorem bitReverse_length {α : Type} (l : Nat) (x : List α) : (bitReverse l x).length = x.length := by
  induction l generalizing x with
  | zero => rfl
  | succ l ih =>
    simp only [bitReverse, List.length_append, ih, evens_length, odds_length]
    omega

theorem butterflies_length (us xs ws : List Cx) (k : Nat) (hu : us.length = k) (hx : xs.length = k) (hw : ws.length = k) :
    (butterflies us xs ws).1.length = k ∧ (butterflies us xs ws).2.length = k := by
  induction us generalizing xs ws k with
  | nil => subst hu; simp [butterflies]
  | cons u us ih =>
    cases xs with
    | nil => simp at hu hx; omega
    | cons x xs =>
      cases ws with
      | nil => simp at hu hw; omega
      | cons w ws =>
        simp only [List.length_cons] at hu hx hw
        have := ih xs ws (k - 1) (by omega) (by omega) (by omega)
        simp only [butterflies, List.length_cons]
        omega

theorem fftStage_length (half : Nat) (ws : List Cx) (hw : ws.length = half) (blocks : Nat) (a : List Cx)
    (ha : a.length = blocks * (2 * half)) : (fftStage half ws blocks a).length = a.length := by
  induction blocks generalizing a with
  | zero => simpa [fftStage] using ha.symm
  | succ b ih =>
    have hlen : a.length = b * (2 * half) + 2 * half := by rw [ha, Nat.succ_mul]
    have hb := butterflies_length (a.take half) ((a.drop half).take half) ws half
      (by simp; omega) (by simp; omega) hw
    simp only [fftStage, List.length_append, hb.1, hb.2]
    rw [ih (a.drop (2 * half)) (by rw [List.length_drop, hlen, Nat.add_sub_cancel]), List.length_drop]
    omega

theorem stageTwiddles_length (tw : Nat → Cx) (n l : Nat) : (stageTwiddles tw n l).length = 2 ^ l := by simp [stageTwiddles]

theorem fftStages_length (tw : Nat → Cx) (n : Nat) (hn : n = 2 ^ Nat.log2 n) (a : List Cx) (ha : a.length = n) :
    (fftStages tw n a).length = n := by
  have key : ∀ (ls : List Nat), (∀ l ∈ ls, l < Nat.log2 n) → ∀ a : List Cx, a.length = n →
      (ls.foldl (fun a l => fftStage (2 ^ l) (stageTwiddles tw n l) (n / 2 ^ (l + 1)) a) a).length = n := by
    intro ls
    induction ls with
    | nil => intro _ a ha; exact ha
    | cons l t ih =>
      intro hl a ha
      refine ih (fun k hk => hl k (List.mem_cons_of_mem _ hk)) _ ?_
      rw [fftStage_length _ _ (stageTwiddles_length tw n l) _ a, ha]
      rw [ha, show 2 * 2 ^ l = 2 ^ (l + 1) by rw [pow_succ]; ring]
      refine (Nat.div_mul_cancel ?_).symm
      rw [hn]
      exact Nat.pow_dvd_pow 2 (hl l (List.mem_cons_self ..))
  exact key (List.range (Nat.log2 n)) (fun l hl => List.mem_range.1 hl) a ha

/-- A forward transform has as many elements as its input. -/
theorem fft_length (n : Nat) (hn : n = 2 ^ Nat.log2 n) (x : List Cx) (hx : x.length = n) : (fft n x).length = n :=
  fftStages_length _ n hn _ (by rw [bitReverse_length, hx])

/-- An inverse transform has as many elements as its input. -/
theorem ifft_length (n : Nat) (hn : n = 2 ^ Nat.log2 n) (x : List Cx) (hx : x.length = n) : (ifft n x).length = n := by
  simp only [ifft, List.length_map]
  exact fftStages_length _ n hn _ (by rw [bitReverse_length, hx])

theorem shifted_length (n : Nat) (hn : n = 2 ^ Nat.log2 n) (b : List F64) (hb : b.length = n) : (shifted n b).length = n := by
  simp only [shifted, List.length_map]
  refine ifft_length n hn _ ?_
  rw [List.length_zipWith, List.length_range, fft_length n hn _ (by simpa using hb), Nat.min_self]

/-- The block of a lane has `N` positions. -/
theorem laneBlock_length (c : Latched) (hc : c.Wf) (u : List F64) (hu : u.length = c.h) : (laneBlock c u).length = c.n := by
  obtain ⟨-, ho, hh, hd, -⟩ := hc
  simp only [laneBlock, List.length_append, List.length_replicate, hu]
  omega

theorem overlapAdd_length (o : Nat) (tail b : List F64) (ht : tail.length = o) (hb : o ≤ b.length) :
    (overlapAdd o tail b).length = b.length := by
  simp only [overlapAdd, List.length_append, List.length_zipWith, List.length_take, List.length_drop]
  omega

/-- A lane step without a shifted path gives `H` samples and keeps the sizes of the tails. -/
theorem laneDelay_length (c : Latched) (hc : c.Wf) (t : Lane) (ht : t.Sized c.o) (u : List F64) (hu : u.length = c.h) :
    (laneDelay c t u).yo.length = c.h ∧ (laneDelay c t u).lane.Sized c.o := by
  have hb := laneBlock_length c hc u hu
  obtain ⟨-, ho, hh, -, -⟩ := hc
  have hl := overlapAdd_length c.o t.tailO (laneBlock c u) ht.1 (by omega)
  simp only [laneDelay, Lane.Sized, List.length_take, List.length_drop, hl, hb]
  exact ⟨by omega, by omega, ht.2⟩

/-- A lane step with a shifted path gives `H` samples of each stream and keeps the sizes of the tails. -/
theorem laneHilbert_length (c : Latched) (hc : c.Wf) (t : Lane) (ht : t.Sized c.o) (u : List F64) (hu : u.length = c.h) :
    (laneHilbert c t u).yo.length = c.h ∧ (laneHilbert c t u).yh.length = c.h ∧ (laneHilbert c t u).lane.Sized c.o := by
  have hb := laneBlock_length c hc u hu
  have hr := shifted_length c.n hc.1.1 _ hb
  obtain ⟨-, ho, hh, -, -⟩ := hc
  have hl := overlapAdd_length c.o t.tailO (laneBlock c u) ht.1 (by omega)
  have hl' := overlapAdd_length c.o t.tailH (shifted c.n (laneBlock c u)) ht.2 (by omega)
  simp only [laneHilbert, Lane.Sized, List.length_take, List.length_drop, hl, hl', hb, hr]
  omega

theorem f64sOfBytes_length (n : Nat) (bs : List Byte) (h : bs.length = 8 * n) : (f64sOfBytes bs).length = n := by
  induction n generalizing bs with
  | zero =>
    have : bs = [] := by simpa using h
    subst this
    rfl
  | succ n ih =>
    match bs, h with
    | b0 :: b1 :: b2 :: b3 :: b4 :: b5 :: b6 :: b7 :: t, h =>
      simp only [List.length_cons] at h
      simp only [f64sOfBytes, List.length_cons, ih t (by omega)]
    | [], h | [_], h | [_, _], h | [_, _, _], h | [_, _, _, _], h | [_, _, _, _, _], h | [_, _, _, _, _, _], h
    | [_, _, _, _, _, _, _], h => simp at h <;> omega

@[simp] theorem Memory.readF64s_length (m : Memory) (a n : Nat) : (m.readF64s a n).length = n :=
  f64sOfBytes_length n _ (by simp)

/-- A hop takes `H` samples for each lane. -/
theorem hopInput_length (m : Memory) (l h cnt : Nat) (hc : cnt ≤ h) : (hopInput m l h cnt).length = h := by
  simp only [hopInput, List.length_append, List.length_map, Memory.readF64s_length, List.length_replicate]
  omega

theorem cxsOfF64s_length (n : Nat) (xs : List F64) (h : xs.length = 2 * n) : (cxsOfF64s xs).length = n := by
  induction n generalizing xs with
  | zero =>
    have : xs = [] := by simpa using h
    subst this
    rfl
  | succ n ih =>
    match xs, h with
    | re :: im :: t, h =>
      simp only [List.length_cons] at h
      simp only [cxsOfF64s, List.length_cons, ih t (by omega)]
    | [], h | [_], h => simp at h <;> omega

theorem f64sOfCxs_length (xs : List Cx) : (f64sOfCxs xs).length = 2 * xs.length := by
  induction xs with
  | nil => rfl
  | cons x t ih => simp only [f64sOfCxs, List.length_cons, ih]; omega

/-- FFTW's first `n` entries. -/
theorem readFftw_length (m : Memory) (n : Nat) : (readFftw m n).length = n := cxsOfF64s_length n _ (by simp)

theorem mixLT_length (a b d : List F64) (k : Nat) (ha : a.length = k) (hb : b.length = k) (hd : d.length = k) :
    (mixLT a b d).length = k := by
  induction a generalizing b d k with
  | nil => subst ha; rfl
  | cons x a ih =>
    match b, d with
    | [], _ => simp at ha hb; omega
    | _ :: _, [] => simp at ha hd; omega
    | y :: b, z :: d =>
      simp only [List.length_cons] at ha hb hd
      simp only [mixLT, List.length_cons, ih b d (k - 1) (by omega) (by omega) (by omega)]
      omega

theorem mixRT_length (a b d : List F64) (k : Nat) (ha : a.length = k) (hb : b.length = k) (hd : d.length = k) :
    (mixRT a b d).length = k := by
  induction a generalizing b d k with
  | nil => subst ha; rfl
  | cons x a ih =>
    match b, d with
    | [], _ => simp at ha hb; omega
    | _ :: _, [] => simp at ha hd; omega
    | y :: b, z :: d =>
      simp only [List.length_cons] at ha hb hd
      simp only [mixRT, List.length_cons, ih b d (k - 1) (by omega) (by omega) (by omega)]
      omega

theorem mixDecode_length (a b d e : List F64) (k : Nat) (ha : a.length = k) (hb : b.length = k) (hd : d.length = k)
    (he : e.length = k) : (mixDecode a b d e).length = k := by
  induction a generalizing b d e k with
  | nil => subst ha; rfl
  | cons x a ih =>
    match b, d, e with
    | [], _, _ => simp at ha hb; omega
    | _ :: _, [], _ => simp at ha hd; omega
    | _ :: _, _ :: _, [] => simp at ha he; omega
    | y :: b, z :: d, w :: e =>
      simp only [List.length_cons] at ha hb hd he
      simp only [mixDecode, List.length_cons, ih b d e (k - 1) (by omega) (by omega) (by omega) (by omega)]
      omega

/-- A push keeps the size of the history (R181). -/
theorem pushHist_length (k : Nat) (h : List F64) (d : F64) (hk : 1 ≤ k) (hk' : k ≤ h.length) :
    (pushHist k h d).length = h.length := by
  simp only [pushHist, List.length_append, List.length_drop, List.length_take, List.length_cons]
  omega

theorem steerAll_length (p : SteerParams) (st : SteerState) (ds : List (Quad F64)) :
    (steerAll p st ds).2.length = ds.length := by
  induction ds generalizing st with
  | nil => rfl
  | cons d ds ih => simp only [steerAll, List.length_cons, ih]

end Sys2Proof.Machine
end

