-- ==== Sys2Proof/Laws/PerInstr.lean ====
section
/-! SUPPORT. Statements about every command as syntax, one lemma for each constructor of Instr. -/

namespace Sys2Proof.Laws.OpcodeByte

open Sys2Proof

/-- The low byte of a command's word is its opcode (R100, R101). -/
def Statement (i : Instr) : Prop := opField (encode i) = i.opcode

theorem nop : Statement .nop := by unfold Statement; decide

theorem configure : Statement .configure := by unfold Statement; decide

theorem clear : Statement .clear := by unfold Statement; decide

theorem hop (nch : Nat) (cnt : Int) : Statement (.hop nch cnt) := by
  simp only [Statement, opField, encode, Instr.opcode]
  ext i hi
  simp only [BitVec.getElem_extractLsb', Nat.zero_add, BitVec.getLsbD_append]
  rw [if_pos (by omega), if_pos hi, BitVec.getElem_eq_testBit_toNat, BitVec.getLsbD]

theorem fftFwd : Statement .fftFwd := by unfold Statement; decide

theorem fftInv : Statement .fftInv := by unfold Statement; decide

theorem softReset : Statement .softReset := by unfold Statement; decide

end Sys2Proof.Laws.OpcodeByte
end

