-- ==== Sys2Proof/Laws/State.lean ====
section
/-! SUPPORT. One lemma for each field of the state and each named update, so that no later proof unfolds an update. -/

namespace Sys2Proof.Machine

open Sys2Proof

/-! ### Completion (R244) -/

@[simp] theorem complete_mode (op : BitVec 8) (k : BitVec 4) (d : BitVec 8) (s : State) : (complete op k d s).mode = s.mode := rfl
@[simp] theorem complete_blockSize (op : BitVec 8) (k : BitVec 4) (d : BitVec 8) (s : State) : (complete op k d s).blockSize = s.blockSize := rfl
@[simp] theorem complete_overlap (op : BitVec 8) (k : BitVec 4) (d : BitVec 8) (s : State) : (complete op k d s).overlap = s.overlap := rfl
@[simp] theorem complete_logicEn (op : BitVec 8) (k : BitVec 4) (d : BitVec 8) (s : State) : (complete op k d s).logicEn = s.logicEn := rfl
@[simp] theorem complete_rmsWindow (op : BitVec 8) (k : BitVec 4) (d : BitVec 8) (s : State) : (complete op k d s).rmsWindow = s.rmsWindow := rfl
@[simp] theorem complete_irqEnable (op : BitVec 8) (k : BitVec 4) (d : BitVec 8) (s : State) : (complete op k d s).irqEnable = s.irqEnable := rfl
@[simp] theorem complete_irqStatus (op : BitVec 8) (k : BitVec 4) (d : BitVec 8) (s : State) : (complete op k d s).irqStatus = s.irqStatus ||| (if k = 0#4 then 0b01#2 else 0b11#2) := rfl
@[simp] theorem complete_gmin (op : BitVec 8) (k : BitVec 4) (d : BitVec 8) (s : State) : (complete op k d s).gmin = s.gmin := rfl
@[simp] theorem complete_gboost (op : BitVec 8) (k : BitVec 4) (d : BitVec 8) (s : State) : (complete op k d s).gboost = s.gboost := rfl
@[simp] theorem complete_alphaAtt (op : BitVec 8) (k : BitVec 4) (d : BitVec 8) (s : State) : (complete op k d s).alphaAtt = s.alphaAtt := rfl
@[simp] theorem complete_alphaRel (op : BitVec 8) (k : BitVec 4) (d : BitVec 8) (s : State) : (complete op k d s).alphaRel = s.alphaRel := rfl
@[simp] theorem complete_ovr (op : BitVec 8) (k : BitVec 4) (d : BitVec 8) (s : State) : (complete op k d s).ovr = s.ovr := rfl
@[simp] theorem complete_err (op : BitVec 8) (k : BitVec 4) (d : BitVec 8) (s : State) : (complete op k d s).err = k := rfl
@[simp] theorem complete_lastOp (op : BitVec 8) (k : BitVec 4) (d : BitVec 8) (s : State) : (complete op k d s).lastOp = op := rfl
@[simp] theorem complete_detail (op : BitVec 8) (k : BitVec 4) (d : BitVec 8) (s : State) : (complete op k d s).detail = d := rfl
@[simp] theorem complete_hopCount (op : BitVec 8) (k : BitVec 4) (d : BitVec 8) (s : State) : (complete op k d s).hopCount = s.hopCount := rfl
@[simp] theorem complete_busy (op : BitVec 8) (k : BitVec 4) (d : BitVec 8) (s : State) : (complete op k d s).busy = false := rfl
@[simp] theorem complete_pending (op : BitVec 8) (k : BitVec 4) (d : BitVec 8) (s : State) : (complete op k d s).pending = s.pending := rfl
@[simp] theorem complete_cfg (op : BitVec 8) (k : BitVec 4) (d : BitVec 8) (s : State) : (complete op k d s).cfg = s.cfg := rfl
@[simp] theorem complete_lanes (op : BitVec 8) (k : BitVec 4) (d : BitVec 8) (s : State) : (complete op k d s).lanes = s.lanes := rfl
@[simp] theorem complete_hist (op : BitVec 8) (k : BitVec 4) (d : BitVec 8) (s : State) : (complete op k d s).hist = s.hist := rfl
@[simp] theorem complete_gain (op : BitVec 8) (k : BitVec 4) (d : BitVec 8) (s : State) : (complete op k d s).gain = s.gain := rfl
@[simp] theorem complete_mem (op : BitVec 8) (k : BitVec 4) (d : BitVec 8) (s : State) : (complete op k d s).mem = s.mem := rfl
@[simp] theorem complete_nanTick (op : BitVec 8) (k : BitVec 4) (d : BitVec 8) (s : State) : (complete op k d s).nanTick = s.nanTick := rfl
@[simp] theorem complete_inputs (op : BitVec 8) (k : BitVec 4) (d : BitVec 8) (s : State) : (complete op k d s).inputs = s.inputs := rfl
@[simp] theorem complete_returned (op : BitVec 8) (k : BitVec 4) (d : BitVec 8) (s : State) : (complete op k d s).returned = s.returned := rfl

@[simp] theorem succeed_eq (op : BitVec 8) (s : State) : succeed op s = complete op 0#4 0x00#8 s := rfl

@[simp] theorem raiseError_eq (op : BitVec 8) (e : CmdError) (s : State) :
    raiseError op e s = complete op e.code e.detail s := rfl

/-- Every failing check has an error code other than 0, so ERR_PEND is set (R244). -/
theorem CmdError.code_ne_zero (e : CmdError) : e.code ≠ 0#4 := by cases e <;> decide

/-! ### Cold start and the resets (R203, R204, R206, R270) -/

@[simp] theorem coldStart_mode (o : Nat) (s : State) : (coldStart o s).mode = s.mode := rfl
@[simp] theorem coldStart_blockSize (o : Nat) (s : State) : (coldStart o s).blockSize = s.blockSize := rfl
@[simp] theorem coldStart_overlap (o : Nat) (s : State) : (coldStart o s).overlap = s.overlap := rfl
@[simp] theorem coldStart_logicEn (o : Nat) (s : State) : (coldStart o s).logicEn = s.logicEn := rfl
@[simp] theorem coldStart_rmsWindow (o : Nat) (s : State) : (coldStart o s).rmsWindow = s.rmsWindow := rfl
@[simp] theorem coldStart_irqEnable (o : Nat) (s : State) : (coldStart o s).irqEnable = s.irqEnable := rfl
@[simp] theorem coldStart_irqStatus (o : Nat) (s : State) : (coldStart o s).irqStatus = s.irqStatus := rfl
@[simp] theorem coldStart_gmin (o : Nat) (s : State) : (coldStart o s).gmin = s.gmin := rfl
@[simp] theorem coldStart_gboost (o : Nat) (s : State) : (coldStart o s).gboost = s.gboost := rfl
@[simp] theorem coldStart_alphaAtt (o : Nat) (s : State) : (coldStart o s).alphaAtt = s.alphaAtt := rfl
@[simp] theorem coldStart_alphaRel (o : Nat) (s : State) : (coldStart o s).alphaRel = s.alphaRel := rfl
@[simp] theorem coldStart_ovr (o : Nat) (s : State) : (coldStart o s).ovr = s.ovr := rfl
@[simp] theorem coldStart_err (o : Nat) (s : State) : (coldStart o s).err = s.err := rfl
@[simp] theorem coldStart_lastOp (o : Nat) (s : State) : (coldStart o s).lastOp = s.lastOp := rfl
@[simp] theorem coldStart_detail (o : Nat) (s : State) : (coldStart o s).detail = s.detail := rfl
@[simp] theorem coldStart_hopCount (o : Nat) (s : State) : (coldStart o s).hopCount = 0#32 := rfl
@[simp] theorem coldStart_busy (o : Nat) (s : State) : (coldStart o s).busy = s.busy := rfl
@[simp] theorem coldStart_pending (o : Nat) (s : State) : (coldStart o s).pending = s.pending := rfl
@[simp] theorem coldStart_cfg (o : Nat) (s : State) : (coldStart o s).cfg = s.cfg := rfl
@[simp] theorem coldStart_lanes (o : Nat) (s : State) : (coldStart o s).lanes = Quad.all (coldLane o) := rfl
@[simp] theorem coldStart_hist (o : Nat) (s : State) : (coldStart o s).hist = Quad.all (List.replicate Config.kMax F64.posZero) := rfl
@[simp] theorem coldStart_gain (o : Nat) (s : State) : (coldStart o s).gain = Quad.all F64.one := rfl
@[simp] theorem coldStart_mem (o : Nat) (s : State) : (coldStart o s).mem = s.mem := rfl
@[simp] theorem coldStart_nanTick (o : Nat) (s : State) : (coldStart o s).nanTick = s.nanTick := rfl
@[simp] theorem coldStart_inputs (o : Nat) (s : State) : (coldStart o s).inputs = s.inputs := rfl
@[simp] theorem coldStart_returned (o : Nat) (s : State) : (coldStart o s).returned = s.returned := rfl

@[simp] theorem unconfigure_mode (s : State) : (unconfigure s).mode = s.mode := rfl
@[simp] theorem unconfigure_blockSize (s : State) : (unconfigure s).blockSize = s.blockSize := rfl
@[simp] theorem unconfigure_overlap (s : State) : (unconfigure s).overlap = s.overlap := rfl
@[simp] theorem unconfigure_logicEn (s : State) : (unconfigure s).logicEn = s.logicEn := rfl
@[simp] theorem unconfigure_rmsWindow (s : State) : (unconfigure s).rmsWindow = s.rmsWindow := rfl
@[simp] theorem unconfigure_irqEnable (s : State) : (unconfigure s).irqEnable = s.irqEnable := rfl
@[simp] theorem unconfigure_irqStatus (s : State) : (unconfigure s).irqStatus = s.irqStatus := rfl
@[simp] theorem unconfigure_gmin (s : State) : (unconfigure s).gmin = s.gmin := rfl
@[simp] theorem unconfigure_gboost (s : State) : (unconfigure s).gboost = s.gboost := rfl
@[simp] theorem unconfigure_alphaAtt (s : State) : (unconfigure s).alphaAtt = s.alphaAtt := rfl
@[simp] theorem unconfigure_alphaRel (s : State) : (unconfigure s).alphaRel = s.alphaRel := rfl
@[simp] theorem unconfigure_ovr (s : State) : (unconfigure s).ovr = s.ovr := rfl
@[simp] theorem unconfigure_err (s : State) : (unconfigure s).err = s.err := rfl
@[simp] theorem unconfigure_lastOp (s : State) : (unconfigure s).lastOp = s.lastOp := rfl
@[simp] theorem unconfigure_detail (s : State) : (unconfigure s).detail = s.detail := rfl
@[simp] theorem unconfigure_hopCount (s : State) : (unconfigure s).hopCount = 0#32 := rfl
@[simp] theorem unconfigure_busy (s : State) : (unconfigure s).busy = s.busy := rfl
@[simp] theorem unconfigure_pending (s : State) : (unconfigure s).pending = s.pending := rfl
@[simp] theorem unconfigure_cfg (s : State) : (unconfigure s).cfg = none := rfl
@[simp] theorem unconfigure_lanes (s : State) : (unconfigure s).lanes = Quad.all ⟨[], []⟩ := rfl
@[simp] theorem unconfigure_hist (s : State) : (unconfigure s).hist = Quad.all [] := rfl
@[simp] theorem unconfigure_gain (s : State) : (unconfigure s).gain = Quad.all F64.one := rfl
@[simp] theorem unconfigure_mem (s : State) : (unconfigure s).mem = s.mem := rfl
@[simp] theorem unconfigure_nanTick (s : State) : (unconfigure s).nanTick = s.nanTick := rfl
@[simp] theorem unconfigure_inputs (s : State) : (unconfigure s).inputs = s.inputs := rfl
@[simp] theorem unconfigure_returned (s : State) : (unconfigure s).returned = s.returned := rfl

@[simp] theorem softResetState_mode (s : State) : (softResetState s).mode = State.reset.mode := rfl
@[simp] theorem softResetState_blockSize (s : State) : (softResetState s).blockSize = State.reset.blockSize := rfl
@[simp] theorem softResetState_overlap (s : State) : (softResetState s).overlap = State.reset.overlap := rfl
@[simp] theorem softResetState_logicEn (s : State) : (softResetState s).logicEn = State.reset.logicEn := rfl
@[simp] theorem softResetState_rmsWindow (s : State) : (softResetState s).rmsWindow = State.reset.rmsWindow := rfl
@[simp] theorem softResetState_irqEnable (s : State) : (softResetState s).irqEnable = State.reset.irqEnable := rfl
@[simp] theorem softResetState_irqStatus (s : State) : (softResetState s).irqStatus = State.reset.irqStatus := rfl
@[simp] theorem softResetState_gmin (s : State) : (softResetState s).gmin = State.reset.gmin := rfl
@[simp] theorem softResetState_gboost (s : State) : (softResetState s).gboost = State.reset.gboost := rfl
@[simp] theorem softResetState_alphaAtt (s : State) : (softResetState s).alphaAtt = State.reset.alphaAtt := rfl
@[simp] theorem softResetState_alphaRel (s : State) : (softResetState s).alphaRel = State.reset.alphaRel := rfl
@[simp] theorem softResetState_ovr (s : State) : (softResetState s).ovr = State.reset.ovr := rfl
@[simp] theorem softResetState_err (s : State) : (softResetState s).err = State.reset.err := rfl
@[simp] theorem softResetState_lastOp (s : State) : (softResetState s).lastOp = State.reset.lastOp := rfl
@[simp] theorem softResetState_detail (s : State) : (softResetState s).detail = State.reset.detail := rfl
@[simp] theorem softResetState_hopCount (s : State) : (softResetState s).hopCount = State.reset.hopCount := rfl
@[simp] theorem softResetState_busy (s : State) : (softResetState s).busy = State.reset.busy := rfl
@[simp] theorem softResetState_pending (s : State) : (softResetState s).pending = State.reset.pending := rfl
@[simp] theorem softResetState_cfg (s : State) : (softResetState s).cfg = State.reset.cfg := rfl
@[simp] theorem softResetState_lanes (s : State) : (softResetState s).lanes = State.reset.lanes := rfl
@[simp] theorem softResetState_hist (s : State) : (softResetState s).hist = State.reset.hist := rfl
@[simp] theorem softResetState_gain (s : State) : (softResetState s).gain = State.reset.gain := rfl
@[simp] theorem softResetState_mem (s : State) : (softResetState s).mem = s.mem := rfl
@[simp] theorem softResetState_nanTick (s : State) : (softResetState s).nanTick = s.nanTick := rfl
@[simp] theorem softResetState_inputs (s : State) : (softResetState s).inputs = s.inputs := rfl
@[simp] theorem softResetState_returned (s : State) : (softResetState s).returned = s.returned := rfl

@[simp] theorem powerOnState_mode (s : State) : (powerOnState s).mode = State.reset.mode := rfl
@[simp] theorem powerOnState_blockSize (s : State) : (powerOnState s).blockSize = State.reset.blockSize := rfl
@[simp] theorem powerOnState_overlap (s : State) : (powerOnState s).overlap = State.reset.overlap := rfl
@[simp] theorem powerOnState_logicEn (s : State) : (powerOnState s).logicEn = State.reset.logicEn := rfl
@[simp] theorem powerOnState_rmsWindow (s : State) : (powerOnState s).rmsWindow = State.reset.rmsWindow := rfl
@[simp] theorem powerOnState_irqEnable (s : State) : (powerOnState s).irqEnable = State.reset.irqEnable := rfl
@[simp] theorem powerOnState_irqStatus (s : State) : (powerOnState s).irqStatus = State.reset.irqStatus := rfl
@[simp] theorem powerOnState_gmin (s : State) : (powerOnState s).gmin = State.reset.gmin := rfl
@[simp] theorem powerOnState_gboost (s : State) : (powerOnState s).gboost = State.reset.gboost := rfl
@[simp] theorem powerOnState_alphaAtt (s : State) : (powerOnState s).alphaAtt = State.reset.alphaAtt := rfl
@[simp] theorem powerOnState_alphaRel (s : State) : (powerOnState s).alphaRel = State.reset.alphaRel := rfl
@[simp] theorem powerOnState_ovr (s : State) : (powerOnState s).ovr = State.reset.ovr := rfl
@[simp] theorem powerOnState_err (s : State) : (powerOnState s).err = State.reset.err := rfl
@[simp] theorem powerOnState_lastOp (s : State) : (powerOnState s).lastOp = State.reset.lastOp := rfl
@[simp] theorem powerOnState_detail (s : State) : (powerOnState s).detail = State.reset.detail := rfl
@[simp] theorem powerOnState_hopCount (s : State) : (powerOnState s).hopCount = State.reset.hopCount := rfl
@[simp] theorem powerOnState_busy (s : State) : (powerOnState s).busy = State.reset.busy := rfl
@[simp] theorem powerOnState_pending (s : State) : (powerOnState s).pending = State.reset.pending := rfl
@[simp] theorem powerOnState_cfg (s : State) : (powerOnState s).cfg = State.reset.cfg := rfl
@[simp] theorem powerOnState_lanes (s : State) : (powerOnState s).lanes = State.reset.lanes := rfl
@[simp] theorem powerOnState_hist (s : State) : (powerOnState s).hist = State.reset.hist := rfl
@[simp] theorem powerOnState_gain (s : State) : (powerOnState s).gain = State.reset.gain := rfl
@[simp] theorem powerOnState_mem (s : State) : (powerOnState s).mem = ⟨[], s.mem.epoch + 1, s.mem.owner⟩ := rfl
@[simp] theorem powerOnState_nanTick (s : State) : (powerOnState s).nanTick = s.nanTick := rfl
@[simp] theorem powerOnState_inputs (s : State) : (powerOnState s).inputs = s.inputs := rfl
@[simp] theorem powerOnState_returned (s : State) : (powerOnState s).returned = s.returned := rfl

/-! ### The window of FFT_FWD and FFT_INV (R128, R129) -/

@[simp] theorem writeFftw_mode (xs : List Cx) (s : State) : (writeFftw xs s).mode = s.mode := rfl
@[simp] theorem writeFftw_blockSize (xs : List Cx) (s : State) : (writeFftw xs s).blockSize = s.blockSize := rfl
@[simp] theorem writeFftw_overlap (xs : List Cx) (s : State) : (writeFftw xs s).overlap = s.overlap := rfl
@[simp] theorem writeFftw_logicEn (xs : List Cx) (s : State) : (writeFftw xs s).logicEn = s.logicEn := rfl
@[simp] theorem writeFftw_rmsWindow (xs : List Cx) (s : State) : (writeFftw xs s).rmsWindow = s.rmsWindow := rfl
@[simp] theorem writeFftw_irqEnable (xs : List Cx) (s : State) : (writeFftw xs s).irqEnable = s.irqEnable := rfl
@[simp] theorem writeFftw_irqStatus (xs : List Cx) (s : State) : (writeFftw xs s).irqStatus = s.irqStatus := rfl
@[simp] theorem writeFftw_gmin (xs : List Cx) (s : State) : (writeFftw xs s).gmin = s.gmin := rfl
@[simp] theorem writeFftw_gboost (xs : List Cx) (s : State) : (writeFftw xs s).gboost = s.gboost := rfl
@[simp] theorem writeFftw_alphaAtt (xs : List Cx) (s : State) : (writeFftw xs s).alphaAtt = s.alphaAtt := rfl
@[simp] theorem writeFftw_alphaRel (xs : List Cx) (s : State) : (writeFftw xs s).alphaRel = s.alphaRel := rfl
@[simp] theorem writeFftw_ovr (xs : List Cx) (s : State) : (writeFftw xs s).ovr = s.ovr := rfl
@[simp] theorem writeFftw_err (xs : List Cx) (s : State) : (writeFftw xs s).err = s.err := rfl
@[simp] theorem writeFftw_lastOp (xs : List Cx) (s : State) : (writeFftw xs s).lastOp = s.lastOp := rfl
@[simp] theorem writeFftw_detail (xs : List Cx) (s : State) : (writeFftw xs s).detail = s.detail := rfl
@[simp] theorem writeFftw_hopCount (xs : List Cx) (s : State) : (writeFftw xs s).hopCount = s.hopCount := rfl
@[simp] theorem writeFftw_busy (xs : List Cx) (s : State) : (writeFftw xs s).busy = s.busy := rfl
@[simp] theorem writeFftw_pending (xs : List Cx) (s : State) : (writeFftw xs s).pending = s.pending := rfl
@[simp] theorem writeFftw_cfg (xs : List Cx) (s : State) : (writeFftw xs s).cfg = s.cfg := rfl
@[simp] theorem writeFftw_lanes (xs : List Cx) (s : State) : (writeFftw xs s).lanes = s.lanes := rfl
@[simp] theorem writeFftw_hist (xs : List Cx) (s : State) : (writeFftw xs s).hist = s.hist := rfl
@[simp] theorem writeFftw_gain (xs : List Cx) (s : State) : (writeFftw xs s).gain = s.gain := rfl
@[simp] theorem writeFftw_mem (xs : List Cx) (s : State) : (writeFftw xs s).mem = s.mem.writeF64s (fftReAddr 0) (publishFrom s.nanSource (fftReAddr 0) (f64sOfCxs xs)) := rfl
@[simp] theorem writeFftw_nanTick (xs : List Cx) (s : State) : (writeFftw xs s).nanTick = s.nanTick + 1 := rfl
@[simp] theorem writeFftw_inputs (xs : List Cx) (s : State) : (writeFftw xs s).inputs = s.inputs := rfl
@[simp] theorem writeFftw_returned (xs : List Cx) (s : State) : (writeFftw xs s).returned = s.returned := rfl

/-! ### A hop (R167): what neither mode changes -/

@[simp] theorem hopEffect_mode (c : Latched) (n : Nat) (s : State) : (hopEffect c n s).mode = s.mode := by
  cases h : c.mode <;> simp only [hopEffect, h] <;> rfl
@[simp] theorem hopEffect_blockSize (c : Latched) (n : Nat) (s : State) : (hopEffect c n s).blockSize = s.blockSize := by
  cases h : c.mode <;> simp only [hopEffect, h] <;> rfl
@[simp] theorem hopEffect_overlap (c : Latched) (n : Nat) (s : State) : (hopEffect c n s).overlap = s.overlap := by
  cases h : c.mode <;> simp only [hopEffect, h] <;> rfl
@[simp] theorem hopEffect_logicEn (c : Latched) (n : Nat) (s : State) : (hopEffect c n s).logicEn = s.logicEn := by
  cases h : c.mode <;> simp only [hopEffect, h] <;> rfl
@[simp] theorem hopEffect_rmsWindow (c : Latched) (n : Nat) (s : State) : (hopEffect c n s).rmsWindow = s.rmsWindow := by
  cases h : c.mode <;> simp only [hopEffect, h] <;> rfl
@[simp] theorem hopEffect_irqEnable (c : Latched) (n : Nat) (s : State) : (hopEffect c n s).irqEnable = s.irqEnable := by
  cases h : c.mode <;> simp only [hopEffect, h] <;> rfl
@[simp] theorem hopEffect_irqStatus (c : Latched) (n : Nat) (s : State) : (hopEffect c n s).irqStatus = s.irqStatus := by
  cases h : c.mode <;> simp only [hopEffect, h] <;> rfl
@[simp] theorem hopEffect_gmin (c : Latched) (n : Nat) (s : State) : (hopEffect c n s).gmin = s.gmin := by
  cases h : c.mode <;> simp only [hopEffect, h] <;> rfl
@[simp] theorem hopEffect_gboost (c : Latched) (n : Nat) (s : State) : (hopEffect c n s).gboost = s.gboost := by
  cases h : c.mode <;> simp only [hopEffect, h] <;> rfl
@[simp] theorem hopEffect_alphaAtt (c : Latched) (n : Nat) (s : State) : (hopEffect c n s).alphaAtt = s.alphaAtt := by
  cases h : c.mode <;> simp only [hopEffect, h] <;> rfl
@[simp] theorem hopEffect_alphaRel (c : Latched) (n : Nat) (s : State) : (hopEffect c n s).alphaRel = s.alphaRel := by
  cases h : c.mode <;> simp only [hopEffect, h] <;> rfl
@[simp] theorem hopEffect_ovr (c : Latched) (n : Nat) (s : State) : (hopEffect c n s).ovr = s.ovr := by
  cases h : c.mode <;> simp only [hopEffect, h] <;> rfl
@[simp] theorem hopEffect_err (c : Latched) (n : Nat) (s : State) : (hopEffect c n s).err = s.err := by
  cases h : c.mode <;> simp only [hopEffect, h] <;> rfl
@[simp] theorem hopEffect_lastOp (c : Latched) (n : Nat) (s : State) : (hopEffect c n s).lastOp = s.lastOp := by
  cases h : c.mode <;> simp only [hopEffect, h] <;> rfl
@[simp] theorem hopEffect_detail (c : Latched) (n : Nat) (s : State) : (hopEffect c n s).detail = s.detail := by
  cases h : c.mode <;> simp only [hopEffect, h] <;> rfl
@[simp] theorem hopEffect_busy (c : Latched) (n : Nat) (s : State) : (hopEffect c n s).busy = s.busy := by
  cases h : c.mode <;> simp only [hopEffect, h] <;> rfl
@[simp] theorem hopEffect_pending (c : Latched) (n : Nat) (s : State) : (hopEffect c n s).pending = s.pending := by
  cases h : c.mode <;> simp only [hopEffect, h] <;> rfl
@[simp] theorem hopEffect_cfg (c : Latched) (n : Nat) (s : State) : (hopEffect c n s).cfg = s.cfg := by
  cases h : c.mode <;> simp only [hopEffect, h] <;> rfl
@[simp] theorem hopEffect_inputs (c : Latched) (n : Nat) (s : State) : (hopEffect c n s).inputs = s.inputs := by
  cases h : c.mode <;> simp only [hopEffect, h] <;> rfl
@[simp] theorem hopEffect_returned (c : Latched) (n : Nat) (s : State) : (hopEffect c n s).returned = s.returned := by
  cases h : c.mode <;> simp only [hopEffect, h] <;> rfl
@[simp] theorem hopEffect_hopCount (c : Latched) (n : Nat) (s : State) : (hopEffect c n s).hopCount = s.hopCount + 1#32 := by
  cases h : c.mode <;> simp only [hopEffect, h] <;> rfl
@[simp] theorem hopEffect_nanTick (c : Latched) (n : Nat) (s : State) : (hopEffect c n s).nanTick = s.nanTick + 1 := by
  cases h : c.mode <;> simp only [hopEffect, h] <;> rfl

/-! ### Placing a command -/

@[simp] theorem placeCommand_mode (s : State) (nbits w : Nat) : (placeCommand s nbits w).mode = s.mode := rfl
@[simp] theorem placeCommand_blockSize (s : State) (nbits w : Nat) : (placeCommand s nbits w).blockSize = s.blockSize := rfl
@[simp] theorem placeCommand_overlap (s : State) (nbits w : Nat) : (placeCommand s nbits w).overlap = s.overlap := rfl
@[simp] theorem placeCommand_logicEn (s : State) (nbits w : Nat) : (placeCommand s nbits w).logicEn = s.logicEn := rfl
@[simp] theorem placeCommand_rmsWindow (s : State) (nbits w : Nat) : (placeCommand s nbits w).rmsWindow = s.rmsWindow := rfl
@[simp] theorem placeCommand_irqEnable (s : State) (nbits w : Nat) : (placeCommand s nbits w).irqEnable = s.irqEnable := rfl
@[simp] theorem placeCommand_irqStatus (s : State) (nbits w : Nat) : (placeCommand s nbits w).irqStatus = s.irqStatus := rfl
@[simp] theorem placeCommand_gmin (s : State) (nbits w : Nat) : (placeCommand s nbits w).gmin = s.gmin := rfl
@[simp] theorem placeCommand_gboost (s : State) (nbits w : Nat) : (placeCommand s nbits w).gboost = s.gboost := rfl
@[simp] theorem placeCommand_alphaAtt (s : State) (nbits w : Nat) : (placeCommand s nbits w).alphaAtt = s.alphaAtt := rfl
@[simp] theorem placeCommand_alphaRel (s : State) (nbits w : Nat) : (placeCommand s nbits w).alphaRel = s.alphaRel := rfl
@[simp] theorem placeCommand_ovr (s : State) (nbits w : Nat) : (placeCommand s nbits w).ovr = s.ovr := rfl
@[simp] theorem placeCommand_err (s : State) (nbits w : Nat) : (placeCommand s nbits w).err = s.err := rfl
@[simp] theorem placeCommand_lastOp (s : State) (nbits w : Nat) : (placeCommand s nbits w).lastOp = s.lastOp := rfl
@[simp] theorem placeCommand_detail (s : State) (nbits w : Nat) : (placeCommand s nbits w).detail = s.detail := rfl
@[simp] theorem placeCommand_hopCount (s : State) (nbits w : Nat) : (placeCommand s nbits w).hopCount = s.hopCount := rfl
@[simp] theorem placeCommand_busy (s : State) (nbits w : Nat) : (placeCommand s nbits w).busy = true := rfl
@[simp] theorem placeCommand_pending (s : State) (nbits w : Nat) : (placeCommand s nbits w).pending = BitVec.ofNat 32 (w % 2 ^ nbits) := rfl
@[simp] theorem placeCommand_cfg (s : State) (nbits w : Nat) : (placeCommand s nbits w).cfg = s.cfg := rfl
@[simp] theorem placeCommand_lanes (s : State) (nbits w : Nat) : (placeCommand s nbits w).lanes = s.lanes := rfl
@[simp] theorem placeCommand_hist (s : State) (nbits w : Nat) : (placeCommand s nbits w).hist = s.hist := rfl
@[simp] theorem placeCommand_gain (s : State) (nbits w : Nat) : (placeCommand s nbits w).gain = s.gain := rfl
@[simp] theorem placeCommand_mem (s : State) (nbits w : Nat) : (placeCommand s nbits w).mem = s.mem := rfl
@[simp] theorem placeCommand_nanTick (s : State) (nbits w : Nat) : (placeCommand s nbits w).nanTick = s.nanTick := rfl
@[simp] theorem placeCommand_inputs (s : State) (nbits w : Nat) : (placeCommand s nbits w).inputs = .core :: s.inputs := rfl
@[simp] theorem placeCommand_returned (s : State) (nbits w : Nat) : (placeCommand s nbits w).returned = s.returned := rfl

end Sys2Proof.Machine
end

