-- ==== Sys2Proof/Laws/Step.lean ====
section
/-! SUPPORT. What a step can do, said once: the cases of a transition, of the host's step, of CONFIGURE's and HOP's checks and
of each command. -/

namespace Sys2Proof.Machine

open Sys2Proof

/-! ### Transitions -/

/-- A step with no input left, and one for each kind of input. -/
theorem step_nil (s : State) (h : s.inputs = []) : step s = coreStep s := by simp only [step, transition, h]

theorem step_core (s : State) (rest : List Input) (h : s.inputs = .core :: rest) :
    step s = coreStep { s with inputs := rest } := by simp only [step, transition, h]

theorem step_host (s : State) (a : Access) (rest : List Input) (h : s.inputs = .host a :: rest) :
    step s = hostStep a { s with inputs := rest } := by simp only [step, transition, h]

theorem step_powerOn (s : State) (rest : List Input) (h : s.inputs = .powerOn :: rest) :
    step s = .next (powerOnState { s with inputs := rest }) := by simp only [step, transition, h]

/-- Every step is a core step, a host step or a power-on of the state without its first input. -/
theorem step_cases (s : State) : ∃ u : State, (∃ rest, u = { s with inputs := rest }) ∧
    (step s = coreStep u ∨ (∃ a, step s = hostStep a u) ∨ step s = .next (powerOnState u)) := by
  cases h : s.inputs with
  | nil => exact ⟨s, ⟨[], by rw [← h]⟩, .inl (step_nil s h)⟩
  | cons i rest =>
    refine ⟨{ s with inputs := rest }, ⟨rest, rfl⟩, ?_⟩
    cases i with
    | host a => exact .inr (.inl ⟨a, step_host s a rest h⟩)
    | core => exact .inl (step_core s rest h)
    | powerOn => exact .inr (.inr (step_powerOn s rest h))

/-- A core step: nothing while idle, the decoded command, or the completion of an illegal one. -/
theorem coreStep_cases (s : State) :
    (s.busy = false ∧ coreStep s = .next s) ∨
    (s.busy = true ∧ ∃ i, decode s.pending = .ok i ∧ coreStep s = exec i s) ∨
    (s.busy = true ∧ ∃ e, decode s.pending = .error e ∧
      coreStep s = .next (raiseError (opField s.pending) (illegalError e) s)) := by
  cases hb : s.busy with
  | false => exact .inl ⟨rfl, by simp [coreStep, hb]⟩
  | true =>
    cases hd : decode s.pending with
    | ok i => exact .inr (.inl ⟨rfl, i, rfl, by simp [coreStep, hb, performPending, hd]⟩)
    | error e => exact .inr (.inr ⟨rfl, e, rfl, by simp [coreStep, hb, performPending, hd, execIllegal]⟩)

/-- A turn of the core in a host program is a step of the machine with no input left. -/
theorem coreTurn_is_step (r : HostRun) (h : r.core.inputs = []) :
    Turn.core.take r = HostRun.resume (step r.core) r.ops := by rw [step_nil _ h]; rfl

/-- What one instance of a platform does alone: a fault or a refusal of its own, or a change of that instance only. -/
theorem platformAt_cases (act : State → Host.Outcome State Fault Refusal) (n : Nat) (cs ds : List CoreAt)
    (h : platformAt act n cs = .next ds) :
    ds.map CoreAt.base = cs.map CoreAt.base ∧ (∀ j : Nat, j ≠ n → ds[j]? = cs[j]?) ∧
    ∀ c, cs[n]? = some c → ∃ s, act c.core = .next s ∧ ds[n]? = some { c with core := s } := by
  induction cs generalizing n ds with
  | nil => simp only [platformAt] at h; cases h; simp
  | cons c cs ih =>
    cases n with
    | zero =>
      simp only [platformAt] at h
      split at h <;> cases h
      rename_i s hs
      refine ⟨rfl, fun j hj => ?_, fun d hd => ?_⟩
      · obtain ⟨k, rfl⟩ := Nat.exists_eq_succ_of_ne_zero hj
        rfl
      · cases hd
        exact ⟨s, hs, rfl⟩
    | succ n =>
      simp only [platformAt] at h
      split at h <;> cases h
      rename_i cs' hcs
      obtain ⟨hb, hj, hc⟩ := ih n cs' hcs
      refine ⟨by simp [hb], fun j hne => ?_, fun d hd => hc d hd⟩
      cases j with
      | zero => rfl
      | succ j => exact hj j (by omega)

/-- A host step: a bus error, a protocol violation or the access. -/
theorem hostStep_cases (a : Access) (s : State) :
    (a.onBus = false ∧ hostStep a s = .fault (.busError a.addr)) ∨
    (a.onBus = true ∧ s.busy = true ∧ a.busyPermitted = false ∧ hostStep a s = .fault (.hostProtocolViolation a.addr)) ∨
    (a.onBus = true ∧ (s.busy = false ∨ a.busyPermitted = true) ∧ hostStep a s = .next (a.perform s)) := by
  unfold hostStep
  cases a.onBus <;> cases s.busy <;> cases a.busyPermitted <;> simp

/-! ### CONFIGURE's checks (R202) -/

theorem eq_two_pow_log2 (n : Nat) (h0 : n ≠ 0) (h : n &&& (n - 1) = 0) : n = 2 ^ Nat.log2 n := by
  by_contra hne
  have hlt : 2 ^ Nat.log2 n < n := lt_of_le_of_ne (Nat.log2_self_le h0) (fun h => hne h.symm)
  have hpos : 0 < 2 ^ Nat.log2 n := by positivity
  have hlog : Nat.log2 (n - 1) = Nat.log2 n := by
    rw [Nat.log2_eq_iff (by omega)]
    have := Nat.lt_log2_self (n := n)
    omega
  have hb : (n - 1).testBit (Nat.log2 n) = true := hlog ▸ Nat.testBit_log2 (n := n - 1) (by omega)
  have := congrArg (fun m => Nat.testBit m (Nat.log2 n)) h
  simp [Nat.testBit_and, Nat.testBit_log2 h0, hb] at this

theorem two_pow_and_sub_one (l : Nat) : 2 ^ l &&& (2 ^ l - 1) = 0 := by
  rw [Nat.and_two_pow_sub_one_eq_mod, Nat.mod_self]

/-- Steering parameters that pass the checks are the registers' values and are well-formed. -/
theorem validateSteer_ok (s : State) (p : SteerParams) (h : validateSteer s = .ok p) :
    p = ⟨s.rmsWindow.toNat, s.gmin, s.gboost, s.alphaAtt, s.alphaRel⟩ ∧ p.Wf := by
  unfold validateSteer at h
  split at h
  · cases h
  split at h
  · cases h
  split at h
  · cases h
  split at h
  · cases h
  split at h
  · cases h
  rename_i h1 h2 h3 h4 h5
  cases h
  simp only [Bool.not_eq_true', Bool.not_eq_false, Bool.and_eq_true] at h2 h3 h4 h5
  exact ⟨rfl, ⟨by show 1 ≤ s.rmsWindow.toNat; omega, by show s.rmsWindow.toNat ≤ Config.kMax; omega⟩, ⟨h2.1.1, h2.1.2, h2.2⟩, h3, h4, h5⟩

/-- A configuration that passes the checks: its numbers are the registers', and its mode and steering are one of three. -/
theorem validate_ok (s : State) (c : Latched) (h : validate s = .ok c) :
    (s.blockSize.toNat = 2 ^ Nat.log2 s.blockSize.toNat ∧ Config.nMin ≤ s.blockSize.toNat ∧
      s.blockSize.toNat ≤ Config.nMax) ∧ (0 < s.overlap.toNat ∧ s.overlap.toNat < s.blockSize.toNat) ∧
    ((s.mode = 1#2 ∧ c = latch .encode s.blockSize.toNat s.overlap.toNat none) ∨
     (s.mode = 0#2 ∧ s.logicEn = 0#1 ∧ c = latch .decode s.blockSize.toNat s.overlap.toNat none) ∨
     (s.mode = 0#2 ∧ s.logicEn = 1#1 ∧ ∃ p, validateSteer s = .ok p ∧
        c = latch .decode s.blockSize.toNat s.overlap.toNat (some p))) := by
  unfold validate at h
  split at h
  · cases h
  split at h
  · cases h
  split at h
  · cases h
  split at h
  · cases h
  split at h
  · cases h
  rename_i hm h2 h3 h4 h5
  have hmode : s.mode = 0#2 ∨ s.mode = 1#2 := by
    have : ∀ m : BitVec 2, ¬(m = 2#2 ∨ m = 3#2) → m = 0#2 ∨ m = 1#2 := by decide
    exact this _ hm
  push Not at h2
  refine ⟨⟨eq_two_pow_log2 _ h2.1 h2.2, by omega, by omega⟩, by simpa using h5, ?_⟩
  split at h
  · rename_i h1
    exact .inl ⟨h1, by cases h; rfl⟩
  rename_i h1
  have hmode0 : s.mode = 0#2 := hmode.resolve_right h1
  split at h
  · rename_i hl
    exact .inr (.inl ⟨hmode0, hl, by cases h; rfl⟩)
  rename_i hl
  have hl1 : s.logicEn = 1#1 := by
    have : ∀ m : BitVec 1, m ≠ 0#1 → m = 1#1 := by decide
    exact this _ hl
  split at h
  · cases h
  · rename_i p hp
    exact .inr (.inr ⟨hmode0, hl1, p, hp, by cases h; rfl⟩)

/-- What CONFIGURE latches is well-formed. -/
theorem validate_wf (s : State) (c : Latched) (h : validate s = .ok c) : c.Wf := by
  obtain ⟨hn, ho, ⟨-, rfl⟩ | ⟨-, -, rfl⟩ | ⟨-, -, p, hp, rfl⟩⟩ := validate_ok s c h
  · exact ⟨hn, ho, rfl, rfl, trivial⟩
  · exact ⟨hn, ho, rfl, rfl, trivial⟩
  · exact ⟨hn, ho, rfl, rfl, rfl, (validateSteer_ok s p hp).2⟩

/-! ### The commands -/

theorem execConfigure_cases (s : State) :
    (∃ e, validate s = .error e ∧ exec .configure s = .next (raiseError 0x01#8 e (unconfigure s))) ∨
    (∃ c, validate s = .ok c ∧ exec .configure s = .next (succeed 0x01#8 (coldStart c.o { s with cfg := some c }))) := by
  cases h : validate s with
  | error e => exact .inl ⟨e, rfl, by simp [exec, execConfigure, h]⟩
  | ok c => exact .inr ⟨c, rfl, by simp [exec, execConfigure, h]⟩

theorem execClear_cases (s : State) :
    (s.cfg = none ∧ exec .clear s = .next (raiseError 0x02#8 .notConfigured s)) ∨
    (∃ c, s.cfg = some c ∧ exec .clear s = .next (succeed 0x02#8 (coldStart c.o s))) := by
  cases h : s.cfg with
  | none => exact .inl ⟨rfl, by simp [exec, execClear, h]⟩
  | some c => exact .inr ⟨c, rfl, by simp [exec, execClear, h]⟩

theorem execFftFwd_cases (s : State) :
    (s.cfg = none ∧ exec .fftFwd s = .next (raiseError 0x04#8 .notConfigured s)) ∨
    (∃ c, s.cfg = some c ∧ exec .fftFwd s = .next (succeed 0x04#8 (writeFftw (fft c.n (readFftw s.mem c.n)) s))) := by
  cases h : s.cfg with
  | none => exact .inl ⟨rfl, by simp [exec, execFftFwd, h]⟩
  | some c => exact .inr ⟨c, rfl, by simp [exec, execFftFwd, h]⟩

theorem execFftInv_cases (s : State) :
    (s.cfg = none ∧ exec .fftInv s = .next (raiseError 0x05#8 .notConfigured s)) ∨
    (∃ c, s.cfg = some c ∧ exec .fftInv s = .next (succeed 0x05#8 (writeFftw (ifft c.n (readFftw s.mem c.n)) s))) := by
  cases h : s.cfg with
  | none => exact .inl ⟨rfl, by simp [exec, execFftInv, h]⟩
  | some c => exact .inr ⟨c, rfl, by simp [exec, execFftInv, h]⟩

/-- HOP's checks pass exactly on a fitting hop of a latched configuration. -/
theorem checkHop_ok (nch : Nat) (cnt : Int) (cfg : Option Latched) (c : Latched) :
    checkHop nch cnt cfg = .ok c ↔ cfg = some c ∧ nch = c.mode.arity ∧ 0 ≤ cnt ∧ cnt ≤ (c.h : Int) := by
  cases cfg with
  | none => simp [checkHop]
  | some d =>
    simp only [checkHop]
    constructor
    · intro h
      split at h
      · cases h
      split at h
      · cases h
      split at h
      · cases h
      cases h
      refine ⟨rfl, by omega, by omega, by omega⟩
    · rintro ⟨hd, h1, h2, h3⟩
      cases hd
      rw [if_neg (by omega), if_neg (by omega), if_neg (by omega)]

theorem execHop_cases (nch : Nat) (cnt : Int) (s : State) :
    (∃ e, checkHop nch cnt s.cfg = .error e ∧ exec (.hop nch cnt) s = .next (raiseError 0x03#8 e s)) ∨
    (∃ c, checkHop nch cnt s.cfg = .ok c ∧ exec (.hop nch cnt) s = .next (succeed 0x03#8 (hopEffect c cnt.toNat s))) := by
  cases h : checkHop nch cnt s.cfg with
  | error e => exact .inl ⟨e, rfl, by simp [exec, execHop, h]⟩
  | ok c => exact .inr ⟨c, rfl, by simp [exec, execHop, h]⟩

/-- The command placed by `withFetchWord` is the one that the next step performs. -/
theorem step_withFetchWord (s : State) (nbits w : Nat) :
    step (s.withFetchWord nbits w) =
      performPending { s with busy := true, pending := BitVec.ofNat 32 (w % 2 ^ nbits) } := by
  rw [step_core (s.withFetchWord nbits w) s.inputs rfl]
  rfl

end Sys2Proof.Machine
end

