-- ==== Sys2Proof/Tests/Slice0.lean ====
section
/-! SUPPORT. Tests of single steps and operations, with expected values from 95_test_vectors.md where no other source is
named; and for each statement with hypotheses a witness that meets them, at the boundary of each clause. -/

namespace Sys2Proof.Tests

open Sys2Proof Sys2Proof.Machine Sys2Proof.Stated

/-! ### Helpers -/

/-- The next state, or the reset state where a step stops. -/
def after (o : Host.Outcome State Fault Refusal) : State :=
  match o with
  | .next t => t
  | .fault _ => State.reset
  | .refused _ => State.reset

/-- The state after the core has performed a command word. -/
def run (w : Nat) (s : State) : State := after (step (s.withFetchWord 32 w))

/-- The state after a host write. -/
def wr (a : Nat) (v : Word) (s : State) : State := after (hostStep (.write 4 a v) s)

/-- MODE, BLOCK_SIZE, OVERLAP as a host may have left them. -/
def regs (m : BitVec 2) (n o : Word) : State := { State.reset with mode := m, blockSize := n, overlap := o }

/-- Steering requested at the reset values of its registers. -/
def steering : State := { State.reset with logicEn := 1#1 }

/-- The configurations of V-ERR, and one with steering. -/
def cfgEnc : Latched := ⟨.encode, 64, 32, 32, 8, none⟩
def cfgDec : Latched := ⟨.decode, 64, 32, 32, 8, none⟩
def cfgSteer : Latched :=
  ⟨.decode, 64, 32, 32, 8, some ⟨4, 0x3FE0000000000000#64, unity, 0x3FE0000000000000#64, 0x3FD0000000000000#64⟩⟩

/-- A core right after a successful CONFIGURE. -/
def configured (c : Latched) : State := cold c.o { State.reset with cfg := some c }

/-- A busy core with a pending word. -/
def busyWith (w : Word) (s : State) : State := { s with busy := true, pending := w }

/-! ### WellFormed: an ill-formed term for each check -/

theorem test_wf_refuses_nch_16 : (Instr.hop 16 1).wf = false := by decide
theorem test_wf_refuses_cnt_524288 : (Instr.hop 4 524288).wf = false := by decide
theorem test_wf_refuses_cnt_below : (Instr.hop 4 (-524289)).wf = false := by decide
theorem test_wf_accepts_the_bounds : (Instr.hop 15 524287).wf = true ∧ (Instr.hop 0 (-524288)).wf = true := by decide

/-! ### Decoding (V-ENC-2, and the word patterns of R104) -/

theorem test_decode_nop : decode 0b00000000000000000000000000000000#32 = .ok .nop := by decide
theorem test_decode_configure : decode 0b00000000000000000000000000000001#32 = .ok .configure := by decide
theorem test_decode_clear : decode 0b00000000000000000000000000000010#32 = .ok .clear := by decide
theorem test_decode_hop : decode 0b00000000000000100000010000000011#32 = .ok (.hop 4 32) := by decide
theorem test_decode_hop_most_negative : decode 0x80000003#32 = .ok (.hop 0 (-524288)) := by decide
theorem test_decode_fft_fwd : decode 0b00000000000000000000000000000100#32 = .ok .fftFwd := by decide
theorem test_decode_fft_inv : decode 0b00000000000000000000000000000101#32 = .ok .fftInv := by decide
theorem test_decode_soft_reset : decode 0b00000000000000000000000000001111#32 = .ok .softReset := by decide
theorem test_decode_reserved_opcodes :
    [0x00000006#32, 0x0000000E#32, 0x00000010#32, 0x000000FF#32, 0x00000106#32].map decode
      = List.replicate 5 (.error .reservedOpcode) := by decide +kernel
theorem test_decode_reserved_bits :
    [0x00000100#32, 0x80000000#32, 0x00000101#32, 0x00010004#32, 0x0000100F#32].map decode
      = List.replicate 5 (.error .reservedBits) := by decide +kernel
theorem test_table_word_hop : decodeTableWord 32 0xFFFFF203 = some (.hop 2 (-1)) := by decide
theorem test_encode_bounds : encode (.hop 15 524287) = 0x7FFFFF03#32 ∧ encode (.hop 0 (-524288)) = 0x80000003#32 := by decide

/-- V-ENC-1. -/
theorem test_assemble_lines :
    assembleLine "hop 2, -1" = some 0xFFFFF203#32 ∧ assembleLine "FLUSH 4" = some 0x00000403#32 ∧
    assembleLine "fft.inv" = some 0x00000005#32 ∧ assembleLine "HOP 4, 524288" = none := by decide +kernel

/-! ### Binary64 (expected values from IEEE 754 by hand) -/

/-- `1 + 2^-53` is a tie and stays 1; `1 + (2^-53 + 2^-105)` rounds up. -/
theorem test_add_ties_to_even : F64.add unity 0x3CA0000000000000#64 = unity ∧
    F64.add unity 0x3CA0000000000001#64 = 0x3FF0000000000001#64 := by decide +kernel
/-- Half of the smallest subnormal is a tie and gives 0; three halves of it give two. -/
theorem test_mul_subnormal : F64.mul 1#64 0x3FE0000000000000#64 = 0#64 ∧
    F64.mul 3#64 0x3FE0000000000000#64 = 2#64 := by decide +kernel
theorem test_div_third : F64.div unity 0x4008000000000000#64 = 0x3FD5555555555555#64 := by decide +kernel
theorem test_sqrt_two : F64.sqrt 0x4000000000000000#64 = 0x3FF6A09E667F3BCD#64 := by decide +kernel
theorem test_add_opposite_infinities : F64.isNaN (F64.add 0x7FF0000000000000#64 0xFFF0000000000000#64) = true := by decide

/-! ### NOP, CONFIGURE, CLEAR, SOFT_RESET -/

theorem test_nop_sets_done : (run 0 State.reset).status = 0x00000000#32 ∧ (run 0 State.reset).irqStatus = 1#2 := by
  decide +kernel
/-- V-CFG-1: the row with overlap 60. -/
theorem test_configure_latches_geometry :
    [0x00C, 0x02C, 0x030, 0x034, 0x038].map (fun a => readWindow a (run 1 (regs 0 64 60)))
      = [0x00010002#32, 64#32, 60#32, 4#32, 15#32] := by decide +kernel
/-- V-CFG-2: one row of each detail code. -/
theorem test_configure_rejects :
    [regs 2 1024 512, regs 0 1000 512, regs 0 32 0, regs 0 0x80000000 512, regs 0 1024 0xFFFFFFFF,
      { steering with rmsWindow := 4097#32 }, { steering with gmin := 0x7FF8000000000000#64 },
      { steering with gboost := 0x7FF0000000000000#64 }, { steering with alphaAtt := 0#64 },
      { steering with alphaRel := 0x3FF8000000000000#64 }].map (fun s => (run 1 s).status)
    = [0x01010100#32, 0x02010100#32, 0x03010100#32, 0x04010100#32, 0x05010100#32, 0x06010100#32, 0x07010100#32,
      0x08010100#32, 0x09010100#32, 0x0A010100#32] := by decide +kernel
/-- V-ERR-2, and R205's effect on HOP_COUNT. -/
theorem test_clear : (run 2 State.reset).status = 0x51020500#32 ∧
    (run 2 { configured cfgEnc with hopCount := 7#32 }).hopCount = 0#32 := by decide +kernel
theorem test_clear_zeroes_tails :
    (run 2 { configured cfgEnc with lanes := Quad.all ⟨[unity], [unity]⟩ }).lanes.q3.tailH = zeros 32 := by decide +kernel
/-- V-IRQ-3. -/
theorem test_soft_reset : (run 0xF { configured cfgEnc with irqStatus := 3, mode := 1 }).status = 0#32 ∧
    (run 0xF { configured cfgEnc with irqStatus := 3, mode := 1 }).irqStatus = 0#2 := by decide +kernel

/-! ### HOP -/

/-- V-ERR-1, 4, 5, 6, 7 and 9. -/
theorem test_hop_errors : (run 0x00020203 State.reset).status = 0x51030500#32 ∧
    (run 0x00020203 (configured cfgEnc)).status = 0x2103020A#32 ∧
    (run 0x00020403 (configured cfgDec)).status = 0x21030202#32 ∧
    (run 0xFFFFF403 (configured cfgEnc)).status = 0x3103030A#32 ∧
    (run 0x00021403 (configured cfgEnc)).status = 0x3203030A#32 ∧
    (run 0xFFFFF203 (configured cfgEnc)).status = 0x2103020A#32 := by decide +kernel
/-- The impulse of P2, decoded: LF is the original path, delayed by `δ = 8`. -/
theorem test_hop_decode_delays_the_front :
    (run 0x00001203 { configured cfgDec with
      mem := (State.reset.mem.writeF64s 0x100000 [unity]).writeF64s 0x180000 [0#64] }).mem.readF64 0x300040 = unity := by
  decide +kernel
theorem test_hop_sanitises : [0x7FF0000000000000#64, 0xFFF8000000000000#64, 0x8000000000000000#64].map san
    = [0#64, 0#64, 0x8000000000000000#64] := by decide
/-- V-MAT-E, the rows "every o and h = 1" and `o2 = 1`. -/
theorem test_matrix_encode : matrixLT unity unity unity = 0x3FEFFFFFFFFFFFFF#64 ∧
    matrixRT unity unity unity = unity ∧ matrixRT 0#64 unity 0#64 = 0xBFE6A09E667F3BCD#64 := by decide +kernel
/-- V-MAT-D, the last row. -/
theorem test_matrix_decode :
    mixDecode [unity] [0xBFF0000000000000#64] [0x3FD0000000000000#64] [0xBFE8000000000000#64]
      = [⟨unity, 0xBFF0000000000000#64, 0x3FEC48C6001F0AC0#64, 0x3FF3CC8A99AF5454#64⟩] := by decide +kernel
/-- V-STR-2, step 2: the tie goes to LF, which is boosted; the outputs use the new gains. -/
theorem test_steer_tie_and_boost :
    let z := 0x0000000000000000#64
    let half := 0x3FE0000000000000#64
    (steerAll ⟨2, half, 0x4000000000000000#64, unity, unity⟩ ⟨Quad.all (zeros 4), Quad.all unity⟩
      [Quad.all z, ⟨half, 0x3FD0000000000000#64, z, 0xBFE0000000000000#64⟩]).1.gain
      = ⟨0x4000000000000000#64, 0x3FE8000000000000#64, half, unity⟩ := by decide +kernel
/-- V-STR-1, step 3: RF rises with the release coefficient. -/
theorem test_steer_release :
    let z := 0x0000000000000000#64
    let half := 0x3FE0000000000000#64
    (steerAll ⟨4, half, unity, half, 0x3FD0000000000000#64⟩ ⟨Quad.all (zeros 8), Quad.all unity⟩
      [⟨unity, z, z, z⟩, ⟨unity, z, z, z⟩, ⟨unity, half, z, z⟩]).1.gain
      = ⟨unity, 0x3FE4279A74590332#64, 0x3FE2000000000000#64, 0x3FE2000000000000#64⟩ := by decide +kernel

/-! ### FFT_FWD and FFT_INV -/

/-- V-FFT-8. -/
theorem test_fft_unconfigured : (run 4 State.reset).status = 0x51040500#32 ∧ (run 5 State.reset).status = 0x51050500#32 := by
  decide +kernel
/-- R122's examples. -/
theorem test_twiddles : twf 64 1 = ⟨0x3FEFD88DA3D12526#64, 0xBFB917A6BC29B42C#64⟩ ∧
    twf 64 8 = ⟨0x3FE6A09E667F3BCD#64, 0xBFE6A09E667F3BCD#64⟩ := by decide +kernel
/-- V-FFT-3 at 33: an impulse at index 1 comes out as a twiddle subtracted from `+0`. -/
theorem test_fft_forward : (fft 64 (Cx.zero :: ⟨unity, 0#64⟩ :: List.replicate 62 Cx.zero))[33]?
    = some ⟨0xBFEFD88DA3D12526#64, 0x3FB917A6BC29B42C#64⟩ := by decide +kernel
/-- V-FFT-7. -/
theorem test_fft_inverse_scales : (ifft 64 (⟨unity, 0#64⟩ :: List.replicate 63 Cx.zero))[5]?
    = some ⟨0x3F90000000000000#64, 0#64⟩ := by decide +kernel
/-- R124, by hand. -/
theorem test_bitrev : (List.range 8).map (bitrev 3) = [0, 4, 2, 6, 1, 5, 3, 7] := by decide

/-! ### Host accesses, interrupts, overrun -/

/-- V-BUS. -/
theorem test_bus_errors : hostStep (.read 2 0x00C) State.reset = .fault (.busError 0x00C) ∧
    hostStep (.read 4 0x00E) State.reset = .fault (.busError 0x00E) := ⟨rfl, rfl⟩
theorem test_busy_read_of_out_faults :
    hostStep (.read 4 0x300000) (busyWith 0x00020403 (configured cfgEnc)) = .fault (.hostProtocolViolation 0x300000) :=
  rfl
/-- V-IRQ-1. -/
theorem test_irq_level : (run 0 (wr 0x024 1 State.reset)).irq = true ∧ (run 0 (wr 0x024 2 State.reset)).irq = false ∧
    (run 2 (wr 0x024 2 State.reset)).irq = true ∧ (wr 0x028 1 (run 0 (wr 0x024 1 State.reset))).irq = false := by
  decide +kernel
/-- V-IRQ-2: the CMD write while BUSY is dropped, and OVR is set and cleared. -/
theorem test_overrun : (wr 0x008 0 (wr 0x008 2 State.reset)).status = 0x00000005#32 ∧
    (wr 0x008 0 (wr 0x008 2 State.reset)).pending = 2#32 ∧
    (wr 0x00C 4 (wr 0x008 0 (wr 0x008 2 State.reset))).ovr = false := by decide
/-- R72: the low byte of a word stands at the lowest offset; R45: the high half alone. -/
theorem test_little_endian : (wr 0x500008 0x04030201 State.reset).mem.readByte 0x500009 = 0x02#8 ∧
    (wr 0x04C 0x12345678 State.reset).gmin = 0x12345678CF334252#64 := by decide +kernel

/-- R254: the instances of a platform have numbers of their own, which select their free values. -/
theorem test_platform_numbers : (platformReset [0, 0x1000000]).map (fun c => c.core.mem.owner) = [0, 1] := by decide

/-! ### Host programs (R110) -/

/-- The words that a host program has read, and the STATUS of the core, after the given turns. -/
def programEnd (ts : List Turn) (p : List Stmt) (s : State) : Option (List Word × Word × List HostOp) :=
  (programOps p).bind (fun ops =>
    match takeTurns ts ⟨s, ops⟩ with
    | .next r => some (r.core.returned, r.core.status, r.ops)
    | .fault _ => none
    | .refused _ => none)

/-- V-IRQ-2's two interleavings, with NOP for HOP: `wait` polls until BUSY is 0, however the core's turn falls. -/
theorem test_wait_polls_until_idle :
    programEnd [.host, .host, .host, .core, .host] [.cmd .nop, .cmd .nop, .wait] State.reset
      = some ([0x00000004#32, 0x00000005#32], 0x00000004#32, []) ∧
    programEnd [.host, .core, .host, .core, .host] [.cmd .nop, .cmd .nop, .wait] State.reset
      = some ([0x00000000#32], 0x00000000#32, []) := by decide +kernel
/-- R109: a command outside its fields is refused, never truncated. -/
theorem test_program_refuses : programOps [.run (.hop 16 1)] = none ∧ programOps [.cmd (flush 2)]
    = some [.access (.write 4 0x008 0x00000203#32)] := by decide +kernel

/-! ### Frames -/

/-- V-FRM-3. -/
theorem test_frame_errors :
    frameCheck .encode ⟨44100, 0, [[], []]⟩ = some .inputShape ∧
    frameCheck .encode ⟨44100, -1, [[], [], [], []]⟩ = some .inputRange ∧
    frameCheck .encode ⟨44100, 1, [[0#64], [0#64], [0#64], []]⟩ = some .inputShape ∧
    frameCheck .encode ⟨44100, -1, [[], [], []]⟩ = some .inputShape := by decide
/-- V-FRM-2: `M = 1` and `cnt = 0` for a frame of 5 samples; the counts of a frame of 100 by R223's formulas. -/
theorem test_frame_counts : frameHops cfgEnc 5 = 1 ∧ frameCnt cfgEnc 5 0 = 0 ∧ frameHops cfgEnc 100 = 4 ∧
    (List.range 4).map (frameCnt cfgEnc 100) = [32, 32, 28, 0] := by decide

/-! ### Witnesses for the statements' hypotheses -/

theorem configured_inv (c : Latched) (h : c.Wf) : (configured c).Inv := by
  refine ⟨⟨List.Pairwise.nil, fun _ h => absurd h List.not_mem_nil⟩, ?_, ?_⟩
  · simp only [configured, cold, streamInv, Quad.all, Quad.Each, Lane.Sized, zeros, List.length_replicate]
    exact ⟨h, by simp, by simp [Config.kMax], fun _ => rfl⟩
  · change ((0#4, 0x00#8) : BitVec 4 × BitVec 8) ∈ statusPairs
    decide

theorem cfgEnc_wf : cfgEnc.Wf := ⟨by decide, by decide, rfl, rfl, trivial⟩
theorem cfgDec_wf : cfgDec.Wf := ⟨by decide, by decide, rfl, rfl, trivial⟩
theorem cfgSteer_wf : cfgSteer.Wf := ⟨by decide, by decide, rfl, rfl, rfl, by decide⟩
/-- The largest block and overlap. -/
theorem cfgLargest_wf : (⟨.decode, 65536, 65535, 1, 16383, none⟩ : Latched).Wf := ⟨by decide, by decide, rfl, rfl, trivial⟩

theorem witness_DecodeOfEncodeIsTheCommand :
    (Instr.hop 15 524287).wf = true ∧ (Instr.hop 0 (-524288)).wf = true ∧ (Instr.hop 16 0).wf = false := by decide
theorem witness_EncodeOfDecodeIsTheWord : decode 0x7FFFFF03#32 = .ok (.hop 15 524287) := by decide
theorem witness_HopFieldsReadFromTheWord : (0x80000003#32).toNat % 256 = 3 ∧ ¬(0x80000003#32).toNat < 2147483648 ∧
    (0x7FFFFF03#32).toNat % 256 = 3 ∧ (0x7FFFFF03#32).toNat < 2147483648 := by decide
theorem witness_StepPerformsDecodedCommand : ∃ (s : State) (i : Instr), s.busy = true ∧ decode s.pending = .ok i ∧ s.inputs = [] :=
  ⟨busyWith 0xF State.reset, .softReset, by decide⟩
theorem witness_StepPerformsDecodedCommand_turn :
    ∃ (s : State) (i : Instr) (rest : List Input), s.busy = true ∧ decode s.pending = .ok i ∧ s.inputs = .core :: rest :=
  ⟨State.reset.withFetchWord 32 1, .configure, [], by decide⟩
theorem witness_IdleCoreWaitsAndInputsComeInOrder :
    (State.reset.busy = false ∧ State.reset.inputs = []) ∧ (∃ s : State, ∃ r, s.busy = false ∧ s.inputs = .core :: r) ∧
    (∃ s : State, ∃ a r, s.inputs = .host a :: r) ∧ (∃ s : State, ∃ r, s.inputs = .powerOn :: r) :=
  ⟨by decide, ⟨{ State.reset with inputs := [.core] }, [], by decide⟩,
    ⟨{ State.reset with inputs := [.host (.read 4 0)] }, _, [], rfl⟩, ⟨{ State.reset with inputs := [.powerOn] }, [], rfl⟩⟩
theorem witness_ReservedOpcodesAreIllegal : ∀ w ∈ [0x06#32, 0x0E#32, 0x10#32, 0xFFFFFFFF#32],
    (busyWith w State.reset).busy = true ∧ (busyWith w State.reset).inputs = [] ∧
    ((0x06 ≤ w.toNat % 256 ∧ w.toNat % 256 ≤ 0x0E) ∨ 0x10 ≤ w.toNat % 256) := by
  simp [busyWith, State.reset]
/-- The core's turn from the list, for ReservedOpcodesAreIllegal, ReservedBitsAreIllegal and EveryAcceptedCommandCompletes. -/
theorem witness_core_turn_named : ∃ s : State, ∃ rest, s.busy = true ∧ s.inputs = .core :: rest ∧
    0x10 ≤ s.pending.toNat % 256 := ⟨State.reset.withFetchWord 32 0xFF, [], by decide⟩
theorem witness_ReservedBitsAreIllegal : ∀ w ∈ [0x100#32, 0x101#32, 0x80000002#32, 0x104#32, 0x105#32, 0x10F#32],
    (busyWith w State.reset).busy = true ∧ (busyWith w State.reset).inputs = [] ∧
    w.toNat % 256 ∈ [0x00, 0x01, 0x02, 0x04, 0x05, 0x0F] ∧ w.toNat / 256 ≠ 0 := by simp [busyWith, State.reset]
theorem witness_EveryAcceptedCommandCompletes :
    (busyWith 0xFFFFFFFF State.reset).busy = true ∧ (busyWith 0xFFFFFFFF State.reset).inputs = [] := by decide
theorem witness_StepStopsOnlyOnHostErrors :
    step { State.reset with inputs := [.host (.read 4 0x1000000)] } = .fault (.busError 0x1000000) ∧
    step { busyWith 0 State.reset with inputs := [.host (.read 4 0xFFFFFC)] } = .fault (.hostProtocolViolation 0xFFFFFC) :=
  ⟨rfl, rfl⟩
theorem witness_PowerOnResetsEveryRegister : ∃ s : State, ∃ r, s.inputs = .powerOn :: r :=
  ⟨{ configured cfgEnc with inputs := [.powerOn] }, [], rfl⟩
theorem witness_StepKeepsInvariant : ∃ s t : State, s.Inv ∧ step s = .next t :=
  ⟨configured cfgSteer, _, configured_inv _ cfgSteer_wf, rfl⟩
theorem witness_OnlyConfigureAndResetsChangeTheLatch :
    (∃ t, step (busyWith 1 State.reset) = .next t ∧ t.cfg ≠ State.reset.cfg) ∧
    (∃ t, step (busyWith 0xF (configured cfgEnc)) = .next t ∧ t.cfg ≠ (configured cfgEnc).cfg) ∧
    (∃ t, step { configured cfgEnc with inputs := [.powerOn] } = .next t ∧ t.cfg ≠ (configured cfgEnc).cfg) :=
  ⟨⟨_, rfl, by decide⟩, ⟨_, rfl, by decide⟩, ⟨_, rfl, by decide⟩⟩
theorem witness_IdentificationRegistersAreFixed : State.reset.busy = false := rfl
theorem witness_ActiveRegistersShowTheLatch : State.reset.cfg = none ∧ (configured cfgDec).cfg = some cfgDec ∧
    cfgDec.steer = none ∧ (configured cfgSteer).cfg = some cfgSteer ∧ cfgSteer.steer.isSome = true ∧
    State.reset.busy = false := by decide
theorem witness_ConfigurationRegistersHoldWhatIsWritten : (configured cfgSteer).busy = false := rfl
theorem witness_ReadOnlyAndReservedWritesAreIgnored : State.reset.busy = false ∧
    (∀ a ∈ [0x000, 0x09C], a % 4 = 0 ∧ a ∈ readOnlyOffsets) ∧
    (∀ a ∈ [0x300000, 0x4FFFFC], a % 4 = 0 ∧ 0x300000 ≤ a ∧ a < 0x500000) ∧
    (∀ a ∈ [0x044, 0x070, 0xFFC, 0x001000, 0x0FFFFC, 0x600000, 0xFFFFFC], a % 4 = 0 ∧ reservedOffset a) := by
  refine ⟨rfl, by decide, by decide, ?_⟩
  unfold reservedOffset
  decide
theorem witness_WrongAccessesAreBusErrors :
    ∀ a ∈ [Access.read 2 0, .write 8 0x100000 0, .read 4 2, .write 4 0x1000000 0],
      ¬(a.width = 4 ∧ a.addr % 4 = 0 ∧ a.addr < 0x1000000) := by decide
theorem witness_BusyPermitsOnlyTheListedAccesses : (busyWith 0 State.reset).busy = true ∧
    (0x000 ∈ busyReads ∧ 0x028 ∈ busyReads ∧ 0x008 ∉ busyReads ∧ 0xFFFFFC ∉ busyReads) ∧
    (0x008 ∈ busyWrites ∧ 0x028 ∈ busyWrites ∧ 0x000 ∉ busyWrites ∧ 0xFFFFFC ∉ busyWrites) := by decide
theorem witness_CmdWriteStartsOrOverruns : State.reset.busy = false ∧ (busyWith 0 State.reset).busy = true := by decide
theorem witness_BufferWordsReadBack : State.reset.busy = false ∧ hostBufferWord 0x100000 ∧ hostBufferWord 0x2FFFFC ∧
    hostBufferWord 0x500000 ∧ hostBufferWord 0x5FFFFC := by
  unfold hostBufferWord
  decide
theorem witness_HostStepsLeaveTheStreamAlone :
    ∃ t, hostStep (.write 4 0x300000 1) (configured cfgSteer) = .next t ∧
      ∃ u, hostStep (.read 4 0x00C) (busyWith 0 (configured cfgSteer)) = .next u := ⟨_, rfl, _, rfl⟩
/-- An access to the first and to the last offset of the second window, and a core step and a power-on of the second instance. -/
theorem witness_InstancesShareNothing :
    (∃ ds, platformStep (.host (.read 4 0x1000000)) (platformReset [0, 0x1000000]) = .next ds) ∧
    (∃ ds, platformStep (.host (.read 4 0x1FFFFFC)) (platformReset [0, 0x1000000]) = .next ds) ∧
    (∃ ds, platformStep (.core 1) [⟨0, State.reset⟩, ⟨0x1000000, busyWith 1 State.reset⟩] = .next ds) ∧
    (∃ ds, platformStep (.powerOn 1) (platformReset [0, 0x1000000]) = .next ds) ∧
    ∃ c, (platformReset [0, 0x1000000])[1]? = some c := ⟨⟨_, rfl⟩, ⟨_, rfl⟩, ⟨_, rfl⟩, ⟨_, rfl⟩, ⟨_, rfl⟩⟩

/-- Registers at the bounds of CONFIGURE's checks. -/
theorem witness_ConfigureLatchesAcceptedRegisters :
    sizesAccepted (regs 1 64 1) ∧ sizesAccepted (regs 0 65536 65535) ∧ (regs 0 65536 65535).logicEn = 0#1 ∧
    steeringRequested steering ∧ sizesAccepted steering ∧ windowAccepted { steering with rmsWindow := 1#32 } ∧
    windowAccepted { steering with rmsWindow := 4096#32 } ∧ gminAccepted { steering with gmin := 0x8000000000000000#64 } ∧
    gminAccepted { steering with gmin := unity } ∧ gboostAccepted { steering with gboost := 0x40F0000000000000#64 } ∧
    gboostAccepted steering ∧ alphaAccepted unity ∧ alphaAccepted 1#64 := by
  refine ⟨⟨⟨6, by decide⟩, by decide⟩, ⟨⟨16, by decide⟩, by decide⟩, by decide, by unfold steeringRequested; decide,
    ⟨⟨10, by decide⟩, by decide⟩, ?_⟩
  unfold windowAccepted gminAccepted gboostAccepted alphaAccepted
  decide
/-- One steering configuration that passes all checks together. -/
theorem witness_ConfigureLatchesAcceptedRegisters_steering :
    sizesAccepted steering ∧ steeringRequested steering ∧ windowAccepted steering ∧ gminAccepted steering ∧
    gboostAccepted steering ∧ alphaAccepted steering.alphaAtt ∧ alphaAccepted steering.alphaRel := by
  refine ⟨⟨⟨10, by decide⟩, by decide⟩, ?_⟩
  unfold steeringRequested windowAccepted gminAccepted gboostAccepted alphaAccepted
  decide
theorem not_power_of_two_1000 : ¬∃ l, (regs 0 1000 512).blockSize.toNat = 2 ^ l := by
  rintro ⟨l, h⟩
  have h1 : 1000 = 2 ^ l := h
  have h2 : l < 10 := (Nat.pow_lt_pow_iff_right (by decide : 1 < 2)).mp (by omega)
  have h3 : ∀ l < 10, 1000 ≠ 2 ^ l := by decide
  exact h3 l h2 h1
theorem witness_ConfigureFailsOnTheFirstFailingCheck :
    (regs 2 1024 512).mode = 2#2 ∧ (regs 3 1024 512).mode = 3#2 ∧
    ((regs 0 1000 512).mode = 0#2 ∧ ¬∃ l, (regs 0 1000 512).blockSize.toNat = 2 ^ l) ∧
    ((regs 1 32 0).mode = 1#2 ∧ (∃ l, (regs 1 32 0).blockSize.toNat = 2 ^ l) ∧ (regs 1 32 0).blockSize.toNat < 64) ∧
    ((regs 1 131072 0).mode = 1#2 ∧ (∃ l, (regs 1 131072 0).blockSize.toNat = 2 ^ l) ∧
      65536 < (regs 1 131072 0).blockSize.toNat) ∧
    ((regs 0 64 0).mode = 0#2 ∧ (∃ l, 6 ≤ l ∧ l ≤ 16 ∧ (regs 0 64 0).blockSize.toNat = 2 ^ l) ∧
      (regs 0 64 0).overlap.toNat = 0) ∧
    ((∃ l, 6 ≤ l ∧ l ≤ 16 ∧ (regs 0 64 64).blockSize.toNat = 2 ^ l) ∧
      (regs 0 64 64).blockSize.toNat ≤ (regs 0 64 64).overlap.toNat) :=
  ⟨rfl, rfl, ⟨rfl, not_power_of_two_1000⟩, ⟨rfl, ⟨5, rfl⟩, by decide⟩, ⟨rfl, ⟨17, rfl⟩, by decide⟩,
    ⟨rfl, ⟨6, by decide⟩, rfl⟩, ⟨⟨6, by decide⟩, by decide⟩⟩
theorem witness_ConfigureFailsOnTheFirstFailingCheck_steering :
    (sizesAccepted steering ∧ steeringRequested steering) ∧ ¬windowAccepted { steering with rmsWindow := 0#32 } ∧
    ¬windowAccepted { steering with rmsWindow := 4097#32 } ∧
    (windowAccepted steering ∧ ¬gminAccepted { steering with gmin := 0x3FF0000000000001#64 }) ∧
    (gminAccepted steering ∧ ¬gboostAccepted { steering with gboost := 0x3FEFFFFFFFFFFFFF#64 }) ∧
    (gboostAccepted steering ∧ ¬alphaAccepted 0#64) ∧ (alphaAccepted steering.alphaAtt ∧ ¬alphaAccepted 0x3FF0000000000001#64) := by
  refine ⟨⟨⟨⟨10, by decide⟩, by decide⟩, by unfold steeringRequested; decide⟩, ?_⟩
  unfold windowAccepted gminAccepted gboostAccepted alphaAccepted
  decide
theorem witness_ClearColdStarts : (configured cfgEnc).cfg = some cfgEnc ∧ State.reset.cfg = none := by decide
theorem witness_CommandsThatNeedAConfiguration : State.reset.cfg = none := rfl
theorem witness_CommandsWriteOnlyTheirBuffers : ∃ t, (configured cfgDec).Inv ∧ exec .fftInv (configured cfgDec) = .next t ∧
    (0 < 0x300000 ∧ 0x600000 ≤ 0x600000) ∧ (∀ nch cnt, Instr.fftInv ≠ .hop nch cnt) ∧
    ∃ u, exec .clear (configured cfgDec) = .next u ∧ Instr.clear ≠ .fftFwd ∧ Instr.clear ≠ .fftInv :=
  ⟨_, configured_inv _ cfgDec_wf, rfl, by decide, by simp, _, rfl, by decide, by decide⟩
/-- For FftFwdRewritesItsWindow and FftInvRewritesItsWindow; the largest configuration is `cfgLargest_wf`. -/
theorem witness_Transforms : (configured cfgDec).cfg = some cfgDec ∧ cfgDec.Wf ∧ State.reset.cfg = none :=
  ⟨rfl, cfgDec_wf, rfl⟩
theorem witness_BufferEntriesStandAtTheirOffsets : 0 < 1 ∧ 65535 < 65536 := by decide
/-- For BitReversalPermutesByReversedIndex and FftIsTheLoopsOverIndices. -/
theorem witness_BitReversalAndLoops : 5 < 2 ^ 3 ∧ (List.replicate 8 Cx.zero).length = 2 ^ 3 := by decide
theorem witness_TwiddlesAreCorrectlyRounded : 6 ≤ 16 ∧ 16 ≤ 16 ∧ 32767 < 2 ^ 16 / 2 ∧ 0 < 2 ^ 6 / 2 ∧ 2 ^ 6 / 4 < 2 ^ 6 / 2 := by
  decide
/-- For SumsAreCorrectlyRounded, ProductsAndQuotientsAreCorrectlyRounded and SquareRootsAreCorrectlyRounded. -/
theorem witness_ArithmeticIsCorrectlyRounded : F64.isFinite 0x7FEFFFFFFFFFFFFF#64 = true ∧
    F64.isFinite 0x8000000000000001#64 = true ∧ F64.isZero 0x8000000000000001#64 = false ∧
    (exactValue 0x8000000000000000#64 + exactValue 0x8000000000000000#64 = 0 ∧
      exactValue 0x8000000000000000#64 - exactValue 0x0000000000000000#64 = 0) ∧ F64.isNeg 0x0000000000000000#64 = false ∧
    F64.isNaN 0x7FF0000000000001#64 = true ∧ F64.isNaN (infinity true) = false ∧ infinity true ≠ infinity false ∧
    (F64.isNeg (infinity true) = true ∧ F64.isZero (infinity true) = false) :=
  ⟨by decide, by decide, by decide, by simp [exactValue, F64.units, F64.magUnits, F64.mag], by decide⟩
theorem witness_HilbertMultiplierSwapsAndFlips : 63 < 64 ∧ 64 % 2 = 0 ∧ 1 ≤ 31 ∧ 31 < 64 / 2 ∧ 64 / 2 < 33 := by decide
/-- For HopSamplesAndTheirBlock and LaneStepAddsTailsAndKeepsTheRest. -/
theorem witness_LaneHypotheses : cfgEnc.Wf ∧ (zeros 32).length = cfgEnc.h ∧ (coldLane 32).Sized cfgEnc.o ∧
    (32 ≤ cfgEnc.h ∧ 31 < cfgEnc.h) ∧ 63 < cfgEnc.n :=
  ⟨cfgEnc_wf, by decide⟩
theorem witness_OriginalPathIsADelayOfDelta : cfgEnc.Wf ∧
    (∀ u ∈ [zeros 32, List.replicate 32 unity], u.length = cfgEnc.h ∧ ∀ x ∈ u, F64.isFinite x = true) ∧
    7 < cfgEnc.delta ∧ cfgEnc.delta ≤ 8 ∧ 8 < [zeros 32, List.replicate 32 unity].flatten.length :=
  ⟨cfgEnc_wf, by simp [zeros, cfgEnc, F64.isFinite, F64.mag, F64.infMag, unity], by decide⟩
theorem witness_HopEncodesOneHop : (configured cfgEnc).Inv ∧ (configured cfgEnc).cfg = some cfgEnc ∧
    cfgEnc.mode = .encode ∧ 32 ≤ cfgEnc.h := ⟨configured_inv _ cfgEnc_wf, rfl, rfl, by decide⟩
theorem witness_HopDecodesOneHop : ((configured cfgDec).Inv ∧ (configured cfgDec).cfg = some cfgDec ∧
    cfgDec.mode = .decode ∧ 0 ≤ cfgDec.h ∧ cfgDec.steer = none) ∧
    ((configured cfgSteer).Inv ∧ (configured cfgSteer).cfg = some cfgSteer ∧ cfgSteer.mode = .decode ∧
      32 ≤ cfgSteer.h ∧ ∃ p, cfgSteer.steer = some p) :=
  ⟨⟨configured_inv _ cfgDec_wf, rfl, rfl, by decide, rfl⟩, ⟨configured_inv _ cfgSteer_wf, rfl, rfl, by decide, _, rfl⟩⟩
theorem witness_HopReportsTheFirstFailingCheck : (configured cfgEnc).cfg = some cfgEnc ∧ (3 ≠ 4 ∧ 5 ≠ 4) ∧
    ((-1 : Int) < 0 ∧ (cfgEnc.h : Int) < 33) := by decide
/-- A zero difference, of either sign (IEEE 754; V-FFT-3 and V-MAT-D need the first two). -/
theorem test_zero_differences : F64.sub unity unity = 0x0000000000000000#64 ∧
    F64.sub 0x0000000000000000#64 0x0000000000000000#64 = 0x0000000000000000#64 ∧
    F64.sub 0x8000000000000000#64 0x0000000000000000#64 = 0x8000000000000000#64 := by decide
/-- R183's loop on NaNs: a NaN in channel 0 stays dominant, and one in a later channel is passed over (R11). -/
theorem test_dominant_of_nans : dominant ⟨0x7FF8000000000000#64, unity, unity, unity⟩ = 0 ∧
    dominant ⟨0x0000000000000000#64, 0x7FF8000000000000#64, unity, 0x7FF8000000000000#64⟩ = 2 := by decide
theorem witness_DominantChannelIsLoudestAndLowest : (Quad.all unity).Each (fun x => F64.isNaN x = false) := by decide
theorem witness_SteeringUpdatesEachChannel : 4096 ≤ 4096 ∧ 3 < 4 ∧ 1 ≤ 1 ∧
    (∀ j, j < 4 → 1 ≤ ((Quad.all (zeros 1)).get j).length) ∧
    ∀ j, j < 1 → F64.isFinite ([0x7FEFFFFFFFFFFFFF#64].getD j unity) = true := by decide
/-- Silence: one zero sample and one that is not finite. -/
theorem witness_SilenceStaysSilent :
    ∃ s : State, s.Inv ∧ s.cfg = some cfgSteer ∧ 1 ≤ cfgSteer.h ∧ s.Silent ∧
      ∀ l k, l < cfgSteer.mode.arity → k < 1 →
        F64.isZero (s.mem.readF64 (inAddr l k)) = true ∨ F64.isFinite (s.mem.readF64 (inAddr l k)) = false := by
  refine ⟨{ configured cfgSteer with
    mem := (State.reset.mem.writeF64s 0x100000 [0x8000000000000000#64]).writeF64s 0x180000 [0x7FF0000000000000#64] },
    ⟨?_, (configured_inv _ cfgSteer_wf).2.1, by decide⟩, rfl, by decide, ?_, ?_⟩
  · exact ⟨by decide, by decide⟩
  · have h : ∀ n, ∀ x ∈ zeros n, F64.isZero x = true := fun n x hx => List.eq_of_mem_replicate hx ▸ rfl
    exact ⟨⟨⟨h _, h _⟩, ⟨h _, h _⟩, ⟨h _, h _⟩, ⟨h _, h _⟩⟩, ⟨h _, h _, h _, h _⟩, rfl⟩
  · intro l k hl hk
    have hk0 : k = 0 := by omega
    have hl2 : l < 2 := hl
    subst hk0
    revert l
    decide
theorem witness_FrontRoundTripIsADelayOfTwoDelta : cfgEnc.Wf ∧ cfgDec.Wf ∧ cfgEnc.mode = .encode ∧ cfgDec.mode = .decode ∧
    cfgDec.n = cfgEnc.n ∧ cfgDec.o = cfgEnc.o ∧
    (∀ u ∈ [(List.replicate 32 unity, zeros 32)], (u.1.length = cfgEnc.h ∧ ∀ x ∈ u.1, F64.isFinite x = true) ∧
      u.2.length = cfgEnc.h ∧ ∀ x ∈ u.2, F64.isFinite x = true) ∧ 15 < 2 * cfgEnc.delta ∧ 2 * cfgEnc.delta ≤ 16 :=
  ⟨cfgEnc_wf, cfgDec_wf, rfl, rfl, rfl, rfl, by simp [zeros, cfgEnc, F64.isFinite, F64.mag, F64.infMag, unity], by decide⟩
theorem witness_FrameChecksAndEmptyFrames :
    ([[], []] : List (List F64)).length ≠ 4 ∧ (([[], []] : List (List F64)).length = 2 ∧ (-1 : Int) < 0) ∧
    (∃ x ∈ [[unity], ([] : List F64)], (x.length : Int) < 1) ∧
    (∀ x ∈ [[], ([] : List F64)], ∀ y ∈ [[], ([] : List F64)], x.length = y.length) ∧
    (configured cfgDec).cfg = some cfgDec ∧ (configured cfgDec).busy = false :=
  ⟨by decide, by decide, ⟨[], by decide⟩, by decide, rfl, rfl⟩
theorem configured_ready (c : Latched) (h : c.Wf) : ready c (configured c) := ⟨configured_inv c h, rfl, rfl⟩
/-- Frames of one sample and of none, with silent rears and finite values. -/
theorem witness_FramesReturnTheAdvancedStream :
    ready cfgEnc (configured cfgEnc) ∧ ready cfgDec (configured cfgDec) ∧ ready cfgSteer (configured cfgSteer) ∧
    frameFits cfgEnc.mode ⟨44100, 1, [[unity], [unity], [0#64], [0x8000000000000000#64]]⟩ 1 ∧
    frameFits cfgDec.mode ⟨44100, 0, [[unity], [unity]]⟩ 0 ∧ (cfgEnc.steer = none ∧ cfgDec.steer = none) ∧
    (∀ x ∈ [[unity], [unity], [0#64], [0x8000000000000000#64]], ∀ v ∈ x, F64.isFinite v = true) ∧
    (∀ l, 2 ≤ l → ∀ v ∈ [[unity], [unity], [0#64], [0x8000000000000000#64]].getD l [], F64.isZero v = true) := by
  refine ⟨configured_ready _ cfgEnc_wf, configured_ready _ cfgDec_wf, configured_ready _ cfgSteer_wf,
    ⟨rfl, rfl, 1, by decide, by simp⟩, ⟨rfl, rfl, 1, by decide, by simp⟩, ⟨rfl, rfl⟩, ?_, ?_⟩
  · simp [F64.isFinite, F64.mag, F64.infMag, unity]
  · intro l hl v hv
    match l, hl with
    | 2, _ => simp at hv; subst hv; decide
    | 3, _ => simp at hv; subst hv; decide
    | k + 4, _ => simp at hv
theorem witness_FrameResultIgnoresHistory : ∃ s s' : State, s.Inv ∧ s'.Inv ∧ s.cfg = some cfgSteer ∧
    s'.cfg = some cfgSteer ∧ s.busy = false ∧ s'.busy = false ∧ s.hopCount ≠ s'.hopCount :=
  ⟨configured cfgSteer, { configured cfgSteer with hopCount := 5#32 }, configured_inv _ cfgSteer_wf,
    configured_inv _ cfgSteer_wf, rfl, rfl, rfl, rfl, by decide⟩

end Sys2Proof.Tests
end

section
/-! SUPPORT. Binary64 arithmetic rounds correctly (00_scope.md R9 to R11). -/

namespace Sys2Proof.F64

open Sys2Proof.Machine Sys2Proof.Stated

/-! ### Sign and magnitude bits -/

theorem toNat_eq_sign_add_mag (x : F64) :
    x.toNat = if isNeg x then 9223372036854775808 + mag x else mag x := by
  have hx := x.isLt
  simp only [isNeg, mag, BitVec.msb_eq_decide, decide_eq_true_eq]
  split <;> omega

@[simp] theorem pack_isNeg_mag (x : F64) : pack (isNeg x) (mag x) = x := by
  rw [pack, ← toNat_eq_sign_add_mag, BitVec.ofNat_toNat, BitVec.setWidth_eq]

theorem mag_pack (n : Bool) {m : ℕ} (hm : m < 9223372036854775808) : mag (pack n m) = m := by
  rw [mag, pack, BitVec.toNat_ofNat]
  split <;> omega

theorem isNeg_pack (n : Bool) {m : ℕ} (hm : m < 9223372036854775808) : isNeg (pack n m) = n := by
  rw [isNeg, pack, BitVec.msb_eq_decide, BitVec.toNat_ofNat]
  cases n <;> simp <;> omega

/-- A pattern is its sign and its magnitude bits. -/
theorem eq_iff_isNeg_mag {x y : F64} : x = y ↔ isNeg x = isNeg y ∧ mag x = mag y := by
  constructor
  · rintro rfl
    exact ⟨rfl, rfl⟩
  · rintro ⟨hs, hm⟩
    rw [← pack_isNeg_mag x, hs, hm, pack_isNeg_mag]

@[simp] theorem isNeg_neg (x : F64) : isNeg (neg x) = !isNeg x := by
  rw [isNeg, neg, BitVec.msb_xor, show negZero.msb = true from rfl, Bool.xor_true, isNeg]

@[simp] theorem mag_neg (x : F64) : mag (neg x) = mag x := by
  have h := Nat.xor_mod_two_pow (a := x.toNat) (b := negZero.toNat) (n := 63)
  simpa [mag, neg, negZero] using h

theorem infinity_eq_pack (n : Bool) : infinity n = pack n infMag := by cases n <;> rfl
theorem zero_eq_pack (n : Bool) : zero n = pack n 0 := by cases n <;> rfl
@[simp] theorem isNeg_infinity (n : Bool) : isNeg (infinity n) = n := by cases n <;> rfl
@[simp] theorem mag_infinity (n : Bool) : mag (infinity n) = infMag := by cases n <;> rfl
@[simp] theorem isNeg_zero (n : Bool) : isNeg (zero n) = n := by cases n <;> rfl
@[simp] theorem mag_zero (n : Bool) : mag (zero n) = 0 := by cases n <;> rfl
@[simp] theorem isNaN_nan : isNaN nan = true := rfl

/-! ### The classes of values -/

theorem isNaN_neg (x : F64) : isNaN (neg x) = isNaN x := by simp [isNaN]
theorem isFinite_neg (x : F64) : isFinite (neg x) = isFinite x := by simp [isFinite]
@[simp] theorem isNaN_infinity (n : Bool) : isNaN (infinity n) = false := by simp [isNaN]
@[simp] theorem isInf_infinity (n : Bool) : isInf (infinity n) = true := by simp [isInf]
@[simp] theorem isZero_infinity (n : Bool) : isZero (infinity n) = false := by cases n <;> rfl
@[simp] theorem isNaN_zero (n : Bool) : isNaN (zero n) = false := by cases n <;> rfl
@[simp] theorem isInf_zero (n : Bool) : isInf (zero n) = false := by cases n <;> rfl
@[simp] theorem isZero_zero (n : Bool) : isZero (zero n) = true := by cases n <;> rfl

theorem isNaN_of_isFinite {x : F64} (h : isFinite x = true) : isNaN x = false := by
  simp only [isFinite, isNaN, decide_eq_true_eq, decide_eq_false_iff_not] at h ⊢
  omega

theorem isInf_of_isFinite {x : F64} (h : isFinite x = true) : isInf x = false := by
  simp only [isFinite, isInf, decide_eq_true_eq, beq_eq_false_iff_ne] at h ⊢
  omega

theorem mag_le_infMag {x : F64} (h : isNaN x = false) : mag x ≤ infMag := by
  simpa [isNaN] using h

theorem eq_infinity_iff (x : F64) (n : Bool) : x = infinity n ↔ isInf x = true ∧ isNeg x = n := by
  simp [eq_iff_isNeg_mag, isInf, and_comm]

theorem neg_infinity (n : Bool) : neg (infinity n) = infinity !n := by simp [eq_infinity_iff, isInf]

/-! ### Magnitudes as numbers of units, and the midpoints between them -/

/-- The magnitude of the bits `m` in units of 2^-1074, with the exponent going on beyond the largest finite value. -/
def unitsOfMag (m : ℕ) : ℕ :=
  if m / 4503599627370496 = 0 then m
  else (4503599627370496 + m % 4503599627370496) <<< (m / 4503599627370496 - 1)

theorem magUnits_eq (x : F64) : magUnits x = unitsOfMag (mag x) := rfl

/-- The bits with the last place at `2^e` units and the significand `m` stand for `m * 2^e` units, also when `m` is `2^53`. -/
theorem unitsOfMag_place {e m : ℕ} (hlow : e = 0 ∨ 2 ^ 52 ≤ m) (hm : m ≤ 2 ^ 53) :
    unitsOfMag (e * 2 ^ 52 + m) = m * 2 ^ e := by
  rw [unitsOfMag]
  rcases Nat.lt_trichotomy m (2 ^ 53) with hlt | rfl | hgt
  · rcases Nat.lt_or_ge m (2 ^ 52) with hsub | hnorm
    · obtain rfl : e = 0 := by omega
      rw [if_pos (by omega)]
      simp
    · have hq : (e * 2 ^ 52 + m) / 4503599627370496 = e + 1 := by omega
      have hr : 4503599627370496 + (e * 2 ^ 52 + m) % 4503599627370496 = m := by omega
      rw [hq, hr, if_neg (by omega), Nat.shiftLeft_eq, Nat.add_sub_cancel]
  · have hq : (e * 2 ^ 52 + 2 ^ 53) / 4503599627370496 = e + 2 := by omega
    have hr : (e * 2 ^ 52 + 2 ^ 53) % 4503599627370496 = 0 := by omega
    rw [hq, hr, if_neg (by omega), Nat.shiftLeft_eq, Nat.add_succ_sub_one, pow_succ]
    ring
  · omega

/-- Every magnitude has a last place and a significand. -/
theorem exists_place (k : ℕ) : ∃ e m, k = e * 2 ^ 52 + m ∧ (e = 0 ∨ 2 ^ 52 ≤ m) ∧ m < 2 ^ 53 :=
  ⟨k / 2 ^ 52 - 1, k - (k / 2 ^ 52 - 1) * 2 ^ 52, by omega, by omega, by omega⟩

@[simp] theorem unitsOfMag_zero : unitsOfMag 0 = 0 := rfl

theorem unitsOfMag_strictMono : StrictMono unitsOfMag := by
  refine strictMono_nat_of_lt_succ fun k => ?_
  obtain ⟨e, m, rfl, hlow, hm⟩ := exists_place k
  rw [Nat.add_assoc, unitsOfMag_place hlow hm.le, unitsOfMag_place (by omega) hm]
  exact Nat.mul_lt_mul_of_pos_right m.lt_succ_self (by positivity)

/-- The sum of two neighbouring magnitudes: twice the midpoint between them. -/
def neighbourSum (k : ℕ) : ℕ := unitsOfMag k + unitsOfMag (k + 1)

theorem neighbourSum_place {e m : ℕ} (hlow : e = 0 ∨ 2 ^ 52 ≤ m) (hm : m < 2 ^ 53) :
    neighbourSum (e * 2 ^ 52 + m) = (2 * m + 1) * 2 ^ e := by
  rw [neighbourSum, Nat.add_assoc, unitsOfMag_place hlow hm.le, unitsOfMag_place (by omega) hm,
    Nat.succ_eq_add_one]
  ring

theorem neighbourSum_strictMono : StrictMono neighbourSum := fun _ _ h =>
  Nat.add_lt_add (unitsOfMag_strictMono h) (unitsOfMag_strictMono (Nat.succ_lt_succ h))

/-! ### The magnitude nearest to a number of units -/

/-- The number `v` of units lies between the two midpoints around the magnitude `m`, and on one of them only when `m` is even:
that `m` is nearest to `v`, ties to even, said of the neighbours of `m` alone. -/
structure RoundsToMag (v : ℝ) (m : ℕ) : Prop where
  lower : ∀ k, m = k + 1 → (neighbourSum k : ℝ) < 2 * v ∨ ((neighbourSum k : ℝ) = 2 * v ∧ m % 2 = 0)
  upper : 2 * v < neighbourSum m ∨ (2 * v = neighbourSum m ∧ m % 2 = 0)

theorem RoundsToMag.lower_le {v : ℝ} {m k : ℕ} (h : RoundsToMag v m) (hk : m = k + 1) : (neighbourSum k : ℝ) ≤ 2 * v :=
  (h.lower k hk).elim le_of_lt fun htie => htie.1.le

theorem RoundsToMag.upper_le {v : ℝ} {m : ℕ} (h : RoundsToMag v m) : 2 * v ≤ neighbourSum m :=
  h.upper.elim le_of_lt fun htie => htie.1.le

theorem RoundsToMag.nearest_of_lt {v : ℝ} {m k : ℕ} (h : RoundsToMag v m) (hkm : k < m) :
    |v - unitsOfMag m| ≤ |v - unitsOfMag k| ∧ (|v - unitsOfMag m| = |v - unitsOfMag k| → m % 2 = 0) := by
  obtain ⟨j, rfl⟩ := Nat.exists_eq_add_of_lt hkm
  have hlt : (unitsOfMag k : ℝ) < unitsOfMag (k + j + 1) := Nat.cast_lt.2 (unitsOfMag_strictMono hkm)
  have hle : (unitsOfMag k : ℝ) ≤ unitsOfMag (k + j) := Nat.cast_le.2 (unitsOfMag_strictMono.monotone (by omega))
  have hmid := h.lower_le rfl
  have hlower := h.lower _ rfl
  rw [neighbourSum, Nat.cast_add] at hmid hlower
  rw [abs_of_nonneg (by linarith : (0 : ℝ) ≤ v - unitsOfMag k)]
  refine ⟨abs_le.2 ⟨by linarith, by linarith⟩, fun htie => ?_⟩
  rcases hlower with hlow | ⟨-, heven⟩
  · rcases abs_choice (v - unitsOfMag (k + j + 1)) with habs | habs <;> linarith
  · exact heven

theorem RoundsToMag.nearest_of_gt {v : ℝ} {m k : ℕ} (h : RoundsToMag v m) (hmk : m < k) :
    |v - unitsOfMag m| ≤ |v - unitsOfMag k| ∧ (|v - unitsOfMag m| = |v - unitsOfMag k| → m % 2 = 0) := by
  have hlt : (unitsOfMag m : ℝ) < unitsOfMag k := Nat.cast_lt.2 (unitsOfMag_strictMono hmk)
  have hle : (unitsOfMag (m + 1) : ℝ) ≤ unitsOfMag k := Nat.cast_le.2 (unitsOfMag_strictMono.monotone hmk)
  have hmid := h.upper_le
  have hupper := h.upper
  rw [neighbourSum, Nat.cast_add] at hmid hupper
  rw [abs_of_nonpos (by linarith : v - unitsOfMag k ≤ 0)]
  refine ⟨abs_le.2 ⟨by linarith, by linarith⟩, fun htie => ?_⟩
  rcases hupper with hup | ⟨-, heven⟩
  · rcases abs_choice (v - unitsOfMag m) with habs | habs <;> linarith
  · exact heven

/-- No magnitude is nearer, and one equally near leaves an even one. -/
theorem RoundsToMag.nearest {v : ℝ} {m : ℕ} (h : RoundsToMag v m) (k : ℕ) :
    |v - unitsOfMag m| ≤ |v - unitsOfMag k| ∧
      (|v - unitsOfMag m| = |v - unitsOfMag k| → k ≠ m → m % 2 = 0) := by
  rcases Nat.lt_trichotomy k m with hkm | rfl | hmk
  · exact (h.nearest_of_lt hkm).imp_right fun heven htie _ => heven htie
  · exact ⟨le_rfl, fun _ hne => absurd rfl hne⟩
  · exact (h.nearest_of_gt hmk).imp_right fun heven htie _ => heven htie

/-- The least number of units that overflows: `2^1024 - 2^970`, half a last place beyond the largest finite value. -/
noncomputable def overflowUnits : ℝ := (2 ^ 1024 - 2 ^ 970) * 2 ^ 1074

/-- The overflow begins at the midpoint between the largest finite value and the next magnitude. -/
theorem neighbourSum_largest : (neighbourSum 0x7FEFFFFFFFFFFFFF : ℝ) = 2 * overflowUnits := by
  have hbits : 0x7FEFFFFFFFFFFFFF = 2045 * 2 ^ 52 + (2 ^ 53 - 1) := by norm_num
  have h2045 : (2 : ℝ) ^ 2045 = 2 ^ 1 * (2 ^ 970 * 2 ^ 1074) := by rw [← pow_add, ← pow_add]
  have h1024 : (2 : ℝ) ^ 1024 = 2 ^ 54 * 2 ^ 970 := by rw [← pow_add]
  rw [hbits, neighbourSum_place (by norm_num) (by norm_num), overflowUnits, Nat.cast_mul, Nat.cast_pow,
    Nat.cast_ofNat, h2045, h1024]
  generalize (2 : ℝ) ^ 970 = a
  generalize (2 : ℝ) ^ 1074 = b
  norm_num
  ring

theorem RoundsToMag.lt_infMag {v : ℝ} {m : ℕ} (h : RoundsToMag v m) (hv : v < overflowUnits) :
    m < infMag := by
  by_contra hm
  obtain ⟨j, rfl⟩ := Nat.exists_eq_add_of_le (Nat.le_of_not_lt hm)
  have hmono : (neighbourSum 0x7FEFFFFFFFFFFFFF : ℝ) ≤ neighbourSum (0x7FEFFFFFFFFFFFFF + j) :=
    Nat.cast_le.2 (neighbourSum_strictMono.monotone (by omega))
  rw [neighbourSum_largest] at hmono
  linarith [h.lower_le (k := 0x7FEFFFFFFFFFFFFF + j) (by rw [infMag]; omega)]

theorem RoundsToMag.infMag_le {v : ℝ} {m : ℕ} (h : RoundsToMag v m) (hv : overflowUnits ≤ v) :
    infMag ≤ m := by
  by_contra hm
  rw [infMag, not_le] at hm
  have hmono : (neighbourSum m : ℝ) ≤ neighbourSum 0x7FEFFFFFFFFFFFFF :=
    Nat.cast_le.2 (neighbourSum_strictMono.monotone (by omega))
  have hlargest := neighbourSum_largest
  rcases h.upper with hup | ⟨hup, heven⟩
  · linarith
  · have hodd : m = 0x7FEFFFFFFFFFFFFF :=
      neighbourSum_strictMono.injective (Nat.cast_injective (R := ℝ) (by linarith))
    omega

/-! ### Exact values, and rounding to a signed magnitude -/

/-- The factor of a sign. -/
def signFactor (n : Bool) : ℝ := if n then -1 else 1

theorem signFactor_xor (n m : Bool) : signFactor (n != m) = signFactor n * signFactor m := by
  cases n <;> cases m <;> simp [signFactor]

theorem inv_signFactor (n : Bool) : (signFactor n)⁻¹ = signFactor n := by cases n <;> norm_num [signFactor]

theorem abs_signFactor_mul (n : Bool) {v : ℝ} (hv : 0 ≤ v) : |signFactor n * v| = v := by
  cases n <;> simp [signFactor, hv]

theorem cast_units (x : F64) : (units x : ℝ) = signFactor (isNeg x) * unitsOfMag (mag x) := by
  rw [units, magUnits_eq, signFactor]
  split <;> simp

theorem units_eq_or_neg_of_mag {x y : F64} (h : mag y = mag x) : units y = units x ∨ units y = -units x := by
  rw [units, units, magUnits_eq, magUnits_eq, h]
  cases isNeg x <;> cases isNeg y <;> simp

theorem cast_exactValue (x : F64) : (exactValue x : ℝ) = units x / 2 ^ 1074 := by
  rw [exactValue, Rat.cast_div, Rat.cast_intCast, Rat.cast_pow, Rat.cast_ofNat]

theorem exactValue_eq_iff (x y : F64) : exactValue x = exactValue y ↔ units x = units y := by
  rw [exactValue, exactValue, div_left_inj' (by positivity), Int.cast_inj]

theorem exactValue_neg (x : F64) : exactValue (neg x) = -exactValue x := by
  have hunits : units (neg x) = -units x := by
    rw [units, units, magUnits_eq, magUnits_eq, isNeg_neg, mag_neg]
    cases isNeg x <;> simp
  rw [exactValue, exactValue, hunits, Int.cast_neg, neg_div]

/-- No finite value is nearer to `v` units of the sign of `x` than `x` is, when the bits of `x` are the nearest to `v`. -/
theorem RoundsToMag.nearest_signed {v : ℝ} {x : F64} (hv : 0 ≤ v) (h : RoundsToMag v (mag x)) (y : F64) :
    |signFactor (isNeg x) * v - units x| ≤ |signFactor (isNeg x) * v - units y| ∧
      (|signFactor (isNeg x) * v - units x| = |signFactor (isNeg x) * v - units y| → units y ≠ units x → mag x % 2 = 0) := by
  obtain ⟨hnear, htie⟩ := h.nearest (mag y)
  have hx : |signFactor (isNeg x) * v - units x| = |v - unitsOfMag (mag x)| := by
    rw [cast_units, ← mul_sub, abs_mul]
    cases isNeg x <;> simp [signFactor]
  have hy : |v - unitsOfMag (mag y)| ≤ |signFactor (isNeg x) * v - units y| := by
    have := abs_abs_sub_abs_le (signFactor (isNeg x) * v) (units y)
    rwa [cast_units y, abs_signFactor_mul _ hv, abs_signFactor_mul _ (Nat.cast_nonneg _), ← cast_units] at this
  refine ⟨hx.trans_le (hnear.trans hy), fun heq hne => htie (le_antisymm hnear ?_) ?_⟩
  · rw [← hx, heq]
    exact hy
  · intro hmag
    have hopp : (units y : ℝ) = -units x := mod_cast (units_eq_or_neg_of_mag hmag).resolve_left hne
    have hv0 : v = 0 := by
      have hsum : signFactor (isNeg x) * v = 0 := by
        rcases abs_eq_abs.1 heq with hs | hs
        · exact absurd (by exact_mod_cast (by linarith : (units y : ℝ) = units x)) hne
        · linarith
      rw [← abs_signFactor_mul (isNeg x) hv, hsum, abs_zero]
    have hx0 : (units x : ℝ) = 0 := by
      have hzero := (h.nearest 0).1
      rw [← hx, hv0] at hzero
      simpa using hzero
    exact hne (by exact_mod_cast (by linarith : (units y : ℝ) = units x))

theorem overflowUnits_pos : 0 < overflowUnits :=
  mul_pos (sub_pos.2 (pow_lt_pow_right₀ (by norm_num) (by norm_num))) (by positivity)

/-- The magnitude nearest to `v` units, held at infinity and given a sign, is the rounded value of `v` units of that sign. -/
theorem RoundsToMag.roundsTo {v : ℝ} {m : ℕ} (h : RoundsToMag v m) (hv : 0 ≤ v) (n : Bool) :
    RoundsTo (signFactor n * v / 2 ^ 1074) (pack n (min m infMag)) := by
  have hscale : (0 : ℝ) < 2 ^ 1074 := by positivity
  refine ⟨fun hlt => ?_, fun hle => ?_, fun hle => ?_⟩
  · rw [abs_div, abs_signFactor_mul n hv, abs_of_pos hscale, div_lt_iff₀ hscale] at hlt
    have hm : m < infMag := h.lt_infMag hlt
    rw [min_eq_left hm.le]
    have hbits : m < 9223372036854775808 := hm.trans (by decide)
    have hmag : mag (pack n m) = m := mag_pack n hbits
    have hnearest := RoundsToMag.nearest_signed (x := pack n m) hv (by rwa [hmag])
    refine ⟨by simpa [isFinite, hmag] using hm, fun y _ => ?_⟩
    obtain ⟨hnear, htie⟩ := hnearest y
    rw [isNeg_pack n hbits] at hnear htie
    rw [cast_exactValue, cast_exactValue, ← sub_div, ← sub_div, abs_div, abs_div, ne_eq, exactValue_eq_iff,
      div_le_div_iff_of_pos_right (abs_pos.2 hscale.ne'), div_left_inj' (abs_pos.2 hscale.ne').ne']
    exact ⟨hnear, htie⟩
  · rw [le_div_iff₀ hscale, ← overflowUnits] at hle
    cases n with
    | false => rw [min_eq_right (h.infMag_le (by simpa [signFactor] using hle))]
    | true => exact absurd (hle.trans (by simpa [signFactor] using hv)) overflowUnits_pos.not_ge
  · rw [div_le_iff₀ hscale, neg_mul, le_neg, ← overflowUnits] at hle
    cases n with
    | false => exact absurd (hle.trans (by simpa [signFactor] using hv)) overflowUnits_pos.not_ge
    | true => rw [min_eq_right (h.infMag_le (by simpa [signFactor] using hle))]

/-! ### The rounding of a quotient -/

/-- The significand that `roundMag` keeps fits 53 bits, and has all of them unless the last place is one unit. -/
theorem roundPlace_significand (q : ℕ) :
    (roundPlace q = 0 ∨ 2 ^ 52 ≤ q / 2 ^ roundPlace q) ∧ q / 2 ^ roundPlace q < 2 ^ 53 := by
  have hpos : 0 < 2 ^ roundPlace q := by positivity
  rw [Nat.le_div_iff_mul_le hpos, Nat.div_lt_iff_lt_mul hpos, ← pow_add, ← pow_add]
  constructor
  · rcases Nat.eq_zero_or_pos (roundPlace q) with h0 | hp
    · exact .inl h0
    · rw [roundPlace] at hp ⊢
      refine .inr ((Nat.pow_le_pow_right (by decide) ?_).trans (Nat.log2_self_le (n := q) ?_))
      · omega
      · rintro rfl
        simp at hp
  · refine Nat.lt_log2_self.trans_le (Nat.pow_le_pow_right (by decide) ?_)
    rw [roundPlace]
    omega

/-- The bits of `roundMag` before they are held at infinity. -/
def unclampedMag (num den : ℕ) : ℕ :=
  let e := roundPlace (num / den)
  let d := den <<< e
  e * 4503599627370496 + if roundsUp (num / d) (num % d) d then num / d + 1 else num / d

theorem roundMag_eq (num den : ℕ) : roundMag num den = min (unclampedMag num den) infMag := rfl

/-- A number of units between `m` and `m + 1` last places rounds to one of the two, by the side of their midpoint it is on. -/
theorem roundsToMag_place {v : ℝ} {e m : ℕ} (hlow : e = 0 ∨ 2 ^ 52 ≤ m) (hm : m < 2 ^ 53) (hle : m * 2 ^ e ≤ v)
    (hlt : v < (m + 1) * 2 ^ e) :
    ((2 * v < (2 * m + 1) * 2 ^ e ∨ (2 * v = (2 * m + 1) * 2 ^ e ∧ m % 2 = 0)) → RoundsToMag v (e * 2 ^ 52 + m)) ∧
    (((2 * m + 1) * 2 ^ e < 2 * v ∨ ((2 * m + 1) * 2 ^ e = 2 * v ∧ m % 2 = 1)) → RoundsToMag v (e * 2 ^ 52 + (m + 1))) := by
  have hmid : (neighbourSum (e * 2 ^ 52 + m) : ℝ) = (2 * m + 1) * 2 ^ e := by
    rw [neighbourSum_place hlow hm]
    push_cast
    rfl
  have hunits : (unitsOfMag (e * 2 ^ 52 + m) : ℝ) = m * 2 ^ e := by
    rw [unitsOfMag_place hlow hm.le]
    push_cast
    rfl
  have hnext : (unitsOfMag (e * 2 ^ 52 + (m + 1)) : ℝ) = (m + 1) * 2 ^ e := by
    rw [unitsOfMag_place (by omega) hm]
    push_cast
    rfl
  constructor
  · refine fun h => ⟨fun k hk => .inl ?_, ?_⟩
    · have hlast : (unitsOfMag k : ℝ) < unitsOfMag (k + 1) := Nat.cast_lt.2 (unitsOfMag_strictMono k.lt_succ_self)
      rw [← hk, hunits] at hlast
      rw [neighbourSum, ← hk, Nat.cast_add, hunits]
      linarith
    · rw [hmid]
      exact h.imp_right fun ⟨heq, heven⟩ => ⟨heq, by omega⟩
  · refine fun h => ⟨fun k hk => ?_, .inl ?_⟩
    · obtain rfl : k = e * 2 ^ 52 + m := by omega
      rw [hmid]
      exact h.imp_right fun ⟨heq, hodd⟩ => ⟨heq, by omega⟩
    · have hlast : (unitsOfMag (e * 2 ^ 52 + (m + 1)) : ℝ) < unitsOfMag (e * 2 ^ 52 + (m + 1) + 1) :=
        Nat.cast_lt.2 (unitsOfMag_strictMono (Nat.lt_succ_self _))
      rw [hnext] at hlast
      rw [neighbourSum, Nat.cast_add, hnext]
      linarith

theorem roundsUp_iff (m r d : ℕ) : roundsUp m r d = true ↔ d < 2 * r ∨ (d = 2 * r ∧ m % 2 = 1) := by
  simp only [roundsUp, Bool.or_eq_true, Bool.and_eq_true, decide_eq_true_eq, beq_iff_eq, @eq_comm ℕ d]

/-- `roundMag` gives the magnitude nearest to the quotient, ties to even, until it is held at infinity. -/
theorem roundsToMag_unclampedMag (num : ℕ) {den : ℕ} (hden : 0 < den) :
    RoundsToMag ((num : ℝ) / den) (unclampedMag num den) := by
  obtain ⟨hlow, hhigh⟩ := roundPlace_significand (num / den)
  simp only [unclampedMag, Nat.shiftLeft_eq]
  generalize roundPlace (num / den) = e at hlow hhigh ⊢
  rw [Nat.div_div_eq_div_mul] at hlow hhigh
  have hnum := Nat.div_add_mod num (den * 2 ^ e)
  have hrem := Nat.mod_lt num (show 0 < den * 2 ^ e by positivity)
  generalize num / (den * 2 ^ e) = m at *
  generalize num % (den * 2 ^ e) = r at *
  have hv : (num : ℝ) = (m * 2 ^ e) * den + r := by
    rw [← hnum]
    push_cast
    ring
  have hlt : (r : ℝ) < 2 ^ e * den := by
    rw [mul_comm]
    exact_mod_cast hrem
  have hpos : (0 : ℝ) < den := Nat.cast_pos.2 hden
  obtain ⟨hdown, hup⟩ := roundsToMag_place (v := (num : ℝ) / den) hlow hhigh
    (by rw [le_div_iff₀ hpos]; linarith [(Nat.cast_nonneg r : (0 : ℝ) ≤ r)]) (by rw [div_lt_iff₀ hpos]; linarith)
  have htwice : 2 * ((num : ℝ) / den) = 2 * num / den := by rw [mul_div_assoc]
  have hmiddle : (2 * m + 1) * 2 ^ e * (den : ℝ) = 2 * num + (den * 2 ^ e : ℕ) - 2 * r := by
    rw [hv]
    push_cast
    ring
  split
  next hroundsUp =>
    refine hup ?_
    rw [htwice, lt_div_iff₀ hpos, eq_div_iff hpos.ne', hmiddle]
    rcases (roundsUp_iff m r _).1 hroundsUp with hlt | ⟨heq, hodd⟩
    · have : ((den * 2 ^ e : ℕ) : ℝ) < 2 * r := by exact_mod_cast hlt
      exact .inl (by linarith)
    · have : ((den * 2 ^ e : ℕ) : ℝ) = 2 * r := by exact_mod_cast heq
      exact .inr ⟨by linarith, hodd⟩
  next hroundsDown =>
    refine hdown ?_
    rw [roundsUp_iff, not_or] at hroundsDown
    rw [htwice, div_lt_iff₀ hpos, div_eq_iff hpos.ne', hmiddle]
    rcases Nat.lt_or_ge (2 * r) (den * 2 ^ e) with hlt | hge
    · have : (2 * r : ℝ) < (den * 2 ^ e : ℕ) := by exact_mod_cast hlt
      exact .inl (by linarith)
    · have : ((den * 2 ^ e : ℕ) : ℝ) = 2 * r := by exact_mod_cast (by omega : den * 2 ^ e = 2 * r)
      exact .inr ⟨by linarith, by omega⟩

/-- `round` rounds the number of units it is given, with its sign. -/
theorem roundsTo_round (n : Bool) (num : ℕ) {den : ℕ} (hden : 0 < den) :
    RoundsTo (signFactor n * ((num : ℝ) / den) / 2 ^ 1074) (round n num den) := by
  rw [round, roundMag_eq]
  exact (roundsToMag_unclampedMag num hden).roundsTo (by positivity) n

theorem isNeg_round (n : Bool) (num den : ℕ) : isNeg (round n num den) = n :=
  isNeg_pack n ((min_le_right _ _).trans_lt (by decide))

theorem roundsToMag_zero : RoundsToMag 0 0 :=
  ⟨fun _ h => absurd h (Nat.succ_ne_zero _).symm, .inl (by rw [mul_zero]; exact Nat.cast_pos.2 (by decide))⟩

/-- Both zeros are the rounded value of 0. -/
theorem roundsTo_zero (n : Bool) : RoundsTo 0 (pack n 0) := by
  simpa using roundsToMag_zero.roundsTo le_rfl n

/-! ### Products and quotients -/

theorem exactValue_eq_signFactor_mul (x : F64) :
    (exactValue x : ℝ) = signFactor (isNeg x) * magUnits x / 2 ^ 1074 := by
  rw [cast_exactValue, cast_units, magUnits_eq]

theorem mul_of_isFinite {x y : F64} (hx : isFinite x = true) (hy : isFinite y = true) :
    mul x y = round (isNeg x != isNeg y) (magUnits x * magUnits y) (1 <<< 1074) := by
  simp [mul, isNaN_of_isFinite hx, isNaN_of_isFinite hy, isInf_of_isFinite hx, isInf_of_isFinite hy]

theorem div_of_isFinite {x y : F64} (hx : isFinite x = true) (hy : isFinite y = true) (hy0 : isZero y = false) :
    div x y = round (isNeg x != isNeg y) (magUnits x <<< 1074) (magUnits y) := by
  simp [div, isNaN_of_isFinite hx, isNaN_of_isFinite hy, isInf_of_isFinite hx, isInf_of_isFinite hy, hy0]

theorem magUnits_pos {y : F64} (hy : isZero y = false) : 0 < magUnits y := by
  rw [magUnits_eq, ← unitsOfMag_zero]
  exact unitsOfMag_strictMono (Nat.pos_of_ne_zero (by simpa [isZero] using hy))

theorem roundsTo_mul {x y : F64} (hx : isFinite x = true) (hy : isFinite y = true) :
    RoundsTo ((exactValue x : ℝ) * (exactValue y : ℝ)) (mul x y) := by
  have hvalue : (exactValue x : ℝ) * (exactValue y : ℝ) = signFactor (isNeg x != isNeg y) *
      ((magUnits x * magUnits y : ℕ) / (1 <<< 1074 : ℕ)) / 2 ^ 1074 := by
    rw [exactValue_eq_signFactor_mul, exactValue_eq_signFactor_mul, signFactor_xor, Nat.one_shiftLeft]
    simp only [Nat.cast_mul, Nat.cast_pow, Nat.cast_ofNat]
    generalize (2 : ℝ) ^ 1074 = c
    ring
  rw [hvalue, mul_of_isFinite hx hy]
  exact roundsTo_round _ _ (by rw [Nat.one_shiftLeft]; positivity)

theorem roundsTo_div {x y : F64} (hx : isFinite x = true) (hy : isFinite y = true) (hy0 : isZero y = false) :
    RoundsTo ((exactValue x : ℝ) / (exactValue y : ℝ)) (div x y) := by
  have hvalue : (exactValue x : ℝ) / (exactValue y : ℝ) = signFactor (isNeg x != isNeg y) *
      ((magUnits x <<< 1074 : ℕ) / (magUnits y : ℕ)) / 2 ^ 1074 := by
    rw [exactValue_eq_signFactor_mul, exactValue_eq_signFactor_mul, signFactor_xor, Nat.shiftLeft_eq]
    simp only [Nat.cast_mul, Nat.cast_pow, Nat.cast_ofNat]
    have hscale : (2 : ℝ) ^ 1074 ≠ 0 := by positivity
    rw [div_div_div_cancel_right₀ hscale, mul_div_mul_comm, div_eq_mul_inv (signFactor _), inv_signFactor,
      mul_div_right_comm (magUnits x : ℝ), ← mul_assoc, mul_div_cancel_right₀ _ hscale]
  rw [hvalue, div_of_isFinite hx hy hy0]
  exact roundsTo_round _ _ (magUnits_pos hy0)

theorem mul_of_isNaN {x y : F64} (h : isNaN x = true ∨ isNaN y = true) : mul x y = nan := by
  rcases h with h | h <;> simp [mul, h]

theorem div_of_isNaN {x y : F64} (h : isNaN x = true ∨ isNaN y = true) : div x y = nan := by
  rcases h with h | h <;> simp [div, h]

theorem mul_infinity_left (n : Bool) {x : F64} (hx : isNaN x = false) (hx0 : isZero x = false) :
    mul (infinity n) x = infinity (n != isNeg x) := by
  simp [mul, hx, hx0, ← infinity_eq_pack]

theorem mul_infinity_right (n : Bool) {x : F64} (hx : isNaN x = false) (hx0 : isZero x = false) :
    mul x (infinity n) = infinity (isNeg x != n) := by
  simp [mul, hx, hx0, ← infinity_eq_pack]

theorem div_zero_right (n : Bool) {x : F64} (hx : isNaN x = false) (hx0 : isZero x = false) :
    div x (zero n) = infinity (isNeg x != n) := by
  cases hinf : isInf x <;> simp [div, hx, hx0, hinf, ← infinity_eq_pack]

theorem div_infinity_left (n : Bool) {x : F64} (hx : isFinite x = true) :
    div (infinity n) x = infinity (n != isNeg x) := by
  simp [div, isNaN_of_isFinite hx, isInf_of_isFinite hx, ← infinity_eq_pack]

theorem div_infinity_right (n : Bool) {x : F64} (hx : isFinite x = true) :
    div x (infinity n) = zero (isNeg x != n) := by
  simp [div, isNaN_of_isFinite hx, isInf_of_isFinite hx, ← zero_eq_pack]

theorem mul_infinity_zero (n m : Bool) : mul (infinity n) (zero m) = nan ∧ mul (zero m) (infinity n) = nan := by
  simp [mul]

theorem div_zero_zero (n m : Bool) : div (zero n) (zero m) = nan := by simp [div]

theorem div_infinity_infinity (n m : Bool) : div (infinity n) (infinity m) = nan := by simp [div]

/-- Settles O42: finite operands take one rounding of an exact quotient of naturals, the others an equation for their class. -/
theorem productsAndQuotientsAreCorrectlyRounded : Obligations.ProductsAndQuotientsAreCorrectlyRounded := by
  refine ⟨fun x y hx hy => ⟨roundsTo_mul hx hy, ?_, fun hy0 => ⟨roundsTo_div hx hy hy0, ?_⟩⟩,
    fun x y hnan => ⟨?_, ?_⟩,
    fun n m x hx => ⟨fun hx0 => ⟨mul_infinity_left n hx hx0, mul_infinity_right n hx hx0, div_zero_right n hx hx0⟩,
      fun hfin => ⟨div_infinity_left n hfin, div_infinity_right n hfin⟩, ?_, ?_, ?_, ?_⟩⟩
  · rw [mul_of_isFinite hx hy, isNeg_round]
  · rw [div_of_isFinite hx hy hy0, isNeg_round]
  · rw [mul_of_isNaN hnan, isNaN_nan]
  · rw [div_of_isNaN hnan, isNaN_nan]
  · rw [(mul_infinity_zero n m).1, isNaN_nan]
  · rw [(mul_infinity_zero n m).2, isNaN_nan]
  · rw [div_zero_zero, isNaN_nan]
  · rw [div_infinity_infinity, isNaN_nan]

/-! ### Sums and differences -/

theorem add_of_isFinite {x y : F64} (hx : isFinite x = true) (hy : isFinite y = true) : add x y = addFinite x y := by
  simp [add, isNaN_of_isFinite hx, isNaN_of_isFinite hy, isInf_of_isFinite hx, isInf_of_isFinite hy]

theorem exactValue_add_eq_zero_iff (x y : F64) : exactValue x + exactValue y = 0 ↔ units x + units y = 0 := by
  rw [exactValue, exactValue, ← add_div, div_eq_zero_iff, or_iff_left (by positivity)]
  exact_mod_cast Iff.rfl

theorem addFinite_of_zero {x y : F64} (h : units x + units y = 0) :
    addFinite x y = if isNeg x && isNeg y then negZero else posZero := if_pos h

theorem addFinite_of_ne_zero {x y : F64} (h : units x + units y ≠ 0) :
    addFinite x y = round (decide (units x + units y < 0)) (units x + units y).natAbs 1 := if_neg h

theorem signFactor_mul_natAbs (u : ℤ) : signFactor (decide (u < 0)) * (u.natAbs : ℝ) = u := by
  rw [Nat.cast_natAbs, Int.cast_abs]
  rcases lt_or_ge u 0 with h | h
  · simp [signFactor, h, abs_of_neg (Int.cast_lt_zero.2 h)]
  · simp [signFactor, h.not_gt, abs_of_nonneg (Int.cast_nonneg h)]

theorem roundsTo_add {x y : F64} (hx : isFinite x = true) (hy : isFinite y = true) :
    RoundsTo ((exactValue x : ℝ) + (exactValue y : ℝ)) (add x y) := by
  have hvalue : (exactValue x : ℝ) + (exactValue y : ℝ) = ((units x + units y : ℤ) : ℝ) / 2 ^ 1074 := by
    rw [cast_exactValue, cast_exactValue, ← add_div, Int.cast_add]
  rw [hvalue, add_of_isFinite hx hy]
  by_cases h : units x + units y = 0
  · rw [addFinite_of_zero h, h, Int.cast_zero, zero_div]
    split
    · exact roundsTo_zero true
    · exact roundsTo_zero false
  · rw [addFinite_of_ne_zero h]
    have hround := roundsTo_round (decide (units x + units y < 0)) (units x + units y).natAbs one_pos
    rwa [Nat.cast_one, div_one, signFactor_mul_natAbs] at hround

theorem add_eq_zero_of_exactValue {x y : F64} (hx : isFinite x = true) (hy : isFinite y = true)
    (h : exactValue x + exactValue y = 0) :
    add x y = if isNeg x = true ∧ isNeg y = true then 0x8000000000000000#64 else 0x0000000000000000#64 := by
  simp only [add_of_isFinite hx hy, addFinite_of_zero ((exactValue_add_eq_zero_iff x y).1 h), Bool.and_eq_true, negZero, posZero]

theorem roundsTo_sub {x y : F64} (hx : isFinite x = true) (hy : isFinite y = true) :
    RoundsTo ((exactValue x : ℝ) - (exactValue y : ℝ)) (sub x y) := by
  have h := roundsTo_add hx ((isFinite_neg y).trans hy)
  rwa [exactValue_neg, Rat.cast_neg, ← sub_eq_add_neg] at h

theorem sub_eq_zero_of_exactValue {x y : F64} (hx : isFinite x = true) (hy : isFinite y = true)
    (h : exactValue x - exactValue y = 0) :
    sub x y = if isNeg x = true ∧ isNeg y = false then 0x8000000000000000#64 else 0x0000000000000000#64 := by
  simp only [sub, add_eq_zero_of_exactValue hx ((isFinite_neg y).trans hy) (by rwa [exactValue_neg, ← sub_eq_add_neg]),
    isNeg_neg, Bool.not_eq_true']

theorem add_of_isNaN {x y : F64} (h : isNaN x = true ∨ isNaN y = true) : add x y = nan := by
  rcases h with h | h <;> simp [add, h]

theorem sub_of_isNaN {x y : F64} (h : isNaN x = true ∨ isNaN y = true) : sub x y = nan :=
  add_of_isNaN (h.imp_right ((isNaN_neg y).trans ·))

theorem neg_eq_infinity_not_iff (x : F64) (n : Bool) : neg x = infinity (!n) ↔ x = infinity n := by
  rw [eq_infinity_iff, eq_infinity_iff, isInf, isInf, isNeg_neg, mag_neg, Bool.not_inj_iff]

theorem add_infinity_left {n : Bool} {x : F64} (hx : isNaN x = false) (hne : x ≠ infinity !n) :
    add (infinity n) x = infinity n := by
  rw [ne_eq, eq_infinity_iff, not_and, Bool.eq_not, not_not] at hne
  cases hinf : isInf x
  · simp [add, hx, hinf]
  · simp [add, hx, hinf, hne hinf]

theorem add_infinity_right {n : Bool} {x : F64} (hx : isNaN x = false) (hne : x ≠ infinity !n) :
    add x (infinity n) = infinity n := by
  cases hinf : isInf x
  · simp [add, hx, hinf]
  · have hsign : isNeg x = n := by
      rw [ne_eq, eq_infinity_iff, not_and, Bool.eq_not, not_not] at hne
      exact hne hinf
    rw [(eq_infinity_iff x n).2 ⟨hinf, hsign⟩]
    simp [add]

theorem add_infinity_opposite (n : Bool) : add (infinity n) (infinity !n) = nan := by simp [add]

/-! ### Comparisons -/

/-- The units of a value as a function of its `key`. -/
def unitsOfKey (k : ℤ) : ℤ := k.sign * unitsOfMag k.natAbs

theorem unitsOfKey_neg (k : ℤ) : unitsOfKey (-k) = -unitsOfKey k := by simp [unitsOfKey]

theorem unitsOfKey_natCast (m : ℕ) : unitsOfKey m = unitsOfMag m := by
  cases m with
  | zero => rfl
  | succ m => rw [unitsOfKey, Int.natAbs_natCast, Int.sign_eq_one_of_pos (Int.natCast_succ_pos m), one_mul]

theorem units_eq_unitsOfKey (x : F64) : units x = unitsOfKey (key x) := by
  rw [units, key, magUnits_eq]
  split
  · rw [unitsOfKey_neg, unitsOfKey_natCast]
  · rw [unitsOfKey_natCast]

theorem unitsOfKey_strictMono : StrictMono unitsOfKey := by
  refine strictMono_of_odd_strictMonoOn_nonneg unitsOfKey_neg fun a ha b hb hab => ?_
  obtain ⟨m, rfl⟩ := Int.eq_ofNat_of_zero_le ha
  obtain ⟨n, rfl⟩ := Int.eq_ofNat_of_zero_le hb
  rw [unitsOfKey_natCast, unitsOfKey_natCast]
  exact_mod_cast unitsOfMag_strictMono (Int.ofNat_lt.1 hab)

theorem natAbs_key (x : F64) : (key x).natAbs = mag x := by
  rw [key]
  split <;> simp

theorem isNeg_eq_key_neg {x : F64} (hx : mag x ≠ 0) : isNeg x = decide (key x < 0) := by
  rw [key]
  cases isNeg x with
  | false => simp
  | true => simpa using Nat.pos_of_ne_zero hx

theorem exactValue_lt_iff_key (x y : F64) : exactValue x < exactValue y ↔ key x < key y := by
  rw [exactValue, exactValue, div_lt_div_iff_of_pos_right (by positivity), Int.cast_lt, units_eq_unitsOfKey,
    units_eq_unitsOfKey, unitsOfKey_strictMono.lt_iff_lt]

theorem lt_iff_key {x y : F64} (hx : isNaN x = false) (hy : isNaN y = false) : lt x y = true ↔ key x < key y := by
  simp [lt, hx, hy]

theorem le_iff_key {x y : F64} (hx : isNaN x = false) (hy : isNaN y = false) : le x y = true ↔ key x ≤ key y := by
  simp [le, hx, hy]

theorem feq_iff_key {x y : F64} (hx : isNaN x = false) (hy : isNaN y = false) : feq x y = true ↔ key x = key y := by
  simp [feq, hx, hy]

theorem lt_iff_exactValue {x y : F64} (hx : isFinite x = true) (hy : isFinite y = true) :
    lt x y = true ↔ exactValue x < exactValue y := by
  rw [lt_iff_key (isNaN_of_isFinite hx) (isNaN_of_isFinite hy), exactValue_lt_iff_key]

theorem le_iff_exactValue {x y : F64} (hx : isFinite x = true) (hy : isFinite y = true) :
    le x y = true ↔ exactValue x ≤ exactValue y := by
  rw [le_iff_key (isNaN_of_isFinite hx) (isNaN_of_isFinite hy), ← not_lt, ← not_lt, exactValue_lt_iff_key]

theorem feq_iff_exactValue {x y : F64} (hx : isFinite x = true) (hy : isFinite y = true) :
    feq x y = true ↔ exactValue x = exactValue y := by
  rw [feq_iff_key (isNaN_of_isFinite hx) (isNaN_of_isFinite hy), exactValue_eq_iff, units_eq_unitsOfKey,
    units_eq_unitsOfKey, unitsOfKey_strictMono.injective.eq_iff]

theorem comparisons_of_isNaN {x y : F64} (h : isNaN x = true ∨ isNaN y = true) :
    lt x y = false ∧ le x y = false ∧ feq x y = false := by
  rcases h with h | h <;> simp [lt, le, feq, h]

theorem key_infinity (n : Bool) : key (infinity n) = if n then -(infMag : ℤ) else infMag := by cases n <;> rfl

/-- A `key` other than 0 has one value. -/
theorem eq_of_key_eq {x y : F64} (h : key x = key y) (hx : isZero x = false) : x = y := by
  have hmag0 : mag x ≠ 0 := by simpa [isZero] using hx
  have hmag : mag x = mag y := by rw [← natAbs_key, h, natAbs_key]
  have hsign : isNeg x = isNeg y := by rw [isNeg_eq_key_neg hmag0, isNeg_eq_key_neg (hmag ▸ hmag0), h]
  exact eq_iff_isNeg_mag.2 ⟨hsign, hmag⟩

theorem key_eq_key_infinity_iff (x : F64) (n : Bool) : key x = key (infinity n) ↔ x = infinity n :=
  ⟨fun h => (eq_of_key_eq h.symm (isZero_infinity n)).symm, congrArg key⟩

theorem key_infinity_true_le {x : F64} (hx : isNaN x = false) : key (infinity true) ≤ key x := by
  have := mag_le_infMag hx
  rw [key_infinity, if_pos rfl, key]
  split <;> omega

theorem key_le_infinity_false {x : F64} (hx : isNaN x = false) : key x ≤ key (infinity false) := by
  have := mag_le_infMag hx
  rw [key_infinity, if_neg (by decide), key]
  split <;> omega

/-- The infinities stand at the two ends of the order, and equal only themselves. -/
theorem comparisons_with_infinity (n : Bool) {x : F64} (hx : isNaN x = false) :
    (lt (infinity true) x = true ↔ x ≠ infinity true) ∧ (lt x (infinity false) = true ↔ x ≠ infinity false) ∧
    lt x (infinity true) = false ∧ lt (infinity false) x = false ∧
    le (infinity true) x = true ∧ le x (infinity false) = true ∧
    (le x (infinity true) = true ↔ x = infinity true) ∧ (le (infinity false) x = true ↔ x = infinity false) ∧
    (feq x (infinity n) = true ↔ x = infinity n) ∧ (feq (infinity n) x = true ↔ x = infinity n) := by
  have hlow := key_infinity_true_le hx
  have hhigh := key_le_infinity_false hx
  have hinf : ∀ m, isNaN (infinity m) = false := isNaN_infinity
  simp only [← Bool.not_eq_true, lt_iff_key, le_iff_key, feq_iff_key, hx, hinf, ← key_eq_key_infinity_iff, not_lt, ne_eq]
  refine ⟨?_, ?_, hlow, hhigh, hlow, hhigh, ?_, ?_, trivial, eq_comm⟩ <;> omega

/-- Settles O41: a sum is one rounding of an exact integer of units, a difference the sum with the negative, and comparisons
go by `key`, of which the exact value is a strictly monotone function. -/
theorem sumsAreCorrectlyRounded : Obligations.SumsAreCorrectlyRounded := by
  refine ⟨fun x y hx hy => ⟨roundsTo_add hx hy, roundsTo_sub hx hy, add_eq_zero_of_exactValue hx hy,
    sub_eq_zero_of_exactValue hx hy, lt_iff_exactValue hx hy, le_iff_exactValue hx hy, feq_iff_exactValue hx hy⟩,
    fun x y hnan => ⟨?_, ?_, comparisons_of_isNaN hnan⟩,
    fun n x hx => ⟨fun hne => ⟨add_infinity_left hx hne, add_infinity_right hx hne, ?_⟩, fun hne => ?_, ?_, ?_,
      comparisons_with_infinity n hx⟩⟩
  · rw [add_of_isNaN hnan, isNaN_nan]
  · rw [sub_of_isNaN hnan, isNaN_nan]
  · rw [sub, neg_infinity, Bool.not_not, add_infinity_right hx hne]
  · rw [sub, add_infinity_left ((isNaN_neg x).trans hx)]
    rwa [ne_eq, neg_eq_infinity_not_iff]
  · rw [add_infinity_opposite, isNaN_nan]
  · rw [sub, neg_infinity, add_infinity_opposite, isNaN_nan]

/-! ### Square roots -/

/-- With one unit of the first argument for each binary digit of the root, `isqrt` is the whole square root. -/
theorem isqrt_eq_sqrt {f n : ℕ} (h : n < 4 ^ f) : isqrt f n = n.sqrt := by
  induction f generalizing n with
  | zero =>
    obtain rfl : n = 0 := by simpa using h
    rfl
  | succ f ih =>
    rw [pow_succ] at h
    simp only [isqrt, ih (n := n / 4) (by omega)]
    obtain ⟨hle, hlt⟩ := Nat.eq_sqrt.1 (rfl : (n / 4).sqrt = (n / 4).sqrt)
    generalize (n / 4).sqrt = r at *
    have hodd : (2 * r + 1) * (2 * r + 1) = 4 * (r * r) + 4 * r + 1 := by ring
    have heven : 2 * r * (2 * r) = 4 * (r * r) := by ring
    have hnext : (2 * r + 1 + 1) * (2 * r + 1 + 1) = 4 * ((r + 1) * (r + 1)) := by ring
    split <;> rw [Nat.eq_sqrt] <;> omega

/-- Magnitudes whose last place is `2 ^ (q + 1)` units or more are whole multiples of it. -/
theorem pow_dvd_unitsOfMag {q k : ℕ} (h : (q + 2) * 2 ^ 52 ≤ k) : 2 ^ (q + 1) ∣ unitsOfMag k := by
  obtain ⟨e, m, rfl, hlow, hm⟩ := exists_place k
  rw [unitsOfMag_place hlow hm.le]
  exact (pow_dvd_pow 2 (by omega)).mul_left m

/-- Two numbers strictly between the same neighbouring multiples of `2 ^ q` round alike when they have 55 bits or more before
that place: every midpoint near them is such a multiple, so that none lies between them. -/
theorem RoundsToMag.of_same_gap {v w : ℝ} {t q m : ℕ} (h : RoundsToMag w m) (ht : 2 ^ 54 ≤ t)
    (hw : t * 2 ^ q < w ∧ w < (t + 1) * 2 ^ q) (hv : t * 2 ^ q < v ∧ v < (t + 1) * 2 ^ q) : RoundsToMag v m := by
  have hpos : (0 : ℝ) < 2 ^ q := by positivity
  have hbig : (q + 2) * 2 ^ 52 < m := by
    by_contra hsmall
    have hsum : (neighbourSum m : ℝ) ≤ ((2 * 2 ^ 52 + 1) * 2 ^ (q + 1) : ℕ) := by
      rw [← neighbourSum_place (.inr le_rfl) (by norm_num)]
      exact Nat.cast_le.2 (neighbourSum_strictMono.monotone (by omega))
    have hup := h.upper_le
    have hlow : (2 ^ 54 : ℝ) * 2 ^ q ≤ t * 2 ^ q := mul_le_mul_of_nonneg_right (mod_cast ht) hpos.le
    push_cast [pow_succ (2 : ℝ) q] at hsum
    linarith [hw.1]
  have hmidpoint : ∀ k, (q + 2) * 2 ^ 52 ≤ k → ∃ c : ℕ, (neighbourSum k : ℝ) = 2 * (c * 2 ^ q) := by
    intro k hk
    obtain ⟨c, hc⟩ := (pow_dvd_unitsOfMag hk).add (pow_dvd_unitsOfMag (hk.trans k.le_succ))
    refine ⟨c, ?_⟩
    rw [neighbourSum, hc, pow_succ]
    push_cast
    ring
  have hbelow : ∀ c : ℕ, (c : ℝ) * 2 ^ q ≤ w → c * 2 ^ q < v := by
    intro c hc
    have : (c : ℝ) < (t + 1 : ℕ) := by
      push_cast
      exact lt_of_mul_lt_mul_right (hc.trans_lt hw.2) hpos.le
    have : (c : ℝ) ≤ t := Nat.cast_le.2 (Nat.lt_succ_iff.1 (Nat.cast_lt.1 this))
    exact (mul_le_mul_of_nonneg_right this hpos.le).trans_lt hv.1
  have habove : ∀ c : ℕ, w ≤ (c : ℝ) * 2 ^ q → v < c * 2 ^ q := by
    intro c hc
    have : (t : ℝ) < c := lt_of_mul_lt_mul_right (hw.1.trans_le hc) hpos.le
    have : (t + 1 : ℝ) ≤ c := by exact_mod_cast Nat.cast_lt.1 this
    exact hv.2.trans_le (mul_le_mul_of_nonneg_right this hpos.le)
  refine ⟨fun k hk => .inl ?_, .inl ?_⟩
  · obtain ⟨c, hc⟩ := hmidpoint k (by omega)
    have hlow := h.lower_le hk
    rw [hc] at hlow ⊢
    linarith [hbelow c (by linarith)]
  · obtain ⟨c, hc⟩ := hmidpoint m hbig.le
    have hup := h.upper_le
    rw [hc] at hup ⊢
    linarith [habove c (by linarith)]

/-- Half the number of bits that `sqrtUnits` drops from `z` before it takes the whole root. -/
def droppedDigits (z : ℕ) : ℕ := (Nat.log2 z - 110) / 2

/-- Of a significand of at most 53 bits with zeros behind it, the dropped bits are zeros, and more than 110 bits are kept. -/
theorem droppedDigits_spec {s k : ℕ} (hpos : 0 < s) (hs : s < 2 ^ 53) (hk : 110 ≤ k) :
    2 ^ (2 * droppedDigits (s * 2 ^ k)) ∣ s * 2 ^ k ∧ 2 ^ 110 ≤ s * 2 ^ k / 2 ^ (2 * droppedDigits (s * 2 ^ k)) := by
  have hne : s * 2 ^ k ≠ 0 := (Nat.mul_pos hpos (by positivity)).ne'
  have hupper : Nat.log2 (s * 2 ^ k) < 53 + k := by
    rw [Nat.log2_lt hne, pow_add]
    exact Nat.mul_lt_mul_of_pos_right hs (by positivity)
  have hlower : k ≤ Nat.log2 (s * 2 ^ k) := by
    rw [Nat.le_log2 hne]
    exact Nat.le_mul_of_pos_left _ hpos
  rw [droppedDigits]
  constructor
  · exact (pow_dvd_pow 2 (by omega)).mul_left s
  · rw [Nat.le_div_iff_mul_le (by positivity), ← pow_add]
    exact (Nat.pow_le_pow_right (by decide) (by omega)).trans (Nat.log2_self_le hne)

/-- Twice the number that `sqrtUnits` rounds for the root of `r * 2 ^ (2 * q)`: the whole root of `r`, and one half for whatever
lies beyond it, times `2 ^ q`. -/
def doubledRoot (r q : ℕ) : ℕ := (2 * r.sqrt + if r.sqrt * r.sqrt = r then 0 else 1) * 2 ^ q

theorem sqrtUnits_eq (u : ℕ) : sqrtUnits u =
    round false (doubledRoot (u * 2 ^ 1074 / 2 ^ (2 * droppedDigits (u * 2 ^ 1074))) (droppedDigits (u * 2 ^ 1074))) 2 := by
  have hisqrt : ∀ n, isqrt (Nat.log2 n / 2 + 1) n = n.sqrt := fun n => isqrt_eq_sqrt <| by
    rw [show 4 = 2 ^ 2 from rfl, ← pow_mul]
    exact Nat.lt_log2_self.trans_le (Nat.pow_le_pow_right (by decide) (by omega))
  rw [← Nat.shiftLeft_eq u 1074, sqrtUnits]
  generalize u <<< 1074 = z
  simp only [hisqrt, Nat.shiftLeft_eq, Nat.shiftRight_eq_div_pow, doubledRoot, droppedDigits]
  rfl

/-- No midpoint lies between the exact root and the number that `sqrtUnits` rounds for it. -/
theorem roundsToMag_sqrt {r : ℕ} (q : ℕ) (hr : 2 ^ 110 ≤ r) :
    RoundsToMag (√r * 2 ^ q) (unclampedMag (doubledRoot r q) 2) := by
  have hround := roundsToMag_unclampedMag (doubledRoot r q) two_pos
  have hpos : (0 : ℝ) < 2 ^ q := by positivity
  by_cases hwhole : r.sqrt * r.sqrt = r
  · have hdoubled : (doubledRoot r q : ℝ) / 2 = r.sqrt * 2 ^ q := by
      rw [doubledRoot, if_pos hwhole]
      push_cast
      ring
    have hroot : √(r : ℝ) = r.sqrt := by
      rw [Real.sqrt_eq_iff_mul_self_eq (by positivity) (by positivity)]
      exact_mod_cast hwhole.symm
    rwa [Nat.cast_ofNat, hdoubled, ← hroot] at hround
  · have hdoubled : (doubledRoot r q : ℝ) / 2 = (r.sqrt + 1 / 2) * 2 ^ q := by
      rw [doubledRoot, if_neg hwhole]
      push_cast
      ring
    rw [Nat.cast_ofNat, hdoubled] at hround
    have hlow : (r.sqrt : ℝ) < √r := by
      rw [Real.lt_sqrt (by positivity), sq]
      exact_mod_cast lt_of_le_of_ne (Nat.sqrt_le r) hwhole
    have hhigh : √(r : ℝ) < r.sqrt + 1 := by
      rw [Real.sqrt_lt' (by positivity), sq]
      exact_mod_cast Nat.lt_succ_sqrt r
    refine hround.of_same_gap (t := r.sqrt) (q := q) ?_ ⟨?_, ?_⟩ ⟨?_, ?_⟩
    · exact Nat.le_sqrt'.2 ((by norm_num : (2 ^ 54) ^ 2 ≤ 2 ^ 110).trans hr)
    · exact mul_lt_mul_of_pos_right (by linarith) hpos
    · exact mul_lt_mul_of_pos_right (by linarith) hpos
    · exact mul_lt_mul_of_pos_right hlow hpos
    · exact mul_lt_mul_of_pos_right hhigh hpos

theorem sqrt_div_of_mul_eq {u c r p : ℝ} (hc : 0 < c) (hp : 0 ≤ p) (hr : 0 ≤ r) (h : u * c = p ^ 2 * r) :
    √(u / c) = √r * p / c := by
  have hsquare : u / c = (√r * p / c) ^ 2 := by
    rw [div_pow, mul_pow, Real.sq_sqrt hr, mul_comm r, ← h, sq, mul_div_mul_right _ _ hc.ne']
  rw [hsquare, Real.sqrt_sq (by positivity)]

theorem roundsTo_sqrtUnits {m : ℕ} (hm : 0 < m) :
    RoundsTo (√(unitsOfMag m / 2 ^ 1074)) (sqrtUnits (unitsOfMag m)) := by
  have hunits : 0 < unitsOfMag m := unitsOfMag_zero ▸ unitsOfMag_strictMono hm
  obtain ⟨e, s, rfl, hlow, hs⟩ := exists_place m
  rw [unitsOfMag_place hlow hs.le] at hunits ⊢
  obtain ⟨hdvd, hkept⟩ := droppedDigits_spec (k := e + 1074) (Nat.pos_of_mul_pos_right hunits) hs (by omega)
  rw [pow_add, ← mul_assoc] at hdvd hkept
  rw [sqrtUnits_eq]
  generalize s * 2 ^ e = u at *
  generalize droppedDigits (u * 2 ^ 1074) = q at *
  obtain ⟨r, hr⟩ := hdvd
  have hroot : √(u / 2 ^ 1074 : ℝ) = signFactor false * (√r * 2 ^ q) / 2 ^ 1074 := by
    have hsquare : (u : ℝ) * 2 ^ 1074 = (2 ^ q) ^ 2 * r := by
      rw [← pow_mul, mul_comm q]
      simpa only [Nat.cast_mul, Nat.cast_pow, Nat.cast_ofNat] using congrArg (Nat.cast (R := ℝ)) hr
    rw [sqrt_div_of_mul_eq (by positivity) (by positivity) (Nat.cast_nonneg r) hsquare, signFactor,
      if_neg Bool.false_ne_true, one_mul]
  rw [hr, Nat.mul_div_cancel_left _ (by positivity)] at hkept ⊢
  rw [hroot]
  exact (roundsToMag_sqrt q hkept).roundsTo (by positivity) false

theorem roundsTo_sqrt {x : F64} (hx : isFinite x = true) (hsign : isNeg x = false) :
    RoundsTo (√(exactValue x : ℝ)) (sqrt x) := by
  rw [cast_exactValue, cast_units, hsign, signFactor, if_neg Bool.false_ne_true, one_mul]
  rcases Nat.eq_zero_or_pos (mag x) with h0 | hpos
  · have hsqrt : sqrt x = pack false 0 := by
      rw [← pack_isNeg_mag x, hsign, h0]
      rfl
    rw [hsqrt, h0, unitsOfMag_zero, Nat.cast_zero, zero_div, Real.sqrt_zero]
    exact roundsTo_zero false
  · have hsqrt : sqrt x = sqrtUnits (unitsOfMag (mag x)) := by
      simp [sqrt, isNaN_of_isFinite hx, isInf_of_isFinite hx, hsign, isZero, hpos.ne', magUnits_eq]
    rw [hsqrt]
    exact roundsTo_sqrtUnits hpos

/-- Settles O43: the root of a positive finite value rounds as the whole root with a half for what lies beyond it. -/
theorem squareRootsAreCorrectlyRounded : Obligations.SquareRootsAreCorrectlyRounded := by
  refine ⟨fun x => roundsTo_sqrt, fun n => ?_, rfl, fun x h => ?_⟩
  · simp [sqrt]
  · rcases h with hnan | ⟨hneg, hzero⟩
    · simp [sqrt, hnan]
    · cases hnan : isNaN x <;> simp [sqrt, hnan, hneg, hzero]

/-! ### The matrix scalar -/

theorem exactValue_half : (exactValue 0x3FE0000000000000#64 : ℝ) = 1 / 2 := by
  have hmag : mag 0x3FE0000000000000#64 = 1021 * 2 ^ 52 + 2 ^ 52 := rfl
  have hsign : isNeg 0x3FE0000000000000#64 = false := rfl
  have hscale : (2 : ℝ) ^ 1074 = 2 ^ 52 * 2 ^ 1021 * 2 := by rw [← pow_add, ← pow_succ]
  rw [cast_exactValue, cast_units, hmag, hsign, unitsOfMag_place (.inr le_rfl) (by norm_num), signFactor,
    if_neg Bool.false_ne_true, one_mul, hscale, Nat.cast_mul, Nat.cast_pow, Nat.cast_pow, Nat.cast_ofNat,
    div_mul_cancel_left₀ (by positivity), one_div]

/-- Settles O44: the matrix scalar is `sqrt` of one half, and the root of one half is half the root of two. -/
theorem matrixScalarIsNearestToHalfRootTwo : Obligations.MatrixScalarIsNearestToHalfRootTwo := by
  refine ⟨rfl, ?_, rfl⟩
  have hcoef : coefC = sqrt 0x3FE0000000000000#64 := by decide +kernel
  have hroot : √2 / 2 = √(exactValue 0x3FE0000000000000#64 : ℝ) := by
    rw [exactValue_half, one_div, Real.sqrt_inv, Real.sqrt_div_self', one_div]
  rw [hcoef, hroot]
  exact roundsTo_sqrt rfl rfl

end Sys2Proof.F64
end

section
/-! SUPPORT. What the commands and the host's accesses change, said once: every outcome of a command, the stores it makes in
the buffers, and what no host access changes (R46 to R51, R77, R78). -/

namespace Sys2Proof.Machine

open Sys2Proof

/-! ### Stores inside a range of offsets -/

/-- `m'` is `m` after any number of stores between the offsets `lo` and `hi`. -/
inductive StoresWithin (lo hi : Nat) (m : Memory) : Memory → Prop
  | none : StoresWithin lo hi m m
  | store {m' : Memory} {a : Nat} {bs : List Byte} (h : StoresWithin lo hi m m') (ha : lo ≤ a) (hb : a + bs.length ≤ hi) :
      StoresWithin lo hi m (m'.writeBytes a bs)

theorem StoresWithin.readByte {lo hi x : Nat} {m m' : Memory} (h : StoresWithin lo hi m m') (hx : x < lo ∨ hi ≤ x) :
    m'.readByte x = m.readByte x := by
  induction h with
  | none => rfl
  | store _ ha hb ih => rw [Memory.readByte_writeBytes_of_not_mem _ _ _ _ (by omega), ih]

theorem StoresWithin.wf {lo hi : Nat} {m m' : Memory} (h : StoresWithin lo hi m m') (hm : m.wf) : m'.wf := by
  induction h with
  | none => exact hm
  | store _ _ _ ih => exact Memory.wf_writeBytes _ _ _ ih

theorem StoresWithin.inBuffers {lo hi : Nat} {m m' : Memory} (h : StoresWithin lo hi m m') (hlo : bufferBase ≤ lo)
    (hhi : hi ≤ bufferEnd) (hm : m.inBuffers) : m'.inBuffers := by
  induction h with
  | none => exact hm
  | store _ ha hb ih => exact Memory.inBuffers_writeBytes _ _ _ ih (by omega) (by omega)

/-- Stores of binary64 values inside the range. -/
theorem StoresWithin.writeF64s {lo hi a : Nat} {m m' : Memory} {xs : List F64} (h : StoresWithin lo hi m m') (ha : lo ≤ a)
    (hb : a + 8 * xs.length ≤ hi) : StoresWithin lo hi m (m'.writeF64s a xs) :=
  h.store ha (by simpa using hb)

/-- The samples of one channel stay inside `OUT` (R47, R71). -/
theorem StoresWithin.writeOut {m m' : Memory} {src : NaNSource} {ch : Nat} {xs : List F64}
    (h : StoresWithin 0x300000 0x500000 m m') (hch : ch < 4) (hxs : xs.length ≤ Config.nMax) :
    StoresWithin 0x300000 0x500000 m (writeOut src ch xs m') := by
  simp only [Config.nMax] at hxs
  refine h.writeF64s ?_ ?_ <;> simp only [outAddr, publishFrom_length] <;> omega

/-! ### Sizes in a hop (R50, R51, R167) -/

theorem Quad.each_ofFn {α : Type} {P : α → Prop} {f : Nat → α} (h : ∀ i, i < 4 → P (f i)) : (Quad.ofFn f).Each P :=
  ⟨h 0 (by decide), h 1 (by decide), h 2 (by decide), h 3 (by decide)⟩

theorem Quad.Each.get {α : Type} {P : α → Prop} {q : Quad α} (h : q.Each P) : ∀ i, P (q.get i)
  | 0 => h.1
  | 1 => h.2.1
  | 2 => h.2.2.1
  | _ + 3 => h.2.2.2

theorem Quad.each_all {α : Type} {P : α → Prop} {a : α} (h : P a) : (Quad.all a).Each P := ⟨h, h, h, h⟩

theorem hopInputs_length (m : Memory) {h cnt : Nat} (hc : cnt ≤ h) : (hopInputs m h cnt).Each (fun u => u.length = h) :=
  Quad.each_ofFn fun l _ => hopInput_length m l h cnt hc

section
variable {c : Latched} {t : Quad Lane} {u : Quad (List F64)} (hc : c.Wf) (ht : t.Each (Lane.Sized c.o))
  (hu : u.Each (fun x => x.length = c.h))
include hc ht hu

theorem encodeTails_sized : (encodeTails (encodeLanes c t u)).Each (Lane.Sized c.o) := by
  obtain ⟨t0, t1, t2, t3⟩ := ht
  obtain ⟨u0, u1, u2, u3⟩ := hu
  exact ⟨(laneDelay_length c hc _ t0 _ u0).2, (laneDelay_length c hc _ t1 _ u1).2, (laneHilbert_length c hc _ t2 _ u2).2.2,
    (laneHilbert_length c hc _ t3 _ u3).2.2⟩

theorem encodeLT_length : (encodeLT (encodeLanes c t u)).length = c.h := by
  obtain ⟨t0, -, t2, t3⟩ := ht
  obtain ⟨u0, -, u2, u3⟩ := hu
  exact mixLT_length _ _ _ _ (laneDelay_length c hc _ t0 _ u0).1 (laneHilbert_length c hc _ t3 _ u3).1
    (laneHilbert_length c hc _ t2 _ u2).2.1

theorem encodeRT_length : (encodeRT (encodeLanes c t u)).length = c.h := by
  obtain ⟨-, t1, t2, t3⟩ := ht
  obtain ⟨-, u1, u2, u3⟩ := hu
  exact mixRT_length _ _ _ _ (laneDelay_length c hc _ t1 _ u1).1 (laneHilbert_length c hc _ t2 _ u2).1
    (laneHilbert_length c hc _ t3 _ u3).2.1

theorem decodeTails_sized : (decodeTails (decodeLanes c t u) t).Each (Lane.Sized c.o) := by
  obtain ⟨t0, t1, t2, t3⟩ := ht
  obtain ⟨u0, u1, -, -⟩ := hu
  exact ⟨(laneHilbert_length c hc _ t0 _ u0).2.2, (laneHilbert_length c hc _ t1 _ u1).2.2, t2, t3⟩

theorem decodeMix_length : (decodeMix (decodeLanes c t u)).length = c.h := by
  obtain ⟨t0, t1, -, -⟩ := ht
  obtain ⟨u0, u1, -, -⟩ := hu
  obtain ⟨yo0, yh0, -⟩ := laneHilbert_length c hc _ t0 _ u0
  obtain ⟨yo1, yh1, -⟩ := laneHilbert_length c hc _ t1 _ u1
  exact mixDecode_length _ _ _ _ _ yo0 yo1 yh0 yh1

end

/-- Steering keeps the sizes of the histories (R181). -/
theorem steer_hist_length {p : SteerParams} (hp : p.Wf) {st : SteerState} (d : Quad F64)
    (h : st.hist.Each (fun x => x.length = Config.kMax)) : (steer p st d).1.hist.Each (fun x => x.length = Config.kMax) := by
  obtain ⟨⟨hk, hkmax⟩, -⟩ := hp
  refine Quad.each_ofFn (f := fun ch => pushHist p.k (st.hist.get ch) (d.get ch)) fun ch _ => ?_
  have hlen := h.get ch
  rw [pushHist_length _ _ _ hk (by omega), hlen]

theorem steerAll_hist_length {p : SteerParams} (hp : p.Wf) (ds : List (Quad F64)) {st : SteerState}
    (h : st.hist.Each (fun x => x.length = Config.kMax)) : (steerAll p st ds).1.hist.Each (fun x => x.length = Config.kMax) := by
  induction ds generalizing st with
  | nil => exact h
  | cons d ds ih => exact ih (steer_hist_length hp d h)

@[simp] theorem decodeSamples_length (c : Latched) (src : NaNSource) (d : List (Quad F64)) (st : SteerState) :
    (decodeSamples c src d st).2.length = d.length := by
  unfold decodeSamples
  split
  · rfl
  · exact steerAll_length ..

theorem decodeSamples_hist_length {c : Latched} (hc : c.Wf) (src : NaNSource) (d : List (Quad F64)) {st : SteerState}
    (h : st.hist.Each (fun x => x.length = Config.kMax)) :
    (decodeSamples c src d st).1.hist.Each (fun x => x.length = Config.kMax) := by
  obtain ⟨-, -, -, -, hsteer⟩ := hc
  unfold decodeSamples
  split
  · exact h
  · rename_i p hp
    rw [hp] at hsteer
    exact steerAll_hist_length hsteer.2 d h

/-- Without steering a hop leaves histories and gains (R180). -/
theorem decodeSamples_of_no_steering {c : Latched} (h : c.steer = none) (src : NaNSource) (d : List (Quad F64))
    (st : SteerState) : decodeSamples c src d st = (st, d) := by
  simp [decodeSamples, h]

/-- A block holds more samples than a hop takes. -/
theorem Latched.Wf.h_le {c : Latched} (hc : c.Wf) : c.h ≤ Config.nMax := by
  obtain ⟨⟨-, -, hn⟩, -, hh, -⟩ := hc
  omega

/-! ### What a hop and a transform store -/

theorem hopEffect_stores {c : Latched} {cnt : Nat} {s : State} (hi : streamInv s (some c)) (hcnt : cnt ≤ c.h) :
    StoresWithin 0x300000 0x500000 s.mem (hopEffect c cnt s).mem := by
  obtain ⟨hc, ht, -, -⟩ := hi
  have hu := hopInputs_length s.mem hcnt
  have hh := hc.h_le
  cases hm : c.mode with
  | encode =>
    simp only [hopEffect, hm, hopEncode]
    exact (StoresWithin.none.writeOut (by decide) ((encodeLT_length hc ht hu).trans_le hh)).writeOut (by decide)
      ((encodeRT_length hc ht hu).trans_le hh)
  | decode =>
    have hd := (decodeMix_length hc ht hu).trans_le hh
    simp only [hopEffect, hm, hopDecode, writeDecoded]
    refine (((StoresWithin.none.writeOut ?_ ?_).writeOut ?_ ?_).writeOut ?_ ?_).writeOut ?_ ?_ <;> simp [hd]

theorem writeFftw_stores {n : Nat} {xs : List Cx} {s : State} (hn : n ≤ Config.nMax) (hxs : xs.length = n) :
    StoresWithin 0x500000 0x600000 s.mem (writeFftw xs s).mem := by
  simp only [Config.nMax] at hn
  refine StoresWithin.none.writeF64s ?_ ?_ <;> simp only [fftReAddr, publishFrom_length, f64sOfCxs_length] <;> omega

/-! ### Every outcome of a command -/

/-- What a command can do: one constructor for each end of each command (R104, R200 to R206). -/
inductive Performs (s : State) : Instr → State → Prop
  | nop : Performs s .nop (complete 0x00#8 0#4 0x00#8 s)
  | configureFailed (e : CmdError) (h : validate s = .error e) :
      Performs s .configure (complete 0x01#8 e.code e.detail (unconfigure s))
  | configured (c : Latched) (h : validate s = .ok c) :
      Performs s .configure (complete 0x01#8 0#4 0x00#8 (coldStart c.o { s with cfg := some c }))
  | clearFailed (h : s.cfg = none) : Performs s .clear (complete 0x02#8 5#4 0x51#8 s)
  | cleared (c : Latched) (h : s.cfg = some c) : Performs s .clear (complete 0x02#8 0#4 0x00#8 (coldStart c.o s))
  | hopFailed (nch : Nat) (cnt : Int) (e : CmdError) (h : checkHop nch cnt s.cfg = .error e) :
      Performs s (.hop nch cnt) (complete 0x03#8 e.code e.detail s)
  | hopped (nch : Nat) (cnt : Int) (c : Latched) (h : checkHop nch cnt s.cfg = .ok c) :
      Performs s (.hop nch cnt) (complete 0x03#8 0#4 0x00#8 (hopEffect c cnt.toNat s))
  | fftFwdFailed (h : s.cfg = none) : Performs s .fftFwd (complete 0x04#8 5#4 0x51#8 s)
  | fftFwd (c : Latched) (h : s.cfg = some c) :
      Performs s .fftFwd (complete 0x04#8 0#4 0x00#8 (writeFftw (fft c.n (readFftw s.mem c.n)) s))
  | fftInvFailed (h : s.cfg = none) : Performs s .fftInv (complete 0x05#8 5#4 0x51#8 s)
  | fftInv (c : Latched) (h : s.cfg = some c) :
      Performs s .fftInv (complete 0x05#8 0#4 0x00#8 (writeFftw (ifft c.n (readFftw s.mem c.n)) s))
  | softReset : Performs s .softReset (softResetState s)

/-- Every command answers a next state, and it is one of the outcomes. -/
theorem exec_performs (i : Instr) (s : State) : ∃ t, exec i s = .next t ∧ Performs s i t := by
  cases i with
  | nop => exact ⟨_, rfl, .nop⟩
  | configure =>
    obtain ⟨e, h, hx⟩ | ⟨c, h, hx⟩ := execConfigure_cases s
    · exact ⟨_, hx, .configureFailed e h⟩
    · exact ⟨_, hx, .configured c h⟩
  | clear =>
    obtain ⟨h, hx⟩ | ⟨c, h, hx⟩ := execClear_cases s
    · exact ⟨_, hx, .clearFailed h⟩
    · exact ⟨_, hx, .cleared c h⟩
  | hop nch cnt =>
    obtain ⟨e, h, hx⟩ | ⟨c, h, hx⟩ := execHop_cases nch cnt s
    · exact ⟨_, hx, .hopFailed nch cnt e h⟩
    · exact ⟨_, hx, .hopped nch cnt c h⟩
  | fftFwd =>
    obtain ⟨h, hx⟩ | ⟨c, h, hx⟩ := execFftFwd_cases s
    · exact ⟨_, hx, .fftFwdFailed h⟩
    · exact ⟨_, hx, .fftFwd c h⟩
  | fftInv =>
    obtain ⟨h, hx⟩ | ⟨c, h, hx⟩ := execFftInv_cases s
    · exact ⟨_, hx, .fftInvFailed h⟩
    · exact ⟨_, hx, .fftInv c h⟩
  | softReset => exact ⟨_, rfl, .softReset⟩

theorem performs_of_exec {i : Instr} {s t : State} (h : exec i s = .next t) : Performs s i t := by
  obtain ⟨t', ht, hp⟩ := exec_performs i s
  obtain rfl : t' = t := by simpa using ht.symm.trans h
  exact hp

/-- The offsets that a command may store to: `OUT` for HOP, `FFTW` for the transforms (R47, R48). -/
def storeRange : Instr → Nat × Nat
  | .hop _ _ => (0x300000, 0x500000)
  | .fftFwd | .fftInv => (0x500000, 0x600000)
  | .nop | .configure | .clear | .softReset => (0x300000, 0x300000)

theorem Performs.stores {i : Instr} {s t : State} (h : Performs s i t) (hi : s.Inv) :
    StoresWithin (storeRange i).1 (storeRange i).2 s.mem t.mem := by
  obtain ⟨-, hstream, -⟩ := hi
  cases h with
  | hopped nch cnt c h =>
    obtain ⟨hcfg, -, h0, hle⟩ := (checkHop_ok nch cnt s.cfg c).1 h
    rw [hcfg] at hstream
    exact hopEffect_stores hstream (by omega)
  | fftFwd c h =>
    rw [h] at hstream
    obtain ⟨⟨⟨hpow, -, hmax⟩, -⟩, -⟩ := hstream
    exact writeFftw_stores hmax (fft_length c.n hpow _ (readFftw_length _ _))
  | fftInv c h =>
    rw [h] at hstream
    obtain ⟨⟨⟨hpow, -, hmax⟩, -⟩, -⟩ := hstream
    exact writeFftw_stores hmax (ifft_length c.n hpow _ (readFftw_length _ _))
  | nop | configureFailed | configured | clearFailed | cleared | hopFailed | fftFwdFailed | fftInvFailed | softReset =>
    exact .none

theorem storeRange_inBuffers (i : Instr) : bufferBase ≤ (storeRange i).1 ∧ (storeRange i).2 ≤ bufferEnd := by
  cases i <;> simp [storeRange, bufferBase, bufferEnd]

/-! ### The invariant, command by command -/

/-- The codes of a success stand in R242's table. -/
theorem mem_statusPairs_ok : (0#4, 0x00#8) ∈ statusPairs := by decide

/-- The codes of a failing check stand in R242's table. -/
theorem CmdError.mem_statusPairs (e : CmdError) : (e.code, e.detail) ∈ statusPairs := by cases e <;> decide

theorem coldStart_streamInv {c : Latched} (hc : c.Wf) (s : State) : streamInv (coldStart c.o s) (some c) :=
  ⟨hc, Quad.each_all ⟨List.length_replicate, List.length_replicate⟩, Quad.each_all List.length_replicate, fun _ => rfl⟩

theorem hopEffect_streamInv {c : Latched} {cnt : Nat} {s : State} (hi : streamInv s (some c)) (hcnt : cnt ≤ c.h) :
    streamInv (hopEffect c cnt s) (some c) := by
  obtain ⟨hc, ht, hh, hg⟩ := hi
  have hu := hopInputs_length s.mem hcnt
  cases hm : c.mode with
  | encode =>
    simp only [hopEffect, hm]
    exact ⟨hc, encodeTails_sized hc ht hu, hh, hg⟩
  | decode =>
    simp only [hopEffect, hm]
    refine ⟨hc, decodeTails_sized hc ht hu, decodeSamples_hist_length hc _ _ hh, fun hsteer => ?_⟩
    simpa only [hopDecode, decodeSamples_of_no_steering hsteer] using hg hsteer

/-- The latch and the stream state fit each other after every command (R49 to R51, R180). -/
theorem Performs.keeps_streamInv {i : Instr} {s t : State} (h : Performs s i t) (hi : streamInv s s.cfg) :
    streamInv t t.cfg := by
  cases h with
  | configured c h => exact coldStart_streamInv (validate_wf s c h) { s with cfg := some c }
  | cleared c h =>
    rw [h] at hi
    rw [complete_cfg, coldStart_cfg, h]
    exact coldStart_streamInv hi.1 s
  | hopped nch cnt c h =>
    obtain ⟨hcfg, -, h0, hle⟩ := (checkHop_ok nch cnt s.cfg c).1 h
    rw [hcfg] at hi
    rw [complete_cfg, hopEffect_cfg, hcfg]
    exact hopEffect_streamInv hi (by omega)
  | configureFailed | softReset => exact ⟨rfl, rfl, rfl, rfl⟩
  | nop | clearFailed | hopFailed | fftFwdFailed | fftFwd | fftInvFailed | fftInv => exact hi

theorem Performs.mem_statusPairs {i : Instr} {s t : State} (h : Performs s i t) : (t.err, t.detail) ∈ statusPairs := by
  cases h with
  | configureFailed e | hopFailed _ _ e => exact e.mem_statusPairs
  | clearFailed | fftFwdFailed | fftInvFailed => exact CmdError.mem_statusPairs .notConfigured
  | nop | configured | cleared | hopped | fftFwd | fftInv | softReset => exact mem_statusPairs_ok

theorem Performs.keeps_inv {i : Instr} {s t : State} (h : Performs s i t) (hi : s.Inv) : t.Inv := by
  have hstores := h.stores hi
  obtain ⟨hlo, hhi⟩ := storeRange_inBuffers i
  obtain ⟨⟨hwf, hbuf⟩, hstream, -⟩ := hi
  exact ⟨⟨hstores.wf hwf, hstores.inBuffers hlo hhi hbuf⟩, h.keeps_streamInv hstream, h.mem_statusPairs⟩

end Sys2Proof.Machine
end

section
/-! SUPPORT. The register map and the host's accesses (10_state.md R23 to R48, 20_memory.md R70 to R78), one rule for each. -/

namespace Sys2Proof.Machine

open Sys2Proof Sys2Proof.Stated

/-! ### The address map (R71) -/

theorem targetAt_eq_register_iff (a : Nat) (r : Reg) : targetAt a = .register r ↔ a < 0x1000 ∧ regAt a = some r := by
  unfold targetAt
  split
  · cases regAt a <;> simp [*]
  · split_ifs <;> simp [*]

theorem targetAt_eq_inBuffer_iff (a : Nat) : targetAt a = .inBuffer ↔ 0x100000 ≤ a ∧ a < 0x300000 := by
  unfold targetAt
  split_ifs <;> (try split) <;> simp <;> omega

theorem targetAt_eq_fftWindow_iff (a : Nat) : targetAt a = .fftWindow ↔ 0x500000 ≤ a ∧ a < 0x600000 := by
  unfold targetAt
  split_ifs <;> (try split) <;> simp <;> omega

/-- Every register of the map is the target of its offset, which is that of an aligned word in the window. -/
theorem regMap_spec {a : Nat} {r : Reg} (h : (a, r) ∈ regMap) :
    targetAt a = .register r ∧ a % 4 = 0 ∧ a < Config.windowSize :=
  (by decide : ∀ p ∈ regMap, targetAt p.1 = .register p.2 ∧ p.1 % 4 = 0 ∧ p.1 < Config.windowSize) _ h

/-! ### Accesses that complete -/

theorem Access.onBus_iff (a : Access) : a.onBus = true ↔ a.width = 4 ∧ a.addr % 4 = 0 ∧ a.addr < Config.windowSize := by
  simp [Access.onBus, and_assoc]

theorem hostStep_of_permitted {a : Access} {s : State} (hbus : a.onBus = true)
    (hb : s.busy = false ∨ a.busyPermitted = true) : hostStep a s = .next (a.perform s) := by
  obtain ⟨h, -⟩ | ⟨-, hbusy, hnot, -⟩ | ⟨-, -, h⟩ := hostStep_cases a s
  · simp [h] at hbus
  · simp [hbusy, hnot] at hb
  · exact h

section
variable {a : Nat} {r : Reg} (h : (a, r) ∈ regMap) {s : State}
include h

theorem readWindow_register (s : State) : readWindow a s = r.read s := by
  simp only [readWindow, (regMap_spec h).1]

theorem writeWindow_register (v : Word) (s : State) : writeWindow a v s = r.write v s := by
  simp only [writeWindow, (regMap_spec h).1]

/-- A host read of a register that the host may read returns its value and changes nothing else (R77, R84). -/
theorem hostStep_read_register (hb : s.busy = false ∨ r.busyReadable = true) :
    hostStep (.read 4 a) s = .next { s with returned := r.read s :: s.returned } := by
  obtain ⟨htarget, hmod, hwin⟩ := regMap_spec h
  rw [hostStep_of_permitted (a := .read 4 a) ((Access.onBus_iff _).2 ⟨rfl, hmod, hwin⟩)
    (by simpa [Access.busyPermitted, htarget] using hb), Access.perform, readWindow_register h]

/-- A host write of a register that the host may write does what the register's write does (R84). -/
theorem hostStep_write_register (hb : s.busy = false ∨ r.busyWritable = true) (v : Word) :
    hostStep (.write 4 a v) s = .next (r.write v s) := by
  obtain ⟨htarget, hmod, hwin⟩ := regMap_spec h
  rw [hostStep_of_permitted (a := .write 4 a v) ((Access.onBus_iff _).2 ⟨rfl, hmod, hwin⟩)
    (by simpa [Access.busyPermitted, htarget] using hb), Access.perform, writeWindow_register h]

end

/-! ### Read-only registers (R78) -/

/-- The registers whose writes are ignored. -/
def Reg.readOnly : Reg → Bool
  | .id | .caps | .activeN | .activeO | .activeH | .delta | .hopCount | .activeK | .coefC _ | .gain _ _ => true
  | .cmd | .status | .mode | .blockSize | .overlap | .logic | .rmsWindow | .irqEnable | .irqStatus
  | .gmin _ | .gboost _ | .alphaAtt _ | .alphaRel _ => false

theorem Reg.write_of_readOnly {r : Reg} (h : r.readOnly = true) (v : Word) (s : State) : r.write v s = s := by
  cases r with
  | id | caps | activeN | activeO | activeH | delta | hopCount | activeK | coefC | gain => rfl
  | cmd | status | mode | blockSize | overlap | logic | rmsWindow | irqEnable | irqStatus | gmin | gboost | alphaAtt
  | alphaRel => cases h

theorem readOnlyOffsets_spec : ∀ a ∈ readOnlyOffsets, ∃ p ∈ regMap, p.1 = a ∧ p.2.readOnly = true := by decide

theorem hostStep_write_readOnly {a : Nat} (ha : a ∈ readOnlyOffsets) {s : State} (hb : s.busy = false) (v : Word) :
    hostStep (.write 4 a v) s = .next s := by
  obtain ⟨⟨_, r⟩, hp, rfl, hr⟩ := readOnlyOffsets_spec a ha
  rw [hostStep_write_register hp (.inl hb), r.write_of_readOnly hr]

/-! ### What no host access changes (R49, R77, R78, R275) -/

/-- The latch, the stream state and the result of the last command. -/
def State.kept (s : State) : Option Latched × Quad Lane × Quad (List F64) × Quad F64 × Word × BitVec 4 × BitVec 8 :=
  (s.cfg, s.lanes, s.hist, s.gain, s.hopCount, s.err, s.detail)

theorem State.kept_eq_iff (s t : State) : t.kept = s.kept ↔ t.cfg = s.cfg ∧ t.lanes = s.lanes ∧ t.hist = s.hist ∧
    t.gain = s.gain ∧ t.hopCount = s.hopCount ∧ t.err = s.err ∧ t.detail = s.detail := by
  simp only [State.kept, Prod.mk.injEq]

/-- A CMD write touches BUSY, `pending` and OVR alone. -/
theorem writeCmd_eq (v : Word) (s : State) : ∃ b p o, writeCmd v s = { s with busy := b, pending := p, ovr := o } := by
  unfold writeCmd
  split
  · exact ⟨s.busy, s.pending, true, rfl⟩
  · exact ⟨true, v, s.ovr, rfl⟩

theorem Reg.write_kept (r : Reg) (v : Word) (s : State) : (r.write v s).kept = s.kept ∧ (r.write v s).mem = s.mem := by
  cases r with
  | cmd =>
    obtain ⟨b, p, o, h⟩ := writeCmd_eq v s
    show (writeCmd v s).kept = s.kept ∧ (writeCmd v s).mem = s.mem
    rw [h]
    exact ⟨rfl, rfl⟩
  | _ => exact ⟨rfl, rfl⟩

theorem writeWindow_kept (a : Nat) (v : Word) (s : State) : (writeWindow a v s).kept = s.kept := by
  unfold writeWindow
  split
  case h_1 r _ => exact (r.write_kept v s).1
  all_goals rfl

theorem Access.perform_kept (a : Access) (s : State) : (a.perform s).kept = s.kept := by
  cases a with
  | read w off => rfl
  | write w off v => exact writeWindow_kept off v s

/-- A host write stores inside the buffers alone (R46, R48). -/
theorem writeWindow_stores {a : Nat} (ha : a % 4 = 0) (v : Word) (s : State) :
    StoresWithin bufferBase bufferEnd s.mem (writeWindow a v s).mem := by
  have hword : bufferBase ≤ a → a < bufferEnd → StoresWithin bufferBase bufferEnd s.mem (s.mem.writeWord a v) :=
    fun hlo hhi => StoresWithin.none.store hlo (by simp only [bytesOfWord, List.length_cons, List.length_nil, bufferEnd] at *; omega)
  unfold writeWindow
  split
  case h_1 r _ => rw [(r.write_kept v s).2]; exact .none
  case h_2 h =>
    obtain ⟨hlo, hhi⟩ := (targetAt_eq_inBuffer_iff a).1 h
    exact hword hlo (hhi.trans (by decide))
  case h_4 h =>
    obtain ⟨hlo, hhi⟩ := (targetAt_eq_fftWindow_iff a).1 h
    exact hword (le_trans (by decide) hlo) hhi
  all_goals exact .none

theorem Access.perform_stores {a : Access} (ha : a.onBus = true) (s : State) :
    StoresWithin bufferBase bufferEnd s.mem (a.perform s).mem := by
  cases a with
  | read w off => exact .none
  | write w off v =>
    obtain ⟨-, hmod, -⟩ := (Access.onBus_iff _).1 ha
    exact writeWindow_stores hmod v s

/-- A host step that completes is the access, which was on the bus. -/
theorem hostStep_next {a : Access} {s t : State} (h : hostStep a s = .next t) : a.onBus = true ∧ t = a.perform s := by
  obtain ⟨-, hx⟩ | ⟨-, -, -, hx⟩ | ⟨hbus, -, hx⟩ := hostStep_cases a s <;> rw [hx] at h <;> cases h
  exact ⟨hbus, rfl⟩

/-! ### The invariant, step by step -/

/-- Changes of the other fields, and stores inside the buffers, keep the invariant. -/
theorem State.Inv.of_kept {s t : State} (h : s.Inv) (hk : t.kept = s.kept)
    (hm : StoresWithin bufferBase bufferEnd s.mem t.mem) : t.Inv := by
  obtain ⟨hcfg, hlanes, hhist, hgain, hcount, herr, hdetail⟩ := (State.kept_eq_iff s t).1 hk
  obtain ⟨⟨hwf, hbuf⟩, hstream, hpair⟩ := h
  refine ⟨⟨hm.wf hwf, hm.inBuffers le_rfl le_rfl hbuf⟩, ?_, by rwa [herr, hdetail]⟩
  rw [hcfg]
  cases hc : s.cfg with
  | none =>
    rw [hc] at hstream
    simpa only [streamInv, hlanes, hhist, hgain, hcount] using hstream
  | some c =>
    rw [hc] at hstream
    simpa only [streamInv, hlanes, hhist, hgain] using hstream

theorem hostStep_keeps_inv {a : Access} {s t : State} (hi : s.Inv) (h : hostStep a s = .next t) : t.Inv := by
  obtain ⟨hbus, rfl⟩ := hostStep_next h
  exact hi.of_kept (a.perform_kept s) (Access.perform_stores hbus s)

theorem coreStep_keeps_inv {s t : State} (hi : s.Inv) (h : coreStep s = .next t) : t.Inv := by
  obtain ⟨-, hx⟩ | ⟨-, i, -, hx⟩ | ⟨-, e, -, hx⟩ := coreStep_cases s
  · rw [hx] at h
    cases h
    exact hi
  · exact (performs_of_exec (hx.symm.trans h)).keeps_inv hi
  · rw [hx] at h
    cases h
    exact ⟨hi.1, hi.2.1, (illegalError e).mem_statusPairs⟩

theorem powerOnState_inv (s : State) : (powerOnState s).Inv :=
  ⟨⟨.nil, by simp⟩, ⟨rfl, rfl, rfl, rfl⟩, mem_statusPairs_ok⟩

/-- Settles O13: by the three kinds of step, each of which keeps the invariant. -/
theorem stepKeepsInvariant : Obligations.StepKeepsInvariant := by
  intro s t hi h
  obtain ⟨u, ⟨rest, rfl⟩, hcore | ⟨a, hhost⟩ | hpower⟩ := step_cases s
  · exact coreStep_keeps_inv (s := { s with inputs := rest }) hi (hcore.symm.trans h)
  · exact hostStep_keeps_inv (s := { s with inputs := rest }) hi (hhost.symm.trans h)
  · rw [hpower] at h
    cases h
    exact powerOnState_inv _

end Sys2Proof.Machine
end

section
/-! SUPPORT. The state's obligations: steps, resets and registers (10_state.md), each from the rules above. -/

namespace Sys2Proof.Machine

open Sys2Proof Sys2Proof.Stated

/-! ### The core's turn -/

theorem coreStep_of_decode {s : State} {i : Instr} (hb : s.busy = true) (hd : decode s.pending = .ok i) :
    coreStep s = exec i s := by
  simp [coreStep, hb, performPending, hd]

/-- Settles O5: a turn of the core, taken from the list or for want of inputs, performs the decoded command. -/
theorem stepPerformsDecodedCommand : Obligations.StepPerformsDecodedCommand := by
  intro s i hb hd
  refine ⟨fun h => ?_, fun rest h => ?_⟩
  · rw [step_nil s h, coreStep_of_decode hb hd]
  · rw [step_core s rest h]
    exact coreStep_of_decode hb hd

/-- Only CONFIGURE and SOFT_RESET write the latch (R49). -/
theorem Performs.keeps_cfg {i : Instr} {s t : State} (h : Performs s i t) (hconf : i ≠ .configure) (hreset : i ≠ .softReset) :
    t.cfg = s.cfg := by
  cases h with
  | configureFailed | configured => exact absurd rfl hconf
  | softReset => exact absurd rfl hreset
  | hopped => rw [complete_cfg, hopEffect_cfg]
  | nop | clearFailed | cleared | hopFailed | fftFwdFailed | fftFwd | fftInvFailed | fftInv => rfl

theorem decode_of_coreStep_changes_cfg {s t : State} (h : coreStep s = .next t) (hne : t.cfg ≠ s.cfg) :
    s.busy = true ∧ (decode s.pending = .ok .configure ∨ decode s.pending = .ok .softReset) := by
  obtain ⟨-, hx⟩ | ⟨hb, i, hd, hx⟩ | ⟨-, e, -, hx⟩ := coreStep_cases s
  · rw [hx] at h
    cases h
    exact absurd rfl hne
  · have hp := performs_of_exec (hx.symm.trans h)
    refine ⟨hb, ?_⟩
    by_contra hnot
    rw [hd] at hnot
    exact hne (hp.keeps_cfg (by rintro rfl; simp at hnot) (by rintro rfl; simp at hnot))
  · rw [hx] at h
    cases h
    exact absurd rfl hne

theorem hostStep_keeps_cfg {a : Access} {s t : State} (h : hostStep a s = .next t) : t.cfg = s.cfg := by
  obtain ⟨-, rfl⟩ := hostStep_next h
  exact ((State.kept_eq_iff _ _).1 (a.perform_kept s)).1

/-- Settles O14: by the kind of the next input; a host access keeps the latch, and so does every other command. -/
theorem onlyConfigureAndResetsChangeTheLatch : Obligations.OnlyConfigureAndResetsChangeTheLatch := by
  intro s t h hne
  cases hin : s.inputs with
  | nil =>
    rw [step_nil s hin] at h
    obtain ⟨hb, hd⟩ := decode_of_coreStep_changes_cfg h hne
    exact .inr ⟨hb, .inl rfl, hd⟩
  | cons input rest =>
    cases input with
    | host a =>
      rw [step_host s a rest hin] at h
      exact absurd (hostStep_keeps_cfg h) hne
    | core =>
      rw [step_core s rest hin] at h
      obtain ⟨hb, hd⟩ := decode_of_coreStep_changes_cfg h hne
      exact .inr ⟨hb, .inr ⟨rest, rfl⟩, hd⟩
    | powerOn => exact .inl ⟨rest, rfl⟩

/-! ### What the commands store, and HOP_COUNT -/

/-- Settles O34: each command stores inside its range alone. -/
theorem commandsWriteOnlyTheirBuffers : Obligations.CommandsWriteOnlyTheirBuffers := by
  intro s t i hi h a
  have hstores := (performs_of_exec h).stores hi
  refine ⟨fun ha => hstores.readByte ?_, fun hlo hhi hhop => hstores.readByte ?_, fun hlo hhi hfwd hinv => hstores.readByte ?_⟩
  · cases i <;> simp only [storeRange] <;> omega
  · cases i with
    | hop nch cnt => exact absurd rfl (hhop nch cnt)
    | _ => simp only [storeRange]; omega
  · cases i with
    | fftFwd => exact absurd rfl hfwd
    | fftInv => exact absurd rfl hinv
    | _ => simp only [storeRange]; omega

theorem Performs.hopCount_of_hop {nch : Nat} {cnt : Int} {s t : State} (h : Performs s (.hop nch cnt) t) :
    (t.err = 0#4 → t.hopCount = s.hopCount + 1#32) ∧ (t.err ≠ 0#4 → t.hopCount = s.hopCount) := by
  cases h with
  | hopFailed nch cnt e => exact ⟨fun he => absurd he e.code_ne_zero, fun _ => rfl⟩
  | hopped => exact ⟨fun _ => by simp, fun he => absurd rfl he⟩

theorem Performs.hopCount_of_clear {s t : State} (h : Performs s .clear t) :
    (t.err = 0#4 → t.hopCount = 0#32) ∧ (t.err ≠ 0#4 → t.hopCount = s.hopCount) := by
  cases h with
  | clearFailed => exact ⟨fun he => absurd he (CmdError.code_ne_zero .notConfigured), fun _ => rfl⟩
  | cleared => exact ⟨fun _ => rfl, fun he => absurd rfl he⟩

theorem Performs.hopCount_of_reset {i : Instr} {s t : State} (h : Performs s i t) (hi : i = .configure ∨ i = .softReset) :
    t.hopCount = 0#32 := by
  cases h with
  | configureFailed | configured | softReset => rfl
  | _ => simp at hi

theorem Performs.keeps_hopCount {i : Instr} {s t : State} (h : Performs s i t) (hi : i ∈ [Instr.nop, .fftFwd, .fftInv]) :
    t.hopCount = s.hopCount := by
  cases h with
  | nop | fftFwdFailed | fftFwd | fftInvFailed | fftInv => rfl
  | _ => simp at hi

/-- Settles O33: by the outcomes of each command. -/
theorem hopCountCountsSuccessfulHops : Obligations.HopCountCountsSuccessfulHops := by
  refine ⟨rfl, fun s => ⟨readWindow_register (r := .hopCount) (by decide) s, fun nch cnt => ?_, ?_, ?_, ?_, fun i hi => ?_⟩⟩
  · obtain ⟨t, ht, hp⟩ := exec_performs (.hop nch cnt) s
    obtain ⟨hok, hfail⟩ := hp.hopCount_of_hop
    exact ⟨t, ht, fun he => by rw [hok he]; rfl, hfail⟩
  · obtain ⟨t, ht, hp⟩ := exec_performs .configure s
    exact ⟨t, ht, hp.hopCount_of_reset (.inl rfl)⟩
  · obtain ⟨t, ht, hp⟩ := exec_performs .softReset s
    exact ⟨t, ht, hp.hopCount_of_reset (.inr rfl)⟩
  · obtain ⟨t, ht, hp⟩ := exec_performs .clear s
    exact ⟨t, ht, hp.hopCount_of_clear⟩
  · obtain ⟨t, ht, hp⟩ := exec_performs i s
    exact ⟨t, ht, hp.keeps_hopCount hi⟩

/-! ### Reset -/

/-- Settles O12: nothing is written, nothing is latched, and the codes are those of a success. -/
theorem resetMeetsInvariant : Obligations.ResetMeetsInvariant :=
  ⟨⟨.nil, List.forall_mem_nil _⟩, ⟨rfl, rfl, rfl, rfl⟩, mem_statusPairs_ok⟩

/-- After a power-on every register, and every reserved word below the buffers, reads as in the reset state. -/
theorem readWindow_powerOnState {a : Nat} (ha : a < 0x1000) (s : State) :
    readWindow a (powerOnState s) = readWindow a State.reset := by
  cases h : regAt a with
  | none => simp [readWindow, targetAt, ha, h]
  | some r =>
    simp only [readWindow, targetAt, ha, h, if_true]
    cases r <;> rfl

theorem powerOnState_irq (s : State) : (powerOnState s).irq = false := by simp [State.irq, State.reset]

theorem resetTable_spec : ∀ p ∈ resetTable, p.1 % 4 = 0 ∧ p.1 < 0x1000 ∧ readWindow p.1 State.reset = p.2 := by decide

/-- Settles O11: the table is that of the reset state, whose registers a power-on gives. -/
theorem powerOnResetsEveryRegister : Obligations.PowerOnResetsEveryRegister := by
  intro s rest h
  refine ⟨_, step_powerOn s rest h, fun p hp => ?_, powerOnState_irq _, rfl, rfl, rfl, rfl, rfl⟩
  obtain ⟨hmod, hlt, hread⟩ := resetTable_spec p hp
  rw [hostStep_of_permitted (a := .read 4 p.1) ((Access.onBus_iff _).2 ⟨rfl, hmod, hlt.trans (by decide)⟩) (.inl rfl),
    Access.perform, readWindow_powerOnState hlt, hread]

/-! ### Identification, the latch and the gains -/

/-- Settles O15: R84 always permits a read of ID or CAPS, and all three registers are read-only. -/
theorem identificationRegistersAreFixed : Obligations.IdentificationRegistersAreFixed := by
  refine fun s => ⟨hostStep_read_register (r := .id) (by decide) (.inr rfl),
    hostStep_read_register (r := .caps) (by decide) (.inr rfl), fun hb => ⟨?_, ?_, fun v a ha => ?_⟩⟩
  · exact hostStep_read_register (r := .coefC .lo) (by decide) (.inl hb)
  · exact hostStep_read_register (r := .coefC .hi) (by decide) (.inl hb)
  · have hro : ∀ a ∈ [0x000, 0x004, 0x068, 0x06C], a ∈ readOnlyOffsets := by decide
    exact hostStep_write_readOnly (hro a ha) hb v

end Sys2Proof.Machine
end

section
/-! SUPPORT. The fields of the registers as numbers: the latched values and gains, STATUS and the interrupt bits, CMD, the
configuration registers and the words of the buffers (10_state.md R26 to R48). -/

namespace Sys2Proof.Machine

open Sys2Proof Sys2Proof.Stated

/-! ### Fields and halves as numbers (R45) -/

theorem toNat_append_eq_add {m n : Nat} (x : BitVec m) (y : BitVec n) : (x ++ y).toNat = x.toNat * 2 ^ n + y.toNat := by
  rw [BitVec.toNat_append, ← Nat.shiftLeft_add_eq_or_of_lt y.isLt, Nat.shiftLeft_eq]

theorem toNat_lowField {w : Nat} (n : Nat) (v : BitVec w) : (v.extractLsb' 0 n).toNat = v.toNat % 2 ^ n := by
  rw [BitVec.extractLsb'_toNat, Nat.shiftRight_zero]

theorem toNat_halfOf_lo (v : F64) : (halfOf .lo v).toNat = v.toNat % 4294967296 := toNat_lowField 32 v

theorem toNat_halfOf_hi (v : F64) : (halfOf .hi v).toNat = v.toNat / 4294967296 := by
  have hv := v.isLt
  rw [halfOf, BitVec.extractLsb'_toNat, Nat.shiftRight_eq_div_pow]
  omega

theorem toNat_setHalf_lo (w : Word) (v : F64) :
    (setHalf .lo w v).toNat = v.toNat / 4294967296 * 4294967296 + w.toNat := by
  rw [← toNat_halfOf_hi]
  exact toNat_append_eq_add (halfOf .hi v) w

theorem toNat_setHalf_hi (w : Word) (v : F64) :
    (setHalf .hi w v).toNat = w.toNat * 4294967296 + v.toNat % 4294967296 := by
  rw [← toNat_halfOf_lo]
  exact toNat_append_eq_add w (halfOf .lo v)

theorem halfOf_setHalf (h h' : Half) (w : Word) (v : F64) :
    halfOf h (setHalf h' w v) = if h = h' then w else halfOf h v := by
  cases h with
  | lo => cases h' <;> exact BitVec.extractLsb'_append_eq_right
  | hi => cases h' <;> exact BitVec.extractLsb'_append_eq_left

/-! ### The latched values and the gains (R35, R37, R43) -/

/-- The offsets of ACTIVE_N, ACTIVE_O, ACTIVE_H, DELTA and ACTIVE_K, and the number that each shows (R35, R37). -/
def latchedRegisters : List (Nat × (Latched → Nat)) :=
  [(0x02C, Latched.n), (0x030, Latched.o), (0x034, Latched.h), (0x038, Latched.delta), (0x040, Latched.activeK)]

theorem readWindow_latchedRegisters (s : State) : ∀ p ∈ latchedRegisters, readWindow p.1 s = s.latchedNat p.2 := by
  simp only [latchedRegisters, List.forall_mem_cons, List.not_mem_nil, false_imp_iff, implies_true, and_true]
  exact ⟨readWindow_register (r := .activeN) (by decide) s, readWindow_register (r := .activeO) (by decide) s,
    readWindow_register (r := .activeH) (by decide) s, readWindow_register (r := .delta) (by decide) s,
    readWindow_register (r := .activeK) (by decide) s⟩

theorem latchedNat_of_none {s : State} (h : s.cfg = none) (f : Latched → Nat) : s.latchedNat f = 0#32 := by
  simp [State.latchedNat, h]

theorem latchedNat_of_some {s : State} {c : Latched} (h : s.cfg = some c) (f : Latched → Nat) :
    s.latchedNat f = BitVec.ofNat 32 (f c) := by
  simp [State.latchedNat, h]

theorem readWindow_of_unlatched {s : State} (h : s.cfg = none) :
    ∀ a ∈ latchedRegisters.map Prod.fst, readWindow a s = 0#32 := by
  rw [List.forall_mem_map]
  exact fun p hp => by rw [readWindow_latchedRegisters s p hp, latchedNat_of_none h]

theorem gain_mem_regMap : ∀ ch < 4, (0x080 + 8 * ch, Reg.gain ch .lo) ∈ regMap ∧ (0x084 + 8 * ch, Reg.gain ch .hi) ∈ regMap := by
  decide

/-- Settles O16: each register shows its latched number, and GAIN the halves of a gain. -/
theorem activeRegistersShowTheLatch : Obligations.ActiveRegistersShowTheLatch := by
  intro s
  refine ⟨readWindow_of_unlatched, fun c hc => ?_, fun a ha => ⟨readWindow_of_unlatched rfl a ha, fun hb v => ?_⟩,
    fun ch hch => ?_⟩
  · have hread : ∀ p ∈ latchedRegisters, readWindow p.1 s = BitVec.ofNat 32 (p.2 c) := fun p hp => by
      rw [readWindow_latchedRegisters s p hp, latchedNat_of_some hc]
    simp only [latchedRegisters, List.forall_mem_cons, List.not_mem_nil, false_imp_iff, implies_true, and_true] at hread
    obtain ⟨hn, ho, hh, hd, hk⟩ := hread
    exact ⟨hn, ho, hh, hd, fun h => by rw [hk, Latched.activeK, h], fun p h => by rw [hk, Latched.activeK, h]⟩
  · have hro : ∀ a ∈ latchedRegisters.map Prod.fst, a ∈ readOnlyOffsets := by decide
    exact hostStep_write_readOnly (hro a ha) hb v
  · obtain ⟨hlo, hhi⟩ := gain_mem_regMap ch hch
    rw [readWindow_register hlo, readWindow_register hhi]
    exact ⟨toNat_halfOf_lo _, toNat_halfOf_hi _⟩

/-! ### STATUS, the interrupt registers and CMD (R26, R27, R33, R34) -/

theorem activeMode_eq_true_iff (s : State) : s.activeMode = true ↔ ∃ c, s.cfg = some c ∧ c.mode = .encode := by
  cases h : s.cfg <;> simp [State.activeMode, h]

theorem activeLogic_eq_true_iff (s : State) : s.activeLogic = true ↔ ∃ c, s.cfg = some c ∧ c.steer.isSome = true := by
  cases h : s.cfg <;> simp [State.activeLogic, h]

/-- A flag at bit `n` of a register counts `2^n`. -/
theorem toNat_ofBool_mul (b : Bool) (n : Nat) : (BitVec.ofBool b).toNat * n = if b = true then n else 0 := by
  cases b <;> simp

theorem toNat_status (s : State) : s.status.toNat =
    (if s.busy then 1 else 0) + (if s.cfgValid then 2 else 0) + (if s.ovr then 4 else 0) + (if s.activeMode then 8 else 0)
      + (if s.activeLogic then 16 else 0) + 256 * s.err.toNat + 65536 * s.lastOp.toNat + 16777216 * s.detail.toNat := by
  simp only [State.status, toNat_append_eq_add, ← toNat_ofBool_mul, BitVec.toNat_zero]
  omega

theorem getLsbD_lowField {w n i : Nat} (h : i < n) (v : BitVec w) : (v.extractLsb' 0 n).getLsbD i = v.getLsbD i := by
  simp [h]

/-- Settles O17: each register through the rule of its read or write, field by field. -/
theorem statusAndInterruptRegisters : Obligations.StatusAndInterruptRegisters := by
  intro s v
  refine ⟨?_, hostStep_write_register (r := .status) (by decide) (.inr rfl) v,
    ⟨_, hostStep_write_register (r := .irqStatus) (by decide) (.inr rfl) v, rfl, fun i hi => ?_⟩,
    ⟨_, hostStep_write_register (r := .irqEnable) (by decide) (.inr rfl) v, rfl, fun i hi => getLsbD_lowField hi v⟩, ?_, ?_⟩
  · rw [readWindow_register (r := .status) (by decide), Reg.read, toNat_status, State.cfgValid,
      if_congr (activeMode_eq_true_iff s) rfl rfl, if_congr (activeLogic_eq_true_iff s) rfl rfl]
  · simp only [Reg.write, BitVec.getLsbD_and, BitVec.getLsbD_not, getLsbD_lowField hi, hi, decide_true, Bool.true_and]
  · rw [readWindow_register (r := .irqEnable) (by decide)]
    exact BitVec.toNat_setWidth_of_le (by decide)
  · rw [readWindow_register (r := .irqStatus) (by decide)]
    exact BitVec.toNat_setWidth_of_le (by decide)

theorem writeCmd_of_idle {s : State} (h : s.busy = false) (v : Word) : writeCmd v s = { s with busy := true, pending := v } := by
  simp [writeCmd, h]

theorem writeCmd_of_busy {s : State} (h : s.busy = true) (v : Word) : writeCmd v s = { s with ovr := true } := by
  simp [writeCmd, h]

/-- Settles O23: R84 always permits a write of CMD, whose effect the BUSY bit decides. -/
theorem cmdWriteStartsOrOverruns : Obligations.CmdWriteStartsOrOverruns := by
  intro s v
  have hwrite : hostStep (.write 4 0x008 v) s = .next (writeCmd v s) :=
    hostStep_write_register (r := .cmd) (by decide) (.inr rfl) v
  refine ⟨fun hb => ⟨?_, hostStep_read_register (r := .cmd) (by decide) (.inl hb)⟩, fun hb => ?_⟩
  · rw [hwrite, writeCmd_of_idle hb]
  · rw [hwrite, writeCmd_of_busy hb]

/-! ### The 64-bit pairs (R38 to R41, R45) -/

/-- The steering registers, each a pair of words. -/
inductive RegPair where
  | gmin
  | gboost
  | alphaAtt
  | alphaRel

/-- The offset of the low word. -/
def RegPair.addr : RegPair → Nat
  | .gmin => 0x048
  | .gboost => 0x050
  | .alphaAtt => 0x058
  | .alphaRel => 0x060

/-- The value that the pair holds. -/
def RegPair.value : RegPair → State → F64
  | .gmin => State.gmin
  | .gboost => State.gboost
  | .alphaAtt => State.alphaAtt
  | .alphaRel => State.alphaRel

/-- The register of one half. -/
def RegPair.reg (p : RegPair) (h : Half) : Reg :=
  match p with
  | .gmin => .gmin h
  | .gboost => .gboost h
  | .alphaAtt => .alphaAtt h
  | .alphaRel => .alphaRel h

theorem forall_pairs {P : Nat × (State → F64) → Prop} :
    (∀ p ∈ [(0x048, State.gmin), (0x050, State.gboost), (0x058, State.alphaAtt), (0x060, State.alphaRel)], P p) ↔
      ∀ p : RegPair, P (p.addr, p.value) := by
  simp only [List.forall_mem_cons, List.not_mem_nil, false_imp_iff, implies_true, and_true]
  exact ⟨fun ⟨h1, h2, h3, h4⟩ p => by cases p <;> assumption, fun h => ⟨h .gmin, h .gboost, h .alphaAtt, h .alphaRel⟩⟩

theorem RegPair.lo_mem_regMap (p : RegPair) : (p.addr, p.reg .lo) ∈ regMap := by cases p <;> decide

theorem RegPair.hi_mem_regMap (p : RegPair) : (p.addr + 4, p.reg .hi) ∈ regMap := by cases p <;> decide

theorem RegPair.read_reg (p : RegPair) (h : Half) (s : State) : (p.reg h).read s = halfOf h (p.value s) := by cases p <;> rfl

theorem RegPair.value_write (p : RegPair) (h : Half) (v : Word) (s : State) :
    p.value ((p.reg h).write v s) = setHalf h v (p.value s) := by
  cases p <;> rfl

theorem RegPair.value_write_other {p q : RegPair} (hne : q.addr ≠ p.addr) (h : Half) (v : Word) (s : State) :
    q.value ((p.reg h).write v s) = q.value s := by
  cases p <;> cases q <;> simp [RegPair.addr] at hne <;> rfl

/-- A write of one half touches the four pairs alone. -/
theorem RegPair.write_frame (p : RegPair) (h : Half) (v : Word) (s : State) : (p.reg h).write v s =
    { s with
      gmin := ((p.reg h).write v s).gmin
      gboost := ((p.reg h).write v s).gboost
      alphaAtt := ((p.reg h).write v s).alphaAtt
      alphaRel := ((p.reg h).write v s).alphaRel } := by
  cases p <;> rfl

theorem RegPair.readWindow_lo (p : RegPair) (s : State) : readWindow p.addr s = halfOf .lo (p.value s) := by
  rw [readWindow_register p.lo_mem_regMap, p.read_reg]

theorem RegPair.readWindow_hi (p : RegPair) (s : State) : readWindow (p.addr + 4) s = halfOf .hi (p.value s) := by
  rw [readWindow_register p.hi_mem_regMap, p.read_reg]

/-- Settles O19: the plain registers by the rules of their reads and writes, the pairs by those of a half. -/
theorem configurationRegistersHoldWhatIsWritten : Obligations.ConfigurationRegistersHoldWhatIsWritten := by
  refine ⟨fun s => ⟨?_, ?_, ?_, ?_, ?_, forall_pairs.2 fun p => ?_⟩,
    fun s v hb => ⟨⟨_, hostStep_write_register (r := .mode) (by decide) (.inl hb) v, rfl, toNat_lowField 2 v⟩,
      hostStep_write_register (r := .blockSize) (by decide) (.inl hb) v,
      hostStep_write_register (r := .overlap) (by decide) (.inl hb) v,
      ⟨_, hostStep_write_register (r := .logic) (by decide) (.inl hb) v, rfl, toNat_lowField 1 v⟩,
      hostStep_write_register (r := .rmsWindow) (by decide) (.inl hb) v, forall_pairs.2 fun p => ⟨?_, ?_⟩⟩⟩
  · rw [readWindow_register (r := .mode) (by decide)]
    exact BitVec.toNat_setWidth_of_le (by decide)
  · exact readWindow_register (r := .blockSize) (by decide) s
  · exact readWindow_register (r := .overlap) (by decide) s
  · rw [readWindow_register (r := .logic) (by decide)]
    exact BitVec.toNat_setWidth_of_le (by decide)
  · exact readWindow_register (r := .rmsWindow) (by decide) s
  · rw [p.readWindow_lo, p.readWindow_hi]
    exact ⟨toNat_halfOf_lo _, toNat_halfOf_hi _⟩
  · refine ⟨_, hostStep_write_register p.lo_mem_regMap (.inl hb) v, ?_, ?_, ?_, p.write_frame .lo v s,
      forall_pairs.2 fun q hne => RegPair.value_write_other hne .lo v s⟩
    · exact (congrArg BitVec.toNat (p.value_write .lo v s)).trans (toNat_setHalf_lo v _)
    · rw [p.readWindow_lo, p.value_write, halfOf_setHalf, if_pos rfl]
    · rw [p.readWindow_hi, p.readWindow_hi, p.value_write, halfOf_setHalf, if_neg (by decide)]
  · refine ⟨_, hostStep_write_register p.hi_mem_regMap (.inl hb) v, ?_, ?_, ?_, p.write_frame .hi v s,
      forall_pairs.2 fun q hne => RegPair.value_write_other hne .hi v s⟩
    · exact (congrArg BitVec.toNat (p.value_write .hi v s)).trans (toNat_setHalf_hi v _)
    · rw [p.readWindow_hi, p.value_write, halfOf_setHalf, if_pos rfl]
    · rw [p.readWindow_lo, p.readWindow_lo, p.value_write, halfOf_setHalf, if_neg (by decide)]

/-! ### Words of the buffers (R46, R48, R72) -/

/-- A run of bytes reads back after its store. -/
theorem Memory.readBytes_writeBytes_same (m : Memory) (a : Nat) (bs : List Byte) :
    (m.writeBytes a bs).readBytes a bs.length = bs := by
  rw [Memory.readBytes_eq]
  refine List.ext_getElem (by simp) fun i hi hi' => ?_
  rw [List.getElem_map, List.getElem_range', Memory.readByte_writeBytes, dif_pos (by omega)]
  simp

theorem Memory.readWord_writeWord_same (m : Memory) (a : Nat) (w : Word) : (m.writeWord a w).readWord a = w := by
  rw [Memory.readWord, Memory.writeWord, show 4 = (bytesOfWord w).length from rfl, Memory.readBytes_writeBytes_same,
    wordOfBytes_bytesOfWord]

/-- Byte `i` of a word, the lowest first. -/
theorem toNat_getElem_bytesOfWord (w : Word) (i : Nat) (hi : i < (bytesOfWord w).length) :
    (bytesOfWord w)[i].toNat = w.toNat / 256 ^ i % 256 := by
  have hget : (bytesOfWord w)[i] = w.extractLsb' (8 * i) 8 := by
    match i, hi with
    | 0, _ | 1, _ | 2, _ | 3, _ => rfl
  rw [hget, BitVec.extractLsb'_toNat, Nat.shiftRight_eq_div_pow, show 2 ^ (8 * i) = 256 ^ i from pow_mul 2 8 i]

theorem hostStep_write_buffer {a : Nat} {s : State} (hb : s.busy = false) (ha : hostBufferWord a) (v : Word) :
    hostStep (.write 4 a v) s = .next { s with mem := s.mem.writeWord a v } ∧
      ∀ t : State, readWindow a t = t.mem.readWord a := by
  obtain ⟨hmod, hrange⟩ := ha
  have hbus : (Access.write 4 a v).onBus = true := (Access.onBus_iff _).2 ⟨rfl, hmod, by
    simp only [Access.addr, Config.windowSize]; omega⟩
  rw [hostStep_of_permitted hbus (.inl hb), Access.perform]
  obtain h | h := hrange
  · have htarget := (targetAt_eq_inBuffer_iff a).2 h
    simp [writeWindow, readWindow, htarget]
  · have htarget := (targetAt_eq_fftWindow_iff a).2 h
    simp [writeWindow, readWindow, htarget]

/-- Settles O24: by reading bytes after a store. -/
theorem bufferWordsReadBack : Obligations.BufferWordsReadBack := by
  intro s a v hb ha
  obtain ⟨hwrite, hread⟩ := hostStep_write_buffer hb ha v
  refine ⟨_, hwrite, rfl, ?_, fun i hi => ?_, fun b hout => ?_⟩
  · rw [hread, Memory.readWord_writeWord_same]
  · have hlen : (bytesOfWord v).length = 4 := rfl
    rw [Memory.writeWord, Memory.readByte_writeBytes, dif_pos (by omega)]
    simp [toNat_getElem_bytesOfWord]
  · exact Memory.readByte_writeBytes_of_not_mem _ _ _ _ hout

end Sys2Proof.Machine
end

section
/-! SUPPORT. The reset values of the steering registers (43_steering.md R188): each lies between the midpoints around the
binary64 value that its register holds. -/

namespace Sys2Proof.F64

open Sys2Proof.Machine

/-- A magnitude rounds to itself. -/
theorem roundsToMag_unitsOfMag (m : ℕ) : RoundsToMag (unitsOfMag m) m where
  lower k hk := by
    subst hk
    have hlt := unitsOfMag_strictMono (Nat.lt_add_one k)
    exact .inl (by exact_mod_cast (show neighbourSum k < 2 * unitsOfMag (k + 1) by rw [neighbourSum]; omega))
  upper := by
    have hlt := unitsOfMag_strictMono (Nat.lt_add_one m)
    exact .inl (by exact_mod_cast (show 2 * unitsOfMag m < neighbourSum m by rw [neighbourSum]; omega))

theorem roundsToMag_of_between {v : ℝ} {k : ℕ} (hlo : (neighbourSum k : ℝ) < 2 * v) (hhi : 2 * v < neighbourSum (k + 1)) :
    RoundsToMag v (k + 1) where
  lower j hj := .inl (by rwa [← Nat.succ.inj hj])
  upper := .inl hhi

/-- A number between the midpoints around the positive value of significand `m + 1`, whose last place is `2^(1 - p)`, rounds to
it. -/
theorem roundsTo_of_between {r : ℝ} {e m p : ℕ} (hp : e + p = 1075) (hm : 2 ^ 52 ≤ m) (hm' : m + 1 < 2 ^ 53)
    (hlo : (2 * m + 1 : ℝ) < r * 2 ^ p) (hhi : r * 2 ^ p < 2 * m + 3) :
    RoundsTo r (pack false (e * 2 ^ 52 + (m + 1))) := by
  have hunits : 2 * (r * 2 ^ 1074) = r * 2 ^ p * 2 ^ e := by
    rw [mul_assoc r, ← pow_add, Nat.add_comm p, hp, show (2 : ℝ) ^ 1075 = 2 * 2 ^ 1074 from pow_succ' 2 1074, mul_left_comm]
  have hpos : (0 : ℝ) < 2 ^ e := by positivity
  have hround : RoundsToMag (r * 2 ^ 1074) (e * 2 ^ 52 + m + 1) := by
    refine roundsToMag_of_between ?_ ?_
    · rw [neighbourSum_place (.inr hm) (by omega), hunits]
      push_cast
      exact mul_lt_mul_of_pos_right hlo hpos
    · rw [Nat.add_assoc, neighbourSum_place (.inr (by omega)) hm', hunits]
      push_cast
      exact mul_lt_mul_of_pos_right (by linarith) hpos
  have hr : 0 < r := (mul_pos_iff_of_pos_right (by positivity)).1 (lt_trans (by positivity) hlo)
  have h := hround.roundsTo (mul_nonneg hr.le (by positivity)) false
  rwa [signFactor, if_neg Bool.false_ne_true, one_mul, mul_div_cancel_right₀ r (by positivity),
    min_eq_left (by simp only [infMag]; omega), Nat.add_assoc] at h

/-- `1.0` is rounded exactly. -/
theorem roundsTo_one : RoundsTo 1 one := by
  have hmag : unitsOfMag (mag one) = 2 ^ 1074 := by
    rw [show mag one = 1022 * 2 ^ 52 + 2 ^ 52 from rfl, unitsOfMag_place (.inr le_rfl) (by norm_num), ← pow_add]
  have h := (roundsToMag_unitsOfMag (mag one)).roundsTo (Nat.cast_nonneg _) false
  rwa [hmag, signFactor, if_neg Bool.false_ne_true, one_mul, Nat.cast_pow, Nat.cast_ofNat, div_self (by positivity),
    show pack false (min (mag one) infMag) = one from rfl] at h

/-- `6` dB below unity is the tenth root of a thousandth. -/
theorem rpow_gmin_pow : ((10 : ℝ) ^ (-(6 : ℝ) / 20)) ^ 10 = 1 / 1000 := by
  rw [← Real.rpow_mul_natCast (by norm_num), show -(6 : ℝ) / 20 * (10 : ℕ) = -(3 : ℕ) by norm_num, Real.rpow_neg (by norm_num),
    Real.rpow_natCast]
  norm_num

theorem roundsTo_gmin : RoundsTo ((10 : ℝ) ^ (-(6 : ℝ) / 20)) State.reset.gmin := by
  refine roundsTo_of_between (e := 1021) (m := 4514293277213265) (p := 54) rfl (by norm_num) (by norm_num)
    (lt_of_pow_lt_pow_left₀ 10 (by positivity) ?_) (lt_of_pow_lt_pow_left₀ 10 (by positivity) ?_)
  all_goals
    rw [mul_pow, rpow_gmin_pow]
    norm_num

/-- Taylor's polynomial of `1 - e^(-x)` and its error. -/
theorem one_sub_exp_neg_near {x : ℝ} (h0 : 0 ≤ x) (h1 : x ≤ 1) :
    |1 - Real.exp (-x) - (x - x ^ 2 / 2 + x ^ 3 / 6 - x ^ 4 / 24 + x ^ 5 / 120 - x ^ 6 / 720)| ≤ x ^ 7 / 4410 := by
  have h := Real.exp_bound (x := -x) (by rwa [abs_neg, abs_of_nonneg h0]) (n := 7) (by decide)
  rw [abs_neg, abs_of_nonneg h0, abs_sub_comm] at h
  norm_num [Finset.sum_range_succ, Nat.factorial] at h
  convert h using 2 <;> ring

/-- A smoothing coefficient lies between the midpoints when its polynomial does, by more than the error. -/
theorem roundsTo_one_sub_exp_neg {x : ℝ} {e m p : ℕ} (h0 : 0 ≤ x) (h1 : x ≤ 1) (hp : e + p = 1075) (hm : 2 ^ 52 ≤ m)
    (hm' : m + 1 < 2 ^ 53)
    (hlo : (2 * m + 1 : ℝ) < (x - x ^ 2 / 2 + x ^ 3 / 6 - x ^ 4 / 24 + x ^ 5 / 120 - x ^ 6 / 720 - x ^ 7 / 4410) * 2 ^ p)
    (hhi : (x - x ^ 2 / 2 + x ^ 3 / 6 - x ^ 4 / 24 + x ^ 5 / 120 - x ^ 6 / 720 + x ^ 7 / 4410) * 2 ^ p < 2 * m + 3) :
    RoundsTo (1 - Real.exp (-x)) (pack false (e * 2 ^ 52 + (m + 1))) := by
  obtain ⟨hlower, hupper⟩ := abs_le.1 (one_sub_exp_neg_near h0 h1)
  have hpos : (0 : ℝ) < 2 ^ p := by positivity
  refine roundsTo_of_between hp hm hm' (hlo.trans_le ?_) (lt_of_le_of_lt ?_ hhi)
  · exact mul_le_mul_of_nonneg_right (by linarith) hpos.le
  · exact mul_le_mul_of_nonneg_right (by linarith) hpos.le

theorem roundsTo_alphaAtt : RoundsTo (1 - Real.exp (-1 / (5 / 1000 * 44100))) State.reset.alphaAtt := by
  rw [show (-1 : ℝ) / (5 / 1000 * 44100) = -(2 / 441) by norm_num]
  exact roundsTo_one_sub_exp_neg (e := 1014) (m := 5216830466136948) (p := 61) (by norm_num) (by norm_num) rfl (by norm_num)
    (by norm_num) (by norm_num) (by norm_num)

theorem roundsTo_alphaRel : RoundsTo (1 - Real.exp (-1 / (50 / 1000 * 44100))) State.reset.alphaRel := by
  rw [show (-1 : ℝ) / (50 / 1000 * 44100) = -(2 / 4410) by norm_num]
  exact roundsTo_one_sub_exp_neg (e := 1010) (m := 8363973592206201) (p := 65) (by norm_num) (by norm_num) rfl (by norm_num)
    (by norm_num) (by norm_num) (by norm_num)

/-- Settles O45: the decibels by a tenth power, the time constants by Taylor's polynomial. -/
theorem steeringResetValuesAreTheRoundedDefaults : Obligations.SteeringResetValuesAreTheRoundedDefaults := by
  refine ⟨roundsTo_gmin, ?_, roundsTo_alphaAtt, roundsTo_alphaRel⟩
  rw [zero_div, Real.rpow_zero]
  exact roundsTo_one

end Sys2Proof.F64
end

section
/-! SUPPORT. The obligations of the host's accesses (20_memory.md): what each offset of the window is, which accesses
complete and what they keep. -/

namespace Sys2Proof.Machine

open Sys2Proof Sys2Proof.Stated

/-! ### Registers, reserved offsets and buffers of the window (R71) -/

theorem mem_regMap_of_targetAt {a : Nat} {r : Reg} (h : targetAt a = .register r) : (a, r) ∈ regMap := by
  obtain ⟨-, hr⟩ := (targetAt_eq_register_iff a r).1 h
  obtain ⟨l₁, l₂, hl, -⟩ := List.lookup_eq_some_iff.1 hr
  simp [hl]

/-- The offsets that the table of R23 names are those of the two lists. -/
theorem regMap_offsets : ∀ p ∈ regMap, p.1 ∈ readOnlyOffsets ∨ p.1 ∈ writableOffsets := by decide

theorem targetAt_of_reservedOffset {a : Nat} (h : reservedOffset a) : targetAt a = .reserved := by
  obtain ⟨hlt, hro, hwr⟩ | hmid | hhi := h
  · cases hr : regAt a with
    | none => simp [targetAt, hlt, hr]
    | some r =>
      have hmem := mem_regMap_of_targetAt ((targetAt_eq_register_iff a r).2 ⟨hlt, hr⟩)
      exact ((regMap_offsets _ hmem).elim hro hwr).elim
  · rw [targetAt, if_neg (by omega), if_pos (by omega)]
  · rw [targetAt, if_neg (by omega), if_neg (by omega), if_neg (by omega), if_neg (by omega), if_neg (by omega)]

theorem targetAt_eq_outBuffer {a : Nat} (hlo : 0x300000 ≤ a) (hhi : a < 0x500000) : targetAt a = .outBuffer := by
  rw [targetAt, if_neg (by omega), if_neg (by omega), if_neg (by omega), if_pos hhi]

theorem reservedOffset_lt {a : Nat} (h : reservedOffset a) : a < Config.windowSize := by
  simp only [reservedOffset, Config.windowSize] at *
  omega

/-- In `IN`, `OUT` and `FFTW` a read returns the word that stands there (R71, R72). -/
theorem readWindow_buffer {a : Nat} (hlo : 0x100000 ≤ a) (hhi : a < 0x600000) (s : State) :
    readWindow a s = s.mem.readWord a := by
  obtain h | h | h : a < 0x300000 ∨ (0x300000 ≤ a ∧ a < 0x500000) ∨ 0x500000 ≤ a := by omega
  · simp only [readWindow, (targetAt_eq_inBuffer_iff a).2 ⟨hlo, h⟩]
  · simp only [readWindow, targetAt_eq_outBuffer h.1 h.2]
  · simp only [readWindow, (targetAt_eq_fftWindow_iff a).2 ⟨h, hhi⟩]

/-! ### Which accesses complete (R73 to R75, R84) -/

theorem hostStep_of_not_onBus {a : Access} (h : a.onBus = false) (s : State) :
    hostStep a s = .fault (.busError a.addr) := by
  simp [hostStep, h]

theorem hostStep_of_not_permitted {a : Access} {s : State} (hbus : a.onBus = true) (hb : s.busy = true)
    (hp : a.busyPermitted = false) : hostStep a s = .fault (.hostProtocolViolation a.addr) := by
  simp [hostStep, hbus, hb, hp]

/-- Settles O21: such an access is not on the bus, which the host's step asks first. -/
theorem wrongAccessesAreBusErrors : Obligations.WrongAccessesAreBusErrors := fun a s h =>
  hostStep_of_not_onBus (Bool.eq_false_iff.2 fun hbus => h ((Access.onBus_iff a).1 hbus)) s

/-- Where a list names the offsets of the registers with a property, an offset is listed when such a register stands there. -/
theorem exists_register_iff_mem {p : Reg → Bool} {offs : List Nat} (hmap : ∀ x ∈ regMap, p x.2 = true ↔ x.1 ∈ offs)
    (hoffs : ∀ a ∈ offs, ∃ x ∈ regMap, x.1 = a) (a : Nat) :
    (∃ r, targetAt a = .register r ∧ p r = true) ↔ a ∈ offs := by
  constructor
  · rintro ⟨r, htarget, hp⟩
    exact (hmap _ (mem_regMap_of_targetAt htarget)).1 hp
  · intro ha
    obtain ⟨⟨_, r⟩, hx, rfl⟩ := hoffs a ha
    exact ⟨r, (regMap_spec hx).1, (hmap _ hx).2 ha⟩

theorem busyPermitted_read_iff (w a : Nat) : (Access.read w a).busyPermitted = true ↔ a ∈ busyReads := by
  rw [← exists_register_iff_mem (p := Reg.busyReadable) (by decide) (by decide)]
  cases htarget : targetAt a <;> simp [Access.busyPermitted, htarget]

theorem busyPermitted_write_iff (w a : Nat) (v : Word) : (Access.write w a v).busyPermitted = true ↔ a ∈ busyWrites := by
  rw [← exists_register_iff_mem (p := Reg.busyWritable) (by decide) (by decide)]
  cases htarget : targetAt a <;> simp [Access.busyPermitted, htarget]

/-- Settles O22: the accesses that R84 permits are those at its offsets, and the others stop the step. -/
theorem busyPermitsOnlyTheListedAccesses : Obligations.BusyPermitsOnlyTheListedAccesses := by
  intro s a v hb hmod hwin
  have hread : (Access.read 4 a).onBus = true := (Access.onBus_iff _).2 ⟨rfl, hmod, hwin⟩
  have hwrite : (Access.write 4 a v).onBus = true := (Access.onBus_iff _).2 ⟨rfl, hmod, hwin⟩
  refine ⟨fun h => ?_, fun h => ?_, fun h => ?_, fun h => ?_⟩
  · exact hostStep_of_permitted hread (.inr ((busyPermitted_read_iff 4 a).2 h))
  · exact hostStep_of_not_permitted hread hb (Bool.eq_false_iff.2 (mt (busyPermitted_read_iff 4 a).1 h))
  · exact ⟨_, hostStep_of_permitted hwrite (.inr ((busyPermitted_write_iff 4 a v).2 h))⟩
  · exact hostStep_of_not_permitted hwrite hb (Bool.eq_false_iff.2 (mt (busyPermitted_write_iff 4 a v).1 h))

/-- The core's turn always answers a next state (R240). -/
theorem coreStep_next (s : State) : ∃ t, coreStep s = .next t := by
  obtain ⟨-, h⟩ | ⟨-, i, -, h⟩ | ⟨-, e, -, h⟩ := coreStep_cases s
  · exact ⟨_, h⟩
  · obtain ⟨t, ht, -⟩ := exec_performs i s
    exact ⟨t, h.trans ht⟩
  · exact ⟨_, h⟩

/-- A host step that faults: a bus error off the bus, or an access on it that R84 does not list while BUSY. -/
theorem hostStep_fault {a : Access} {s : State} {e : Fault} (h : hostStep a s = .fault e) :
    (e = .busError a.addr ∧ a.onBus = false) ∨
    (e = .hostProtocolViolation a.addr ∧ s.busy = true ∧ a.onBus = true ∧ a.busyPermitted = false) := by
  obtain ⟨hbus, hx⟩ | ⟨hbus, hb, hp, hx⟩ | ⟨-, -, hx⟩ := hostStep_cases a s <;> rw [hx] at h <;> cases h
  · exact .inl ⟨rfl, hbus⟩
  · exact .inr ⟨rfl, hb, hbus, hp⟩

theorem hostStep_not_refused (a : Access) (s : State) (q : Refusal) : hostStep a s ≠ .refused q := by
  obtain ⟨-, h⟩ | ⟨-, -, -, h⟩ | ⟨-, -, h⟩ := hostStep_cases a s <;> simp [h]

/-- Only a host access stops a step: the core's turn and a power-on answer a next state. -/
theorem step_next_or_host (s : State) :
    (∃ t, step s = .next t) ∨ ∃ a rest, s.inputs = .host a :: rest ∧ step s = hostStep a { s with inputs := rest } := by
  cases hin : s.inputs with
  | nil => exact .inl (step_nil s hin ▸ coreStep_next s)
  | cons input rest =>
    cases input with
    | host a => exact .inr ⟨a, rest, rfl, step_host s a rest hin⟩
    | core => exact .inl (step_core s rest hin ▸ coreStep_next _)
    | powerOn => exact .inl ⟨_, step_powerOn s rest hin⟩

/-- Settles O10: a step that stops is a host's, whose two faults are those of the bus and of R84. -/
theorem stepStopsOnlyOnHostErrors : Obligations.StepStopsOnlyOnHostErrors := by
  intro s
  obtain ⟨t, hs⟩ | ⟨a, rest, hin, hs⟩ := step_next_or_host s
  · simp [hs]
  refine ⟨fun q => hs ▸ hostStep_not_refused a _ q, fun e he => ⟨a, rest, hin, ?_⟩⟩
  obtain ⟨he, hbus⟩ | ⟨he, hb, hbus, hp⟩ := hostStep_fault (hs ▸ he)
  · exact .inl ⟨he, fun h => Bool.eq_false_iff.1 hbus ((Access.onBus_iff a).2 h)⟩
  · refine .inr ⟨he, hb, (Access.onBus_iff a).1 hbus, ?_, ?_⟩
    · rintro w off rfl hoff
      exact Bool.eq_false_iff.1 hp ((busyPermitted_read_iff w off).2 hoff)
    · rintro w off v rfl hoff
      exact Bool.eq_false_iff.1 hp ((busyPermitted_write_iff w off v).2 hoff)

/-! ### Accesses of an idle core (R76 to R78) -/

section
variable {s : State} (hb : s.busy = false) {a : Nat} (hmod : a % 4 = 0) (hwin : a < Config.windowSize)
include hb hmod hwin

theorem hostStep_read_idle : hostStep (.read 4 a) s = .next { s with returned := readWindow a s :: s.returned } :=
  hostStep_of_permitted (a := .read 4 a) ((Access.onBus_iff _).2 ⟨rfl, hmod, hwin⟩) (.inl hb)

theorem hostStep_write_idle (v : Word) : hostStep (.write 4 a v) s = .next (writeWindow a v s) :=
  hostStep_of_permitted (a := .write 4 a v) ((Access.onBus_iff _).2 ⟨rfl, hmod, hwin⟩) (.inl hb)

end

/-- Settles O20: by what stands at the offset, a read-only register, `OUT` or nothing. -/
theorem readOnlyAndReservedWritesAreIgnored : Obligations.ReadOnlyAndReservedWritesAreIgnored := by
  intro s a v hb hmod
  refine ⟨?_, fun hres => ?_⟩
  · rintro (hro | ⟨hlo, hhi⟩)
    · exact hostStep_write_readOnly hro hb v
    · rw [hostStep_write_idle hb hmod (hhi.trans (by decide)), writeWindow, targetAt_eq_outBuffer hlo hhi]
  · have htarget := targetAt_of_reservedOffset hres
    have hwin := reservedOffset_lt hres
    rw [hostStep_write_idle hb hmod hwin, hostStep_read_idle hb hmod hwin, writeWindow, readWindow, htarget]
    exact ⟨rfl, rfl⟩

/-! ### What a host access leaves (R27, R77, R78) -/

/-- LAST_OP is no host's to write (R27). -/
theorem Reg.write_lastOp (r : Reg) (v : Word) (s : State) : (r.write v s).lastOp = s.lastOp := by
  cases r with
  | cmd =>
    obtain ⟨b, p, o, h⟩ := writeCmd_eq v s
    exact (congrArg State.lastOp h :)
  | _ => rfl

theorem Access.perform_lastOp (a : Access) (s : State) : (a.perform s).lastOp = s.lastOp := by
  cases a with
  | read w off => rfl
  | write w off v =>
    simp only [Access.perform, writeWindow]
    split
    case h_1 r _ => exact r.write_lastOp v s
    all_goals rfl

/-- A host write stores its word in `IN` or `FFTW`, or leaves the buffers as they are (R46, R48, R78). -/
theorem writeWindow_mem_cases {a : Nat} (hmod : a % 4 = 0) (v : Word) (s : State) :
    (hostBufferWord a ∧ (writeWindow a v s).mem = s.mem.writeWord a v) ∨ (writeWindow a v s).mem = s.mem := by
  unfold writeWindow
  split
  case h_1 r _ => exact .inr (r.write_kept v s).2
  case h_2 h => exact .inl ⟨⟨hmod, .inl ((targetAt_eq_inBuffer_iff a).1 h)⟩, rfl⟩
  case h_4 h => exact .inl ⟨⟨hmod, .inr ((targetAt_eq_fftWindow_iff a).1 h)⟩, rfl⟩
  all_goals exact .inr rfl

/-- No host access stores in `OUT` (R78). -/
theorem Access.perform_readByte_out {a : Access} (ha : a.onBus = true) (s : State) {b : Nat} (hlo : 0x300000 ≤ b)
    (hhi : b < 0x500000) : (a.perform s).mem.readByte b = s.mem.readByte b := by
  cases a with
  | read w off => rfl
  | write w off v =>
    obtain ⟨-, (hmod : off % 4 = 0), -⟩ := (Access.onBus_iff _).1 ha
    rw [Access.perform]
    obtain ⟨⟨-, hbuf⟩, hmem⟩ | hmem := writeWindow_mem_cases hmod v s
    · have hlen : (bytesOfWord v).length = 4 := rfl
      rw [hmem, Memory.writeWord, Memory.readByte_writeBytes_of_not_mem _ _ _ _ (by omega)]
    · rw [hmem]

/-- Settles O25: the access that completes is the one performed, and neither a read nor a write touches these fields. -/
theorem hostStepsLeaveTheStreamAlone : Obligations.HostStepsLeaveTheStreamAlone := by
  intro s t a h
  obtain ⟨hbus, rfl⟩ := hostStep_next h
  obtain ⟨hcfg, hlanes, hhist, hgain, hcount, herr, hdetail⟩ := (State.kept_eq_iff s _).1 (a.perform_kept s)
  refine ⟨hcfg, hlanes, hhist, hgain, hcount, herr, a.perform_lastOp s, hdetail, fun b hlo hhi => ?_, ?_⟩
  · exact Access.perform_readByte_out hbus s hlo hhi
  · rintro w off rfl
    rfl

end Sys2Proof.Machine
end

section
/-! SUPPORT. Where the entries of the buffers stand (20_memory.md R71, R72, R80), byte by byte. -/

namespace Sys2Proof.Machine

open Sys2Proof Sys2Proof.Stated

/-! ### Words and binary64 values as little-endian numbers (R72) -/

theorem Memory.readWord_eq (m : Memory) (a : Nat) :
    m.readWord a = m.readByte (a + 3) ++ (m.readByte (a + 2) ++ (m.readByte (a + 1) ++ m.readByte a)) := by
  simp only [Memory.readWord, Memory.readBytes_eq]
  rfl

theorem Memory.toNat_readWord (m : Memory) (a : Nat) : (m.readWord a).toNat = (m.readByte a).toNat
    + 256 * (m.readByte (a + 1)).toNat + 256 ^ 2 * (m.readByte (a + 2)).toNat + 256 ^ 3 * (m.readByte (a + 3)).toNat := by
  simp only [Memory.readWord_eq, toNat_append_eq_add]
  omega

theorem Memory.toNat_readF64 (m : Memory) (a : Nat) : (m.readF64 a).toNat = (m.readByte a).toNat
    + 256 * (m.readByte (a + 1)).toNat + 256 ^ 2 * (m.readByte (a + 2)).toNat + 256 ^ 3 * (m.readByte (a + 3)).toNat
    + 256 ^ 4 * (m.readByte (a + 4)).toNat + 256 ^ 5 * (m.readByte (a + 5)).toNat + 256 ^ 6 * (m.readByte (a + 6)).toNat
    + 256 ^ 7 * (m.readByte (a + 7)).toNat := by
  have happ : (m.readF64 a).toNat = (m.readWord (a + 4)).toNat * 2 ^ 32 + (m.readWord a).toNat := toNat_append_eq_add _ _
  simp only [happ, Memory.toNat_readWord, Nat.add_assoc a, Nat.reduceAdd]
  omega

/-! ### Runs of values (R71, R80) -/

theorem Memory.readBytes_add (m : Memory) (a k n : Nat) :
    m.readBytes a (k + n) = m.readBytes a k ++ m.readBytes (a + k) n := by
  simp only [Memory.readBytes_eq, ← List.map_append, List.range'_append_1]

/-- The first eight bytes of a run are its first value. -/
theorem f64sOfBytes_readBytes_append (m : Memory) (a : Nat) (bs : List Byte) :
    f64sOfBytes (m.readBytes a 8 ++ bs) = m.readF64 a :: f64sOfBytes bs := by
  rw [Memory.readBytes_eq]
  refine congrArg (· :: f64sOfBytes bs) (BitVec.eq_of_toNat_eq ?_)
  rw [Memory.toNat_readF64]
  simp only [toNat_append_eq_add]
  simp only [Nat.add_assoc a, Nat.reduceAdd]
  omega

theorem Memory.readF64s_succ (m : Memory) (a n : Nat) : m.readF64s a (n + 1) = m.readF64 a :: m.readF64s (a + 8) n := by
  rw [Memory.readF64s, show 8 * (n + 1) = 8 + 8 * n by omega, Memory.readBytes_add, f64sOfBytes_readBytes_append,
    Memory.readF64s]

/-- Value `k` of a run stands `8k` above its first. -/
theorem Memory.readF64s_getElem? (m : Memory) (a : Nat) {n k : Nat} (h : k < n) :
    (m.readF64s a n)[k]? = some (m.readF64 (a + 8 * k)) := by
  induction n generalizing a k with
  | zero => omega
  | succ n ih =>
    rw [Memory.readF64s_succ]
    cases k with
    | zero => rfl
    | succ k => rw [List.getElem?_cons_succ, ih (a + 8) (by omega), show a + 8 + 8 * k = a + 8 * (k + 1) by omega]

/-- Entry `k` of a complex list is made of values `2k` and `2k + 1`. -/
theorem cxsOfF64s_getElem? (xs : List F64) {k : Nat} {x y : F64} (hx : xs[2 * k]? = some x) (hy : xs[2 * k + 1]? = some y) :
    (cxsOfF64s xs)[k]? = some ⟨x, y⟩ := by
  induction k generalizing xs with
  | zero =>
    match xs, hx, hy with
    | _ :: _ :: _, rfl, rfl => rfl
  | succ k ih =>
    match xs, hx, hy with
    | _ :: _ :: t, hx, hy => exact ih t hx hy

theorem readFftw_getElem? (m : Memory) {n k : Nat} (h : k < n) :
    (readFftw m n)[k]? = some ⟨m.readF64 (fftReAddr k), m.readF64 (fftImAddr k)⟩ := by
  have hre : fftReAddr 0 + 8 * (2 * k) = fftReAddr k := by simp only [fftReAddr]; omega
  have him : fftReAddr 0 + 8 * (2 * k + 1) = fftImAddr k := by simp only [fftReAddr, fftImAddr]; omega
  rw [← hre, ← him]
  exact cxsOfF64s_getElem? _ (m.readF64s_getElem? _ (by omega)) (m.readF64s_getElem? _ (by omega))

/-- Settles O37: entries by their place in a run of values, words and values by their bytes. -/
theorem bufferEntriesStandAtTheirOffsets : Obligations.BufferEntriesStandAtTheirOffsets := by
  intro m n k hk
  refine ⟨readFftw_getElem? m hk, fun l => m.readF64s_getElem? (inAddr l 0) hk, m.toNat_readF64, fun s a hmod hwin => ?_⟩
  refine ⟨fun hb => hostStep_read_idle hb hmod hwin, fun hlo hhi => ?_⟩
  rw [readWindow_buffer hlo hhi, Memory.toNat_readWord]

end Sys2Proof.Machine
end

section
/-! SUPPORT. The cores of a platform share nothing (20_memory.md R89, 60_exceptions.md R254). -/

namespace Sys2Proof.Machine

open Sys2Proof

theorem CoreAt.holds_iff (c : CoreAt) (p : Nat) : c.holds p = true ↔ c.base ≤ p ∧ p < c.base + Config.windowSize := by
  simp [CoreAt.holds]

/-- An access that completes on a platform is that of the first core whose window holds the address. -/
theorem platformAccess_next {a : Access} {cs ds : List CoreAt} (h : platformAccess a cs = .next ds) :
    ds.map CoreAt.base = cs.map CoreAt.base ∧ ∃ (i : Nat) (c d : CoreAt), cs[i]? = some c ∧ ds[i]? = some d ∧
      c.holds a.addr = true ∧ (∀ (j : Nat) (b : CoreAt), j < i → cs[j]? = some b → b.holds a.addr = false) ∧
      hostStep (a.relative c.base) c.core = .next d.core ∧ ∀ j : Nat, j ≠ i → ds[j]? = cs[j]? := by
  induction cs generalizing ds with
  | nil => cases h
  | cons c cs ih =>
    rw [platformAccess] at h
    split at h
    case isTrue hc =>
      split at h <;> cases h
      rename_i s hs
      refine ⟨rfl, 0, c, _, rfl, rfl, hc, fun j b hj => absurd hj (by omega), hs, fun j hj => ?_⟩
      obtain ⟨j, rfl⟩ := Nat.exists_eq_succ_of_ne_zero hj
      rfl
    case isFalse hc =>
      split at h <;> cases h
      rename_i ds hds
      obtain ⟨hbase, i, c', d, hci, hdi, hholds, hfirst, hstep, hothers⟩ := ih hds
      refine ⟨by simp [hbase], i + 1, c', d, hci, hdi, hholds, fun j b hj hb => ?_, hstep, fun j hj => ?_⟩
      · cases j with
        | zero =>
          cases hb
          exact Bool.eq_false_iff.2 hc
        | succ j => exact hfirst j b (by omega) hb
      · cases j with
        | zero => rfl
        | succ j => exact hothers j (by omega)

/-- Settles O26: by the kind of input, a core step or a power-on of one core, or an access of the first that holds it. -/
theorem instancesShareNothing : Obligations.InstancesShareNothing := by
  intro e cs ds h
  cases e with
  | host a =>
    obtain ⟨hbase, i, c, d, hc, hd, hholds, hfirst, hstep, hothers⟩ := platformAccess_next h
    refine ⟨hbase, by simp, ?_⟩
    rintro _ ⟨⟩
    refine ⟨i, c, d, hc, hd, (c.holds_iff _).1 hholds, fun j b hj hb => ?_, hstep, hothers⟩
    exact mt (b.holds_iff _).2 (Bool.eq_false_iff.1 (hfirst j b hj hb))
  | core n =>
    obtain ⟨hbase, hothers, hact⟩ := platformAt_cases _ n cs ds h
    refine ⟨hbase, ?_, by simp⟩
    rintro _ (⟨⟨⟩⟩ | ⟨⟨⟩⟩)
    refine ⟨hothers, fun c hc => ?_⟩
    obtain ⟨s, hs, hd⟩ := hact c hc
    exact ⟨_, hd, fun _ => hs, by simp⟩
  | powerOn n =>
    obtain ⟨hbase, hothers, hact⟩ := platformAt_cases _ n cs ds h
    refine ⟨hbase, ?_, by simp⟩
    rintro _ (⟨⟨⟩⟩ | ⟨⟨⟩⟩)
    refine ⟨hothers, fun c hc => ?_⟩
    obtain ⟨s, hs, hd⟩ := hact c hc
    cases hs
    exact ⟨_, hd, by simp, fun _ => rfl⟩

end Sys2Proof.Machine
end

section
/-! SUPPORT. The decoder and the encoder (30_encoding.md): a word's fields as numbers, the three outcomes of decode, and each
of the two as the inverse of the other. -/

namespace Sys2Proof.Machine

open Sys2Proof Sys2Proof.Stated

/-! ### The fields of a word (R100 to R103) -/

theorem toNat_opField (w : Word) : (opField w).toNat = w.toNat % 256 := toNat_lowField 8 w

theorem opField_eq_ofNat (w : Word) : opField w = BitVec.ofNat 8 (w.toNat % 256) := by
  rw [← toNat_opField, BitVec.ofNat_toNat, BitVec.setWidth_eq]

theorem opField_eq_iff (w : Word) (op : BitVec 8) : opField w = op ↔ w.toNat % 256 = op.toNat := by
  rw [← BitVec.toNat_inj, toNat_opField]

theorem toNat_upperField (w : Word) : (upperField w).toNat = w.toNat / 256 := by
  have hw := w.isLt
  rw [upperField, BitVec.extractLsb'_toNat, Nat.shiftRight_eq_div_pow]
  omega

theorem upperField_eq_zero_iff (w : Word) : upperField w = 0#24 ↔ w.toNat / 256 = 0 := by
  rw [← BitVec.toNat_inj, toNat_upperField, BitVec.toNat_zero]

theorem nchField_eq (w : Word) : nchField w = w.toNat / 256 % 16 := by
  rw [nchField, BitVec.extractLsb'_toNat, Nat.shiftRight_eq_div_pow]

theorem toNat_cntBits (w : Word) : (w.extractLsb' 12 20).toNat = w.toNat / 4096 := by
  have hw := w.isLt
  rw [BitVec.extractLsb'_toNat, Nat.shiftRight_eq_div_pow]
  omega

/-- Bit 31 of the word is the sign of `CNT` (R103). -/
theorem cntField_eq (w : Word) : cntField w =
    if w.toNat < 2147483648 then ((w.toNat / 4096 : Nat) : Int) else ((w.toNat / 4096 : Nat) : Int) - 1048576 := by
  have hsign : 2 * (w.toNat / 4096) < 2 ^ 20 ↔ w.toNat < 2147483648 := by omega
  rw [cntField, BitVec.toInt_eq_toNat_cond, toNat_cntBits, if_congr hsign rfl rfl]
  rfl

theorem upperField_append_opField (w : Word) : upperField w ++ opField w = w :=
  (BitVec.extractLsb'_append_extractLsb'_eq_extractLsb' rfl).trans BitVec.extractLsb'_eq_self

/-- The three fields of R100 leave out no bit. -/
theorem cntBits_append_nchBits_append_opField (w : Word) : w.extractLsb' 12 20 ++ (w.extractLsb' 8 4 ++ opField w) = w := by
  have hlow : w.extractLsb' 8 4 ++ opField w = w.extractLsb' 0 12 := BitVec.extractLsb'_append_extractLsb'_eq_extractLsb' rfl
  rw [hlow]
  exact (BitVec.extractLsb'_append_extractLsb'_eq_extractLsb' rfl).trans BitVec.extractLsb'_eq_self

/-! ### The outcomes of decode (R105 to R108) -/

theorem opField_mem_legalOps_iff (w : Word) : opField w ∈ legalOps ↔ w.toNat % 256 ≤ 0x05 ∨ w.toNat % 256 = 0x0F := by
  simp only [legalOps, List.mem_cons, List.not_mem_nil, or_false, opField_eq_iff, BitVec.toNat_ofNat, Nat.reducePow,
    Nat.reduceMod]
  omega

theorem decode_eq_reservedOpcode {w : Word} (h : opField w ∉ legalOps) : decode w = .error .reservedOpcode := if_pos h

theorem decode_eq_reservedBits {w : Word} (hop : opField w ∈ legalOps) (hhop : opField w ≠ 0x03#8)
    (hup : upperField w ≠ 0#24) : decode w = .error .reservedBits := by
  rw [decode, if_neg (not_not_intro hop), if_pos ⟨hhop, hup⟩]

theorem decode_hop {w : Word} (h : opField w = 0x03#8) : decode w = .ok (.hop (nchField w) (cntField w)) := by
  simp [decode, ofOpcode, h, legalOps]

/-- A word that decodes is HOP's, or its opcode is legal and its other bits are 0. -/
theorem hop_or_opcode_alone_of_decode_eq_ok {w : Word} {i : Instr} (h : decode w = .ok i) :
    opField w = 0x03#8 ∨ (opField w ∈ legalOps ∧ opField w ≠ 0x03#8 ∧ w = 0#24 ++ opField w) := by
  by_cases hhop : opField w = 0x03#8
  · exact .inl hhop
  by_cases hop : opField w ∈ legalOps
  · by_cases hup : upperField w = 0#24
    · exact .inr ⟨hop, hhop, by rw [← hup, upperField_append_opField]⟩
    · rw [decode_eq_reservedBits hop hhop hup] at h
      cases h
  · rw [decode_eq_reservedOpcode hop] at h
    cases h

/-- Settles O1: by running the decoder and the assembler. -/
theorem writtenOutWordsDecode : Obligations.WrittenOutWordsDecode := by
  unfold Obligations.WrittenOutWordsDecode
  decide

/-- Settles O4: every word with HOP's opcode decodes, and its fields are numbers of the word. -/
theorem hopFieldsReadFromTheWord : Obligations.HopFieldsReadFromTheWord := by
  intro w hw
  rw [decode_hop ((opField_eq_iff w _).2 hw), nchField_eq, cntField_eq]

/-! ### Decoding what is encoded, and encoding what is decoded (R109) -/

theorem wf_hop_iff (nch : Nat) (cnt : Int) : (Instr.hop nch cnt).wf = true ↔ nch < 16 ∧ -524288 ≤ cnt ∧ cnt ≤ 524287 := by
  simp [Instr.wf, nchFits, cntFits]

theorem nchField_encode_hop {nch : Nat} (h : nch < 16) (cnt : Int) : nchField (encode (.hop nch cnt)) = nch := by
  have hword : (encode (.hop nch cnt)).toNat = (BitVec.ofInt 20 cnt).toNat * 2 ^ 12 + (nch % 2 ^ 4 * 2 ^ 8 + 3) := by
    rw [encode, toNat_append_eq_add, toNat_append_eq_add, BitVec.toNat_ofNat, BitVec.toNat_ofNat]
  rw [nchField_eq, hword]
  omega

theorem cntField_encode_hop (nch : Nat) {cnt : Int} (hlo : -524288 ≤ cnt) (hhi : cnt ≤ 524287) :
    cntField (encode (.hop nch cnt)) = cnt := by
  have hbits : (encode (.hop nch cnt)).extractLsb' 12 20 = BitVec.ofInt 20 cnt := BitVec.extractLsb'_append_eq_left
  rw [cntField, hbits]
  exact BitVec.toInt_ofInt_eq_self (by decide) hlo (by omega)

theorem decode_encode {i : Instr} (h : i.wf = true) : decode (encode i) = .ok i := by
  cases i with
  | hop nch cnt =>
    obtain ⟨hnch, hlo, hhi⟩ := (wf_hop_iff nch cnt).1 h
    rw [decode_hop (Laws.OpcodeByte.hop nch cnt), nchField_encode_hop hnch, cntField_encode_hop nch hlo hhi]
  | nop | configure | clear | fftFwd | fftInv | softReset => decide

theorem encode_hop_of_fields {w : Word} (h : opField w = 0x03#8) : encode (.hop (nchField w) (cntField w)) = w := by
  rw [encode, nchField, cntField, BitVec.ofInt_toInt, BitVec.ofNat_toNat, BitVec.setWidth_eq, ← h]
  exact cntBits_append_nchBits_append_opField w

theorem wf_hop_of_fields (w : Word) : (Instr.hop (nchField w) (cntField w)).wf = true :=
  (wf_hop_iff _ _).2 ⟨BitVec.isLt _, BitVec.le_toInt _, BitVec.toInt_le⟩

/-- A word of a legal opcode alone is the word of the command that the opcode selects (R104). -/
theorem exists_decode_opcode_alone : ∀ op ∈ legalOps, op ≠ 0x03#8 →
    ∃ i, decode (0#24 ++ op) = .ok i ∧ encode i = 0#24 ++ op ∧ i.wf = true := by
  simp only [legalOps, List.forall_mem_cons]
  exact ⟨fun _ => ⟨.nop, by decide⟩, fun _ => ⟨.configure, by decide⟩, fun _ => ⟨.clear, by decide⟩, fun h => absurd rfl h,
    fun _ => ⟨.fftFwd, by decide⟩, fun _ => ⟨.fftInv, by decide⟩, fun _ => ⟨.softReset, by decide⟩, by simp⟩

/-- Settles O2: the assembler asks whether the command is well-formed, and then HOP's fields read back. -/
theorem decodeOfEncodeIsTheCommand : Obligations.DecodeOfEncodeIsTheCommand := by
  intro i
  exact ⟨fun h => ⟨decode_encode h, if_pos h⟩, fun h => if_neg (Bool.eq_false_iff.1 h)⟩

/-- Settles O3: HOP's word is its three fields, and every other word is its opcode alone. -/
theorem encodeOfDecodeIsTheWord : Obligations.EncodeOfDecodeIsTheWord := by
  intro w i h
  obtain hhop | ⟨hop, hne, hw⟩ := hop_or_opcode_alone_of_decode_eq_ok h
  · rw [decode_hop hhop] at h
    cases h
    exact ⟨encode_hop_of_fields hhop, wf_hop_of_fields w⟩
  · obtain ⟨j, hj, hword, hwf⟩ := exists_decode_opcode_alone _ hop hne
    rw [← hw] at hj hword
    cases hj.symm.trans h
    exact ⟨hword, hwf⟩

/-! ### Illegal commands in the core's turn (R105, R106) -/

/-- An illegal word completes with ERR 4 and the detail of its check, in either form of the core's turn. -/
theorem step_of_decode_error {s : State} {e : Illegal} (hb : s.busy = true) (hd : decode s.pending = .error e) :
    (s.inputs = [] → step s = .next (failed (BitVec.ofNat 8 (s.pending.toNat % 256)) 4#4 (illegalError e).detail s)) ∧
    (∀ rest, s.inputs = .core :: rest →
      step s = .next (failed (BitVec.ofNat 8 (s.pending.toNat % 256)) 4#4 (illegalError e).detail { s with inputs := rest })) := by
  have hturn (u : State) (hub : u.busy = true) (hud : decode u.pending = .error e) :
      coreStep u = .next (failed (BitVec.ofNat 8 (u.pending.toNat % 256)) 4#4 (illegalError e).detail u) := by
    rw [← opField_eq_ofNat]
    simp only [coreStep, hub, performPending, hud, execIllegal, if_true]
    cases e <;> rfl
  exact ⟨fun h => (step_nil s h).trans (hturn s hb hd), fun rest h => (step_core s rest h).trans (hturn _ hb hd)⟩

/-- Settles O7: the decoder looks at the opcode first. -/
theorem reservedOpcodesAreIllegal : Obligations.ReservedOpcodesAreIllegal := by
  intro s hb hop
  have hreserved : opField s.pending ∉ legalOps := by
    rw [opField_mem_legalOps_iff]
    omega
  exact step_of_decode_error hb (decode_eq_reservedOpcode hreserved)

/-- Settles O8: the opcode is legal and not HOP's, so the decoder looks at the other bits. -/
theorem reservedBitsAreIllegal : Obligations.ReservedBitsAreIllegal := by
  intro s hb hop hup
  simp only [List.mem_cons, List.not_mem_nil, or_false] at hop
  have hlegal : opField s.pending ∈ legalOps := by
    rw [opField_mem_legalOps_iff]
    omega
  have hhop : opField s.pending ≠ 0x03#8 := by
    rw [Ne, opField_eq_iff, BitVec.toNat_ofNat]
    omega
  exact step_of_decode_error hb (decode_eq_reservedBits hlegal hhop (mt (upperField_eq_zero_iff _).1 hup))

end Sys2Proof.Machine
end

section
/-! SUPPORT. The transforms as loops over indices (40_fft.md R121 to R126): bit reversal and its permutation, then one stage of
a list as one stage of a function of the index. -/

namespace Sys2Proof.Machine

open Sys2Proof

/-! ### Bit reversal (R124, R125) -/

theorem bitrev_lt (l i : ℕ) : bitrev l i < 2 ^ l := by
  induction l generalizing i with
  | zero => simp [bitrev]
  | succ l ih =>
    have hlow : (i % 2) * 2 ^ l ≤ 1 * 2 ^ l := Nat.mul_le_mul_right _ (by omega)
    have := ih (i / 2)
    rw [bitrev, pow_succ]
    omega

theorem testBit_bitrev (l i : ℕ) {b : ℕ} (hb : b < l) : (bitrev l i).testBit b = i.testBit (l - 1 - b) := by
  induction l generalizing i with
  | zero => omega
  | succ l ih =>
    rw [bitrev, Nat.mul_comm, Nat.testBit_two_pow_mul_add _ (bitrev_lt l (i / 2))]
    obtain hlow | rfl := Nat.lt_or_eq_of_le (Nat.lt_succ_iff.1 hb)
    · rw [if_pos hlow, ih _ hlow, Nat.testBit_div_two]
      congr 1
      omega
    · rw [if_neg (lt_irrefl _), Nat.add_sub_cancel, Nat.sub_self, Nat.testBit_zero, Nat.testBit_zero, Nat.mod_mod]

theorem bitrev_bitrev {l i : ℕ} (hi : i < 2 ^ l) : bitrev l (bitrev l i) = i := by
  refine Nat.eq_of_testBit_eq fun b => ?_
  obtain hb | hb := Nat.lt_or_ge b l
  · rw [testBit_bitrev l _ hb, testBit_bitrev l i (by omega), show l - 1 - (l - 1 - b) = b by omega]
  · have hpow : 2 ^ l ≤ 2 ^ b := Nat.pow_le_pow_right two_pos hb
    rw [Nat.testBit_lt_two_pow ((bitrev_lt l _).trans_le hpow), Nat.testBit_lt_two_pow (hi.trans_le hpow)]

theorem evens_getElem? {α : Type} (x : List α) (i : ℕ) : (evens x)[i]? = x[2 * i]? := by
  induction x using evens.induct generalizing i with
  | case1 => rfl
  | case2 a => cases i <;> simp [evens, Nat.mul_succ]
  | case3 a b t ih =>
    cases i with
    | zero => rfl
    | succ i => exact ih i

theorem odds_getElem? {α : Type} (x : List α) (i : ℕ) : (odds x)[i]? = x[2 * i + 1]? := by
  rw [odds, evens_getElem?, List.getElem?_tail]

/-- The permutation moves element `i` to its reversed index. -/
theorem bitReverse_getElem?_bitrev {α : Type} {l i : ℕ} {x : List α} (hi : i < 2 ^ l) (hx : x.length = 2 ^ l) :
    (bitReverse l x)[bitrev l i]? = x[i]? := by
  induction l generalizing i x with
  | zero =>
    obtain rfl : i = 0 := by simpa using hi
    rfl
  | succ l ih =>
    rw [pow_succ] at hi hx
    have hlen : (bitReverse l (evens x)).length = 2 ^ l := by
      rw [bitReverse_length, evens_length]
      omega
    rw [bitReverse, bitrev]
    obtain hpar | hpar := Nat.mod_two_eq_zero_or_one i <;> rw [hpar]
    · rw [Nat.zero_mul, Nat.zero_add, List.getElem?_append_left (hlen ▸ bitrev_lt l _),
        ih (by omega) (by rw [evens_length]; omega), evens_getElem?, show 2 * (i / 2) = i by omega]
    · rw [Nat.one_mul, List.getElem?_append_right (hlen ▸ Nat.le_add_right _ _), hlen, Nat.add_sub_cancel_left,
        ih (by omega) (by rw [odds_length]; omega), odds_getElem?, show 2 * (i / 2) + 1 = i by omega]

/-- Settles O38: both facts by induction on the number of index bits, the lowest bit of the index becoming the top bit. -/
theorem bitReversalPermutesByReversedIndex : Obligations.BitReversalPermutesByReversedIndex := fun l i _ hi hx =>
  ⟨bitrev_lt l i, fun _ hb => testBit_bitrev l i hb, bitReverse_getElem?_bitrev hi hx⟩

/-! ### One stage (R123, R125) -/

/-- A list that holds the values of a function at the indices below `n`. -/
def Holds (n : ℕ) (a : List Cx) (f : ℕ → Cx) : Prop := a.length = n ∧ ∀ i, i < n → a[i]? = some (f i)

theorem butterflies_getElem? {us xs ws : List Cx} {j : ℕ} {u x w : Cx} (hu : us[j]? = some u) (hx : xs[j]? = some x)
    (hw : ws[j]? = some w) :
    (butterflies us xs ws).1[j]? = some (butterfly u x w).1 ∧ (butterflies us xs ws).2[j]? = some (butterfly u x w).2 := by
  induction j generalizing us xs ws with
  | zero =>
    match us, xs, ws, hu, hx, hw with
    | _ :: _, _ :: _, _ :: _, rfl, rfl, rfl => exact ⟨rfl, rfl⟩
  | succ j ih =>
    match us, xs, ws, hu, hx, hw with
    | _ :: _, _ :: _, _ :: _, hu, hx, hw => exact ih hu hx hw

/-- A stage treats each block of `2 * half` elements like the first. -/
theorem loopStage_add_block (tw : ℕ → Cx) (n half : ℕ) (f : ℕ → Cx) (i : ℕ) :
    loopStage tw n half f (i + 2 * half) = loopStage tw n half (fun j => f (j + 2 * half)) i := by
  have hback (h : half ≤ i) : i + 2 * half - half = i - half + 2 * half := by omega
  simp only [loopStage, Nat.add_mod_right, Nat.add_right_comm i (2 * half) half]
  split
  next => rfl
  next h =>
    have := Nat.mod_le i (2 * half)
    rw [hback (by omega)]

/-- One stage of a list is one stage of the loops over indices. -/
theorem holds_fftStage {tw : ℕ → Cx} {n m half blocks : ℕ} {ws a : List Cx} {f : ℕ → Cx} (hm : m = blocks * (2 * half))
    (hws : ws.length = half) (hw : ∀ j, j < half → ws[j]? = some (tw (j * (n / (2 * half))))) (ha : Holds m a f) :
    Holds m (fftStage half ws blocks a) (loopStage tw n half f) := by
  subst hm
  obtain ⟨hlen, hf⟩ := ha
  refine ⟨by rw [fftStage_length half ws hws blocks a hlen, hlen], ?_⟩
  induction blocks generalizing a f with
  | zero => intro i hi; omega
  | succ blocks ih =>
    rw [Nat.succ_mul] at hlen hf ⊢
    intro i hi
    have hlens := butterflies_length (a.take half) ((a.drop half).take half) ws half (by simp; omega) (by simp; omega) hws
    have hpair {j : ℕ} (hj : j < half) := butterflies_getElem? (us := a.take half) (xs := (a.drop half).take half)
      (by rw [List.getElem?_take_of_lt hj, hf j (by omega)])
      (by rw [List.getElem?_take_of_lt hj, List.getElem?_drop, hf (half + j) (by omega)]) (hw j hj)
    have hblock : ((butterflies (a.take half) ((a.drop half).take half) ws).1 ++
        (butterflies (a.take half) ((a.drop half).take half) ws).2).length = 2 * half := by
      rw [List.length_append]
      omega
    rw [fftStage]
    obtain hfirst | hrest := Nat.lt_or_ge i (2 * half)
    · rw [List.getElem?_append_left (by omega), loopStage, Nat.mod_eq_of_lt hfirst]
      split
      next hup => rw [List.getElem?_append_left (by omega), (hpair hup).1, Nat.add_comm half]
      next hlow =>
        rw [List.getElem?_append_right (by omega), hlens.1, (hpair (by omega)).2, show half + (i - half) = i by omega]
    · obtain ⟨i, rfl⟩ := Nat.exists_eq_add_of_le' hrest
      rw [List.getElem?_append_right (by omega), hblock, Nat.add_sub_cancel, loopStage_add_block]
      refine ih (by rw [List.length_drop]; omega) (fun j hj => ?_) i (by omega)
      rw [List.getElem?_drop, Nat.add_comm, hf _ (by omega)]

/-! ### All stages -/

theorem stageTwiddles_getElem? (tw : ℕ → Cx) (n : ℕ) {l j : ℕ} (hj : j < 2 ^ l) :
    (stageTwiddles tw n l)[j]? = some (tw (j * (n / (2 * 2 ^ l)))) := by
  rw [stageTwiddles, List.getElem?_map, List.getElem?_range hj, pow_succ']
  rfl

/-- The first `m` stages of a list are those of the loops over indices. -/
theorem holds_foldl_fftStage {tw : ℕ → Cx} {l m : ℕ} {a : List Cx} {f : ℕ → Cx} (hm : m ≤ l) (ha : Holds (2 ^ l) a f) :
    Holds (2 ^ l) ((List.range m).foldl
      (fun a i => fftStage (2 ^ i) (stageTwiddles tw (2 ^ l) i) (2 ^ l / 2 ^ (i + 1)) a) a)
      (loopStages tw (2 ^ l) f m) := by
  induction m with
  | zero => exact ha
  | succ m ih =>
    rw [List.range_succ, List.foldl_append]
    have hblocks : 2 ^ l = 2 ^ l / 2 ^ (m + 1) * (2 * 2 ^ m) := by
      rw [← pow_succ', Nat.div_mul_cancel (Nat.pow_dvd_pow 2 hm)]
    exact holds_fftStage hblocks (stageTwiddles_length _ _ _) (fun j => stageTwiddles_getElem? tw _) (ih (by omega))

theorem fftStages_bitReverse_getElem? (tw : ℕ → Cx) {l i : ℕ} {x : List Cx} (hi : i < 2 ^ l) (hx : x.length = 2 ^ l) :
    (fftStages tw (2 ^ l) (bitReverse (Nat.log2 (2 ^ l)) x))[i]? = some (loopFft tw l x i) := by
  rw [fftStages, Nat.log2_two_pow]
  refine (holds_foldl_fftStage le_rfl ⟨by rw [bitReverse_length, hx], fun j hj => ?_⟩).2 i hi
  have hget := bitReverse_getElem?_bitrev (bitrev_lt l j) hx
  rw [bitrev_bitrev hj] at hget
  rw [hget, List.getD_eq_getElem _ _ (hx ▸ bitrev_lt l j), List.getElem?_eq_getElem]

theorem inverseScale_eq (n : ℕ) : inverseScale n = F64.round false (2 ^ 1074) n := by
  rw [inverseScale]
  generalize 1074 = k
  rw [Nat.one_shiftLeft]

/-- Settles O39: the product and the butterfly by their definitions, the transforms by induction on the stages, and each stage by
induction on its blocks. -/
theorem fftIsTheLoopsOverIndices : Obligations.FftIsTheLoopsOverIndices := by
  refine ⟨fun ur ui xr xi wr wi => ⟨rfl, rfl⟩, fun l i x hi hx => ⟨fftStages_bitReverse_getElem? _ hi hx, ?_⟩⟩
  rw [ifft, List.getElem?_map, fftStages_bitReverse_getElem? _ hi hx, Option.map_some, inverseScale_eq]

end Sys2Proof.Machine
end

section
/-! SUPPORT. The commands FFT_FWD and FFT_INV on their window (40_fft.md R128, R129): values read back after their store, and
what a computed value shows. -/

namespace Sys2Proof.Machine

open Sys2Proof Sys2Proof.Stated

/-! ### Values after their store (R72) -/

theorem f64sOfBytes_bytesOfF64_append (x : F64) (bs : List Byte) : f64sOfBytes (bytesOfF64 x ++ bs) = x :: f64sOfBytes bs := by
  refine congrArg (· :: f64sOfBytes bs) (BitVec.eq_of_toNat_eq ?_)
  simp only [toNat_append_eq_add, BitVec.extractLsb'_toNat, Nat.shiftRight_eq_div_pow]
  omega

theorem f64sOfBytes_bytesOfF64s (xs : List F64) : f64sOfBytes (bytesOfF64s xs) = xs := by
  induction xs with
  | nil => rfl
  | cons x xs ih => rw [bytesOfF64s, f64sOfBytes_bytesOfF64_append, ih]

/-- A run of values reads back after its store. -/
theorem Memory.readF64s_writeF64s_same (m : Memory) (a : ℕ) (xs : List F64) : (m.writeF64s a xs).readF64s a xs.length = xs := by
  rw [Memory.readF64s, Memory.writeF64s, ← bytesOfF64s_length, Memory.readBytes_writeBytes_same, f64sOfBytes_bytesOfF64s]

theorem Memory.readF64_writeF64s (m : Memory) (a : ℕ) {xs : List F64} {k : ℕ} {x : F64} (h : xs[k]? = some x) :
    (m.writeF64s a xs).readF64 (a + 8 * k) = x := by
  have hget := (m.writeF64s a xs).readF64s_getElem? a (List.getElem?_eq_some_iff.1 h).1
  rw [Memory.readF64s_writeF64s_same, h] at hget
  exact (Option.some.inj hget).symm

/-! ### Computed values where the host reads them -/

theorem publishFrom_getElem? (src : NaNSource) (a : ℕ) (xs : List F64) (k : ℕ) :
    (publishFrom src a xs)[k]? = xs[k]?.map (publish src (a + 8 * k)) := by
  induction xs generalizing a k with
  | nil => rfl
  | cons x xs ih =>
    cases k with
    | zero => rfl
    | succ k =>
      rw [publishFrom, List.getElem?_cons_succ, List.getElem?_cons_succ, ih, show a + 8 + 8 * k = a + 8 * (k + 1) by omega]

theorem shows_publish (src : NaNSource) (place : ℕ) (x : F64) : Shows x (publish src place x) := by
  rw [Shows, isNaN_publish]
  split
  next h => exact h
  next h => exact publish_of_not_nan src place x (Bool.eq_false_iff.2 h)

/-- A value stored from a list of computed values shows the computed one. -/
theorem shows_readF64_writeF64s (m : Memory) (src : NaNSource) (a : ℕ) {xs : List F64} {k : ℕ} {x : F64} (h : xs[k]? = some x) :
    Shows x ((m.writeF64s a (publishFrom src a xs)).readF64 (a + 8 * k)) := by
  rw [m.readF64_writeF64s a (by rw [publishFrom_getElem?, h]; rfl)]
  exact shows_publish src _ x

/-! ### The window (R71) -/

theorem f64sOfCxs_getElem? {xs : List Cx} {k : ℕ} {x : Cx} (h : xs[k]? = some x) :
    (f64sOfCxs xs)[2 * k]? = some x.re ∧ (f64sOfCxs xs)[2 * k + 1]? = some x.im := by
  induction k generalizing xs with
  | zero =>
    match xs, h with
    | _ :: _, rfl => exact ⟨rfl, rfl⟩
  | succ k ih =>
    match xs, h with
    | _ :: _, h => exact ih h

/-- What `writeFftw` leaves: each part of each entry shows the computed value, and no byte outside the entries changes. -/
theorem transforms_writeFftw (s : State) (op : BitVec 8) {n : ℕ} {xs : List Cx} (hxs : xs.length = n) :
    transforms s op n xs (.next (succeed op (writeFftw xs s))) := by
  refine ⟨_, rfl, rfl, fun k hk => ?_, fun a ha => ?_⟩
  · have hget : xs[k]? = some (xs.getD k Cx.zero) := by
      rw [List.getD_eq_getElem _ _ (hxs ▸ hk), List.getElem?_eq_getElem]
    obtain ⟨hre, him⟩ := f64sOfCxs_getElem? hget
    have hreAddr : 0x500000 + 16 * k = fftReAddr 0 + 8 * (2 * k) := by rw [fftReAddr]; omega
    have himAddr : 0x500008 + 16 * k = fftReAddr 0 + 8 * (2 * k + 1) := by rw [fftReAddr]; omega
    rw [hreAddr, himAddr]
    exact ⟨shows_readF64_writeF64s _ _ _ hre, shows_readF64_writeF64s _ _ _ him⟩
  · refine Memory.readByte_writeBytes_of_not_mem _ _ _ _ ?_
    rw [bytesOfF64s_length, publishFrom_length, f64sOfCxs_length, hxs, fftReAddr]
    omega

/-- What both commands do, for a transform `f` that keeps the length: rewrite the window, or fail while nothing is latched. -/
theorem rewritesWindow_of_cases {s : State} {op : BitVec 8} {r : Host.Outcome State Fault Refusal} {f : ℕ → List Cx → List Cx}
    (hf : ∀ n, n = 2 ^ Nat.log2 n → ∀ x, x.length = n → (f n x).length = n)
    (hcases : (s.cfg = none ∧ r = .next (raiseError op .notConfigured s)) ∨
      ∃ c, s.cfg = some c ∧ r = .next (succeed op (writeFftw (f c.n (readFftw s.mem c.n)) s))) :
    (∀ c, s.cfg = some c → c.Wf → transforms s op c.n (f c.n (readFftw s.mem c.n)) r) ∧
      (s.cfg = none → r = .next (failed op 5#4 0x51#8 s)) := by
  obtain ⟨hnone, rfl⟩ | ⟨c, hsome, rfl⟩ := hcases
  · exact ⟨fun c hc => by simp [hnone] at hc, fun _ => rfl⟩
  · refine ⟨fun d hd hwf => ?_, fun h => by simp [hsome] at h⟩
    obtain rfl : c = d := Option.some.inj (hsome.symm.trans hd)
    obtain ⟨⟨hpow, -⟩, -⟩ := hwf
    exact transforms_writeFftw s op (hf c.n hpow _ (readFftw_length _ _))

/-- Settles O35: the parts of the forward transform are stored in one run from the window's first offset. -/
theorem fftFwdRewritesItsWindow : Obligations.FftFwdRewritesItsWindow := fun s =>
  rewritesWindow_of_cases fft_length (execFftFwd_cases s)

/-- Settles O36: as FFT_FWD, with the inverse transform. -/
theorem fftInvRewritesItsWindow : Obligations.FftInvRewritesItsWindow := fun s =>
  rewritesWindow_of_cases ifft_length (execFftInv_cases s)

end Sys2Proof.Machine
end

section
/-! SUPPORT. The twiddles in fixed point (40_fft.md R122): how far the sums of the alternating series lie from the exact cosines
and sines, with the last error of the series and of `2π` bounded by their first dropped terms. -/

namespace Sys2Proof.Machine

open Sys2Proof

/-! ### Natural numbers that stand for real ones -/

/-- `v` stands for `x` in fixed point with 128 fraction bits, up to `e` units of the last place. -/
def Near (e x : ℝ) (v : ℕ) : Prop := |v - x * 2 ^ 128| ≤ e

theorem Near.mono {e e' x : ℝ} {v : ℕ} (h : Near e x v) (he : e ≤ e') : Near e' x v := le_trans h he

theorem fixOne_pos : 0 < fixOne := by decide

theorem cast_fixOne : (fixOne : ℝ) = 2 ^ 128 := by
  rw [fixOne, Nat.one_shiftLeft, Nat.cast_pow, Nat.cast_ofNat]

theorem cast_le_of_le_fixOne {v : ℕ} (h : v ≤ fixOne) : (v : ℝ) ≤ 2 ^ 128 := by
  rw [← cast_fixOne]
  exact Nat.cast_le.2 h

theorem abs_cast_div_sub_le (a : ℕ) {b : ℕ} (hb : 0 < b) : |((a / b : ℕ) : ℝ) - a / b| ≤ 1 := by
  have hle : ((a / b : ℕ) : ℝ) ≤ a / b := Nat.cast_div_le
  have hlt : (a / b : ℝ) < (a / b : ℕ) + 1 := by
    rw [div_lt_iff₀ (by exact_mod_cast hb)]
    exact_mod_cast Nat.lt_mul_of_div_lt (Nat.lt_succ_self _) hb
  rw [abs_le]
  constructor <;> linarith

/-- Against a number that is not negative, a truncated difference is no worse than the exact one. -/
theorem abs_cast_sub_sub_le (a b : ℕ) {y : ℝ} (hy : 0 ≤ y) : |((a - b : ℕ) : ℝ) - y| ≤ |a - b - y| := by
  obtain h | h := le_total b a
  · rw [Nat.cast_sub h]
  · have hab : (a : ℝ) ≤ b := Nat.cast_le.2 h
    rw [Nat.sub_eq_zero_of_le h, Nat.cast_zero, zero_sub, abs_neg, abs_of_nonneg hy, abs_of_nonpos (by linarith)]
    linarith

/-- The product of two numbers in fixed point, with 256 fraction bits. -/
theorem Near.mul {e e' x y : ℝ} {u v : ℕ} (hu : Near e x u) (hv : Near e' y v) (hx : |x| ≤ 1) (hv1 : v ≤ fixOne) :
    |u * v - x * y * 2 ^ 256| ≤ (e + e') * 2 ^ 128 := by
  replace hv1 : |(v : ℝ)| ≤ 2 ^ 128 := (Nat.abs_cast v).trans_le (cast_le_of_le_fixOne hv1)
  have hu0 : 0 ≤ e := (abs_nonneg _).trans hu
  have hsplit : u * v - x * y * 2 ^ 256 = (u - x * 2 ^ 128) * v + x * (v - y * 2 ^ 128) * 2 ^ 128 := by ring
  calc |u * v - x * y * 2 ^ 256| ≤ |u - x * 2 ^ 128| * |(v : ℝ)| + |x| * |v - y * 2 ^ 128| * 2 ^ 128 := by
        rw [hsplit]
        refine (abs_add_le _ _).trans_eq ?_
        rw [abs_mul, abs_mul, abs_mul, abs_of_pos (by positivity : (0 : ℝ) < 2 ^ 128)]
    _ ≤ e * 2 ^ 128 + 1 * e' * 2 ^ 128 := by gcongr <;> assumption
    _ = (e + e') * 2 ^ 128 := by ring

/-- From 256 fraction bits back to 128. -/
theorem near_div_fixOne {e z : ℝ} {a : ℕ} (h : |a - z * 2 ^ 256| ≤ e * 2 ^ 128) : Near (e + 1) z (a / fixOne) := by
  have hround := abs_cast_div_sub_le a fixOne_pos
  have hexact : |(a : ℝ) / fixOne - z * 2 ^ 128| ≤ e := by
    have hsplit : (a : ℝ) / fixOne - z * 2 ^ 128 = (a - z * 2 ^ 256) / 2 ^ 128 := by
      rw [cast_fixOne]
      ring
    rwa [hsplit, abs_div, abs_of_pos (by positivity : (0 : ℝ) < 2 ^ 128), div_le_iff₀ (by positivity)]
  rw [add_comm]
  exact (abs_sub_le _ _ _).trans (add_le_add hround hexact)

/-! ### The alternating series -/

/-- The sum that `alternating` computes, in exact arithmetic and with its factor `t` taken out. -/
noncomputable def series (x : ℝ) : ℕ → ℕ → ℝ
  | 0, _ => 1
  | n + 1, d => 1 - x ^ 2 / ((d + 1) * (d + 2)) * series x n (d + 2)

theorem series_factor_le {x : ℝ} (hx : x ^ 2 ≤ 1) (d : ℕ) : x ^ 2 / ((d + 1) * (d + 2)) ≤ 1 := by
  have hd : (0 : ℝ) ≤ d := d.cast_nonneg
  rw [div_le_one (by positivity)]
  nlinarith

theorem series_mem_Icc {x : ℝ} (hx : x ^ 2 ≤ 1) (n d : ℕ) : series x n d ∈ Set.Icc 0 1 := by
  induction n generalizing d with
  | zero => simp [series]
  | succ n ih =>
    obtain ⟨h0, h1⟩ := ih (d + 2)
    have hprod := mul_le_one₀ (series_factor_le hx d) h0 h1
    have hpos : 0 ≤ x ^ 2 / ((d + 1) * (d + 2)) * series x n (d + 2) := by positivity
    rw [series]
    constructor <;> linarith

/-- A term of the series in fixed point, from the one before it. -/
theorem abs_term_sub_le {x : ℝ} {x2 t : ℕ} (hx2 : Near 8 (x ^ 2) x2) (ht : t ≤ fixOne) (d : ℕ) :
    |((t * x2 / (fixOne * ((d + 1) * (d + 2))) : ℕ) : ℝ) - t * (x ^ 2 / ((d + 1) * (d + 2)))| ≤ 9 := by
  have hD : 0 < (d + 1) * (d + 2) := Nat.mul_pos d.succ_pos (Nat.succ_pos _)
  have hround := abs_cast_div_sub_le (t * x2) (Nat.mul_pos fixOne_pos hD)
  have hexact : |((t * x2 : ℕ) : ℝ) / ((fixOne * ((d + 1) * (d + 2)) : ℕ) : ℝ) - t * (x ^ 2 / ((d + 1) * (d + 2)))| ≤ 8 := by
    have hD1 : (1 : ℝ) ≤ (d + 1) * (d + 2) := by exact_mod_cast hD
    replace ht := cast_le_of_le_fixOne ht
    push_cast
    rw [cast_fixOne]
    generalize ((d : ℝ) + 1) * (d + 2) = D at *
    have hD0 : 0 < D := one_pos.trans_le hD1
    have hfactor : t * x2 / (2 ^ 128 * D) - t * (x ^ 2 / D) = t / (2 ^ 128 * D) * (x2 - x ^ 2 * 2 ^ 128) := by
      field_simp
    have ht2 : t / (2 ^ 128 * D) ≤ 1 := by
      rw [div_le_one (by positivity)]
      exact ht.trans (le_mul_of_one_le_right (by positivity) hD1)
    rw [hfactor, abs_mul, abs_of_nonneg (show 0 ≤ t / (2 ^ 128 * D) by positivity)]
    exact (mul_le_of_le_one_left (abs_nonneg _) ht2).trans hx2
  exact ((abs_sub_le _ _ _).trans (add_le_add hround hexact)).trans_eq (by norm_num)

/-- Each of the `n` steps of `alternating` adds the error of its term. -/
theorem abs_alternating_sub_le {x : ℝ} {x2 : ℕ} (hx : x ^ 2 ≤ 1) (hx2 : Near 8 (x ^ 2) x2) (h1 : x2 ≤ fixOne) (n d : ℕ) {t : ℕ}
    (ht : t ≤ fixOne) : |alternating x2 n d t - t * series x n d| ≤ 9 * n := by
  induction n generalizing d t with
  | zero => simp [alternating, series]
  | succ n ih =>
    have hle : t * x2 / (fixOne * ((d + 1) * (d + 2))) ≤ t := by
      refine Nat.div_le_of_le_mul ?_
      rw [Nat.mul_comm _ t]
      exact Nat.mul_le_mul_left t (h1.trans (Nat.le_mul_of_pos_right _ (Nat.mul_pos d.succ_pos (Nat.succ_pos _))))
    have hnext := ih (d + 2) (hle.trans ht)
    have hterm := abs_term_sub_le hx2 ht d
    have hnonneg : 0 ≤ t * series x (n + 1) d := mul_nonneg t.cast_nonneg (series_mem_Icc hx (n + 1) d).1
    obtain ⟨h0, hs⟩ := series_mem_Icc hx n (d + 2)
    refine (abs_cast_sub_sub_le _ _ hnonneg).trans ?_
    rw [series]
    generalize t * x2 / (fixOne * ((d + 1) * (d + 2))) = t' at *
    generalize x ^ 2 / ((d + 1) * (d + 2)) = q at *
    generalize series x n (d + 2) = y at *
    have hscaled : |t' * y - t * q * y| ≤ 9 := by
      rw [← sub_mul, abs_mul, abs_of_nonneg h0]
      exact (mul_le_of_le_one_right (abs_nonneg _) hs).trans hterm
    calc |t - alternating x2 n (d + 2) t' - t * (1 - q * y)| = |alternating x2 n (d + 2) t' - t * q * y| := by
          rw [abs_sub_comm]
          ring_nf
      _ ≤ 9 * n + 9 := (abs_sub_le _ (t' * y) _).trans (add_le_add hnext hscaled)
      _ = 9 * (n + 1 : ℕ) := by push_cast; ring

/-! ### The series of the cosine and the sine -/

/-- An alternating series is off by no more than its first dropped term. -/
theorem abs_sub_alternating_sum_le {f : ℕ → ℝ} {l : ℝ} (hf : Antitone f) (hl : HasSum (fun i => (-1) ^ i * f i) l) (n : ℕ) :
    |l - ∑ i ∈ Finset.range n, (-1) ^ i * f i| ≤ f n := by
  have hsum : Summable f := by
    simpa only [← mul_assoc, ← mul_pow, neg_one_mul, neg_neg, one_pow, one_mul] using hl.summable.alternating
  rw [← hl.tsum_eq]
  exact alternating_series_error_bound f hf hsum n

theorem series_eq_sum (x : ℝ) (n d : ℕ) : x ^ d / d.factorial * series x n d =
    ∑ i ∈ Finset.range (n + 1), (-1) ^ i * (x ^ (2 * i + d) / (2 * i + d).factorial) := by
  induction n generalizing d with
  | zero => simp [series]
  | succ n ih =>
    have hfactor : x ^ d / d.factorial * (x ^ 2 / ((d + 1) * (d + 2))) = x ^ (d + 2) / (d + 2).factorial := by
      have hfact : ((d + 2).factorial : ℝ) = (d + 2) * ((d + 1) * d.factorial) := by
        push_cast [Nat.factorial_succ]
        ring
      rw [hfact, pow_add]
      field_simp
    have hterm (i : ℕ) : (-1) ^ (i + 1) * (x ^ (2 * (i + 1) + d) / (2 * (i + 1) + d).factorial) =
        -((-1) ^ i * (x ^ (2 * i + (d + 2)) / (2 * i + (d + 2)).factorial)) := by
      rw [show 2 * (i + 1) + d = 2 * i + (d + 2) by ring]
      ring
    rw [Finset.sum_range_succ', series, mul_sub, mul_one, ← mul_assoc, hfactor, ih]
    simp only [hterm, Finset.sum_neg_distrib, pow_zero, one_mul, Nat.mul_zero, Nat.zero_add]
    ring

theorem antitone_factorial_terms {x : ℝ} (h0 : 0 ≤ x) (h1 : x ≤ 1) (d : ℕ) :
    Antitone fun i => x ^ (2 * i + d) / (2 * i + d).factorial := by
  intro i j hij
  have hpow : x ^ (2 * j + d) ≤ x ^ (2 * i + d) := pow_le_pow_of_le_one h0 h1 (by omega)
  have hfact : ((2 * i + d).factorial : ℝ) ≤ (2 * j + d).factorial := by exact_mod_cast Nat.factorial_le (by omega)
  have hpos : (0 : ℝ) < (2 * i + d).factorial := by exact_mod_cast Nat.factorial_pos _
  dsimp only
  gcongr

/-- What the terms after the 17 that are summed can add, in units. -/
theorem dropped_term_le {x : ℝ} (h0 : 0 ≤ x) (h1 : x ≤ 1) {m : ℕ} (hm : 34 ≤ m) : x ^ m / m.factorial * 2 ^ 128 ≤ 2 := by
  have hpow : x ^ m ≤ 1 := pow_le_one₀ h0 h1
  have hfact : (2 ^ 127 : ℝ) ≤ m.factorial := by
    exact_mod_cast (show 2 ^ 127 ≤ Nat.factorial 34 by decide).trans (Nat.factorial_le hm)
  rw [div_mul_eq_mul_div, div_le_iff₀ (by positivity)]
  nlinarith

theorem abs_series_sub_le {x l : ℝ} (h0 : 0 ≤ x) (h1 : x ≤ 1) {d : ℕ}
    (hl : HasSum (fun i => (-1) ^ i * x ^ (2 * i + d) / (2 * i + d).factorial) l) :
    |x ^ d / d.factorial * series x 16 d * 2 ^ 128 - l * 2 ^ 128| ≤ 2 := by
  simp only [mul_div_assoc] at hl
  have h := abs_sub_alternating_sum_le (antitone_factorial_terms h0 h1 d) hl 17
  rw [series_eq_sum x 16 d, ← sub_mul, abs_mul, abs_sub_comm, abs_of_pos (by positivity : (0 : ℝ) < 2 ^ 128)]
  exact (mul_le_mul_of_nonneg_right h (by positivity)).trans (dropped_term_le h0 h1 (Nat.le_add_right 34 d))

/-! ### The circle constant -/

theorem abs_arctan_inv_sub_le {m : ℝ} (hm : 1 < m) (n : ℕ) :
    |Real.arctan m⁻¹ - ∑ i ∈ Finset.range n, (-1) ^ i * (m⁻¹ ^ (2 * i + 1) / (2 * i + 1 : ℕ))| ≤
      m⁻¹ ^ (2 * n + 1) / (2 * n + 1 : ℕ) := by
  have h0 : 0 < m⁻¹ := inv_pos.2 (one_pos.trans hm)
  have h1 : m⁻¹ < 1 := inv_lt_one_of_one_lt₀ hm
  refine abs_sub_alternating_sum_le (f := fun i => m⁻¹ ^ (2 * i + 1) / (2 * i + 1 : ℕ)) (fun i j hij => ?_) ?_ n
  · have hpow : m⁻¹ ^ (2 * j + 1) ≤ m⁻¹ ^ (2 * i + 1) := pow_le_pow_of_le_one h0.le h1.le (by omega)
    have hlin : ((2 * i + 1 : ℕ) : ℝ) ≤ (2 * j + 1 : ℕ) := by exact_mod_cast (by omega : 2 * i + 1 ≤ 2 * j + 1)
    dsimp only
    gcongr
  · simpa only [← mul_div_assoc] using Real.hasSum_arctan (x := m⁻¹) (by rwa [Real.norm_of_nonneg h0.le])

/-- `fixTwoPi` is `2π` to the last place, by Machin's formula. -/
theorem near_fixTwoPi : Near 2 (2 * Real.pi) fixTwoPi := by
  have h5 := abs_arctan_inv_sub_le (m := 5) (by norm_num) 28
  have h239 := abs_arctan_inv_sub_le (m := 239) (by norm_num) 9
  have hpi := Real.four_mul_arctan_inv_5_sub_arctan_inv_239
  rw [abs_le] at h5 h239
  norm_num [Finset.sum_range_succ] at h5 h239
  rw [Near, abs_le, fixTwoPi]
  constructor <;> push_cast <;> linarith

/-! ### The cosine and the sine of an angle in the first octant -/

/-- The angle of `k` steps, of which `n` are a whole turn. -/
noncomputable def angle (k n : ℕ) : ℝ := 2 * Real.pi * k / n

section

variable {k n : ℕ} (hn : 0 < n) (hk : 8 * k ≤ n)

include hk

theorem fixAngle_le_fixOne : fixAngle k n ≤ fixOne := by
  refine Nat.div_le_of_le_mul ?_
  calc fixTwoPi * k ≤ 8 * fixOne * k := Nat.mul_le_mul_right k (by decide)
    _ = 8 * k * fixOne := Nat.mul_right_comm ..
    _ ≤ n * fixOne := Nat.mul_le_mul_right _ hk

theorem fixAngle_sq_le_fixOne : fixAngle k n * fixAngle k n / fixOne ≤ fixOne :=
  Nat.div_le_of_le_mul (Nat.mul_le_mul (fixAngle_le_fixOne hk) (fixAngle_le_fixOne hk))

include hn

theorem octant_ratio_le : (k / n : ℝ) ≤ 1 / 8 := by
  have hk' : (8 * k : ℝ) ≤ n := by exact_mod_cast hk
  rw [div_le_iff₀ (by exact_mod_cast hn)]
  linarith

theorem octant_angle_mem_Icc : angle k n ∈ Set.Icc 0 1 := by
  rw [angle, mul_div_assoc]
  refine ⟨by positivity, ?_⟩
  have := mul_le_mul_of_nonneg_left (octant_ratio_le hn hk) Real.two_pi_pos.le
  linarith [Real.pi_le_four]

theorem near_fixAngle : Near 2 (angle k n) (fixAngle k n) := by
  have hratio := octant_ratio_le hn hk
  have hround := abs_cast_div_sub_le (fixTwoPi * k) hn
  have hexact : |((fixTwoPi * k : ℕ) : ℝ) / n - angle k n * 2 ^ 128| ≤ 2 * (1 / 8) := by
    have hsplit : ((fixTwoPi * k : ℕ) : ℝ) / n - angle k n * 2 ^ 128 = (fixTwoPi - 2 * Real.pi * 2 ^ 128) * (k / n) := by
      rw [angle, Nat.cast_mul]
      ring
    rw [hsplit, abs_mul, abs_of_nonneg (by positivity : (0 : ℝ) ≤ k / n)]
    exact mul_le_mul near_fixTwoPi hratio (by positivity) (by norm_num)
  exact (abs_sub_le _ _ _).trans ((add_le_add hround hexact).trans (by norm_num))

theorem near_fixAngle_sq : Near 8 (angle k n ^ 2) (fixAngle k n * fixAngle k n / fixOne) := by
  obtain ⟨h0, h1⟩ := octant_angle_mem_Icc hn hk
  have hnear := near_fixAngle hn hk
  have hmul := hnear.mul hnear (by rwa [abs_of_nonneg h0]) (fixAngle_le_fixOne hk)
  rw [← Nat.cast_mul, ← sq (angle k n)] at hmul
  exact (near_div_fixOne hmul).mono (by norm_num)

theorem near_fixCos : Near 256 (Real.cos (angle k n)) (fixCos k n) := by
  obtain ⟨h0, h1⟩ := octant_angle_mem_Icc hn hk
  have hsum := abs_alternating_sub_le (pow_le_one₀ h0 h1) (near_fixAngle_sq hn hk) (fixAngle_sq_le_fixOne hk) 16 0 le_rfl
  have hseries := abs_series_sub_le h0 h1 (d := 0) (Real.hasSum_cos _)
  have hone : (fixOne : ℝ) * series (angle k n) 16 0 =
      angle k n ^ 0 / Nat.factorial 0 * series (angle k n) 16 0 * 2 ^ 128 := by
    simp [cast_fixOne, mul_comm]
  rw [hone] at hsum
  exact (abs_sub_le _ _ _).trans ((add_le_add hsum hseries).trans (by norm_num))

theorem near_fixSin : Near 256 (Real.sin (angle k n)) (fixSin k n) := by
  obtain ⟨h0, h1⟩ := octant_angle_mem_Icc hn hk
  have hx := pow_le_one₀ h0 h1 (n := 2)
  have hsum := abs_alternating_sub_le hx (near_fixAngle_sq hn hk) (fixAngle_sq_le_fixOne hk) 16 1 (fixAngle_le_fixOne hk)
  have hseries := abs_series_sub_le h0 h1 (d := 1) (Real.hasSum_sin _)
  have hangle : |fixAngle k n * series (angle k n) 16 1 -
      angle k n ^ 1 / Nat.factorial 1 * series (angle k n) 16 1 * 2 ^ 128| ≤ 2 := by
    obtain ⟨hs0, hs1⟩ := series_mem_Icc hx 16 1
    rw [pow_one, Nat.factorial_one, Nat.cast_one, div_one, mul_right_comm, ← sub_mul, abs_mul, abs_of_nonneg hs0]
    exact (mul_le_of_le_one_right (abs_nonneg _) hs1).trans (near_fixAngle hn hk)
  refine (abs_sub_le _ _ _).trans ((add_le_add hsum ((abs_sub_le _ _ _).trans (add_le_add hangle hseries))).trans ?_)
  norm_num

end

theorem alternating_le (x2 n d t : ℕ) : alternating x2 n d t ≤ t := by
  cases n with
  | zero => exact le_rfl
  | succ n => exact Nat.sub_le _ _

theorem fixCos_le_fixOne (k n : ℕ) : fixCos k n ≤ fixOne := alternating_le _ _ _ _

theorem fixSin_le_fixOne {k n : ℕ} (hk : 8 * k ≤ n) : fixSin k n ≤ fixOne :=
  (alternating_le _ _ _ _).trans (fixAngle_le_fixOne hk)

end Sys2Proof.Machine
end

section
/-! SUPPORT. The twiddles are correctly rounded (40_fft.md R122). That no cosine or sine of a multiple of `2π/65536` lies close
to a midpoint between two binary64 values is a fact about 8192 angles with no shorter reason, so it is computed once, in fixed
point: the angles of one octant fan out from the first by rotations through `2π·2^d/65536`, one product for each. The table rests
on real cosines and sines through `Near`, and every smaller block size has some of the same angles. -/

namespace Sys2Proof.Machine

open Sys2Proof

/-! ### The angles of one octant, far from every midpoint -/

/-- A fixed-point number of at least 2^114 units that is more than 2^40 units away from every multiple of 2^60. With 55 or more
bits above that place, every midpoint between binary64 values near the number is such a multiple. -/
def awayFromMidpoints (v : ℕ) : Bool :=
  decide (2 ^ 114 ≤ v) && decide (2 ^ 40 < v % 2 ^ 60) && decide (v % 2 ^ 60 + 2 ^ 40 < 2 ^ 60)

/-- Whether the cosines and sines of the `2^d` angles from the given one on, in steps of `2π/65536`, stay away from midpoints. -/
def fanAway : ℕ → ℕ → ℕ → Bool
  | 0, c, s => awayFromMidpoints c && awayFromMidpoints s
  | d + 1, c, s => fanAway d c s && fanAway d
      ((c * fixCos (2 ^ d) 65536 - s * fixSin (2 ^ d) 65536) / fixOne)
      ((s * fixCos (2 ^ d) 65536 + c * fixSin (2 ^ d) 65536) / fixOne)

/-- The pair stands for the cosine and the sine of the angle of `k` steps of `2π/65536`. -/
def NearPoint (e : ℝ) (k c s : ℕ) : Prop := Near e (Real.cos (angle k 65536)) c ∧ Near e (Real.sin (angle k 65536)) s

/-- The angles `1` to `8192` of 65536 in a turn, the first octant but for its exact values at `0`. -/
theorem fanAway_octant : fanAway 13 (fixCos 1 65536) (fixSin 1 65536) = true := by decide +kernel

theorem angle_add (j k n : ℕ) : angle (j + k) n = angle j n + angle k n := by
  rw [angle, angle, angle, Nat.cast_add]
  ring

theorem angle_sub {j k : ℕ} (h : k ≤ j) (n : ℕ) : angle (j - k) n = angle j n - angle k n := by
  rw [eq_sub_iff_add_eq, ← angle_add, Nat.sub_add_cancel h]

/-- An angle of at most a quarter turn. -/
theorem quarter_angle_mem_Icc {k n : ℕ} (hn : 0 < n) (hk : 4 * k ≤ n) : angle k n ∈ Set.Icc 0 (Real.pi / 2) := by
  have hpi := Real.pi_pos
  have hk' : (4 * k : ℝ) ≤ n := by exact_mod_cast hk
  rw [angle]
  refine ⟨by positivity, ?_⟩
  rw [div_le_div_iff₀ (by exact_mod_cast hn) two_pos]
  nlinarith

/-- A rotation adds the angles; the errors add, are doubled at most, and are rounded once more. -/
theorem NearPoint.rotate {e : ℝ} {j k c s : ℕ} (h : NearPoint e j c s) (he : 256 ≤ e) (hk : 8 * k ≤ 65536)
    (hsum : 4 * (j + k) ≤ 65536) :
    NearPoint (5 * e) (j + k) ((c * fixCos k 65536 - s * fixSin k 65536) / fixOne)
      ((s * fixCos k 65536 + c * fixSin k 65536) / fixOne) := by
  obtain ⟨hc, hs⟩ := h
  obtain ⟨h0, h1⟩ := quarter_angle_mem_Icc (by norm_num) hsum
  have hC := near_fixCos (by norm_num) hk
  have hS := near_fixSin (by norm_num) hk
  have hcc := hc.mul hC (Real.abs_cos_le_one _) (fixCos_le_fixOne _ _)
  have hss := hs.mul hS (Real.abs_sin_le_one _) (fixSin_le_fixOne hk)
  have hsc := hs.mul hC (Real.abs_sin_le_one _) (fixCos_le_fixOne _ _)
  have hcs := hc.mul hS (Real.abs_cos_le_one _) (fixSin_le_fixOne hk)
  have hcos : 0 ≤ Real.cos (angle (j + k) 65536) := Real.cos_nonneg_of_mem_Icc ⟨by linarith [Real.pi_pos], h1⟩
  constructor
  · refine (near_div_fixOne (e := 2 * (e + 256)) ?_).mono (by linarith)
    refine (abs_cast_sub_sub_le _ _ (by positivity)).trans ?_
    rw [angle_add, Real.cos_add]
    push_cast
    rw [abs_le] at *
    constructor <;> linarith
  · refine (near_div_fixOne (e := 2 * (e + 256)) ?_).mono (by linarith)
    rw [angle_add, Real.sin_add]
    push_cast
    rw [abs_le] at *
    constructor <;> linarith

/-- Each angle of a fan that stays away from midpoints has such a pair near it. -/
theorem exists_away_of_fanAway {d k c s : ℕ} {e : ℝ} (hfan : fanAway d c s = true) (h : NearPoint e k c s) (he : 256 ≤ e)
    (hd : d ≤ 13) (hk : k + 2 ^ d ≤ 16384) {j : ℕ} (hj : j < 2 ^ d) :
    ∃ c' s', awayFromMidpoints c' = true ∧ awayFromMidpoints s' = true ∧ NearPoint (5 ^ d * e) (k + j) c' s' := by
  induction d generalizing k c s e j with
  | zero =>
    obtain rfl : j = 0 := by simpa using hj
    rw [fanAway, Bool.and_eq_true] at hfan
    exact ⟨c, s, hfan.1, hfan.2, by simpa using h⟩
  | succ d ih =>
    rw [fanAway, Bool.and_eq_true] at hfan
    obtain ⟨hlow, hhigh⟩ := hfan
    rw [pow_succ] at hk hj
    obtain hj' | hj' := Nat.lt_or_ge j (2 ^ d)
    · obtain ⟨c', s', hc, hs, hnear⟩ := ih hlow h he (by omega) (by omega) hj'
      have hmono : 5 ^ d * e ≤ 5 ^ (d + 1) * e := by gcongr <;> norm_num
      exact ⟨c', s', hc, hs, hnear.1.mono hmono, hnear.2.mono hmono⟩
    · have hpow : 2 ^ d ≤ 2 ^ 12 := Nat.pow_le_pow_right two_pos (by omega)
      obtain ⟨c', s', hc, hs, hnear⟩ := ih hhigh (h.rotate he (by omega) (by omega)) (by linarith) (by omega) (by omega)
        (j := j - 2 ^ d) (by omega)
      rw [show k + 2 ^ d + (j - 2 ^ d) = k + j by omega, ← mul_assoc, ← pow_succ] at hnear
      exact ⟨c', s', hc, hs, hnear⟩

/-- Such a pair stands for every angle of the octant but the first. -/
theorem exists_away_octant {k : ℕ} (hk0 : 0 < k) (hk : 8 * k ≤ 65536) :
    ∃ c s, awayFromMidpoints c = true ∧ awayFromMidpoints s = true ∧ NearPoint (2 ^ 39) k c s := by
  have hfirst : NearPoint 256 1 (fixCos 1 65536) (fixSin 1 65536) :=
    ⟨near_fixCos (by norm_num) (by norm_num), near_fixSin (by norm_num) (by norm_num)⟩
  obtain ⟨c, s, hc, hs, hcos, hsin⟩ :=
    exists_away_of_fanAway fanAway_octant hfirst le_rfl le_rfl (by norm_num) (j := k - 1) (by omega)
  rw [Nat.add_sub_cancel' hk0] at hcos hsin
  exact ⟨c, s, hc, hs, hcos.mono (by norm_num), hsin.mono (by norm_num)⟩

/-! ### Rounding -/

theorem cast_shiftLeft_div_fixOne (v k : ℕ) : ((v <<< (k + 128) : ℕ) : ℝ) / fixOne = v * 2 ^ k := by
  rw [cast_fixOne, Nat.shiftLeft_eq, Nat.cast_mul, Nat.cast_pow, Nat.cast_ofNat, pow_add, ← mul_assoc,
    mul_div_cancel_right₀ _ (by positivity)]

/-- A fixed-point number that stands for its exact value. -/
theorem roundsTo_roundFix_of_eq {r : ℝ} {v : ℕ} (h : (v : ℝ) = r * 2 ^ 128) : RoundsTo r (roundFix v) := by
  have hround := F64.roundsTo_round false (v <<< 1074) fixOne_pos
  rwa [cast_shiftLeft_div_fixOne v 946, F64.signFactor, if_neg Bool.false_ne_true, one_mul, h, mul_assoc, ← pow_add,
    mul_div_cancel_right₀ _ (by positivity)] at hround

/-- The multiples of 2^60 around a number away from midpoints are around everything near it. -/
theorem gap_of_awayFromMidpoints {r : ℝ} {u : ℕ} (hu : awayFromMidpoints u = true) (hur : Near (2 ^ 39) r u) :
    2 ^ 54 ≤ u / 2 ^ 60 ∧ ∀ w : ℝ, |w - r * 2 ^ 128| ≤ 2 ^ 39 →
      (u / 2 ^ 60 : ℕ) * 2 ^ 60 < w ∧ w < ((u / 2 ^ 60 : ℕ) + 1) * 2 ^ 60 := by
  simp only [awayFromMidpoints, Bool.and_eq_true, decide_eq_true_eq] at hu
  obtain ⟨⟨hbig, hlow⟩, hhigh⟩ := hu
  refine ⟨by omega, fun w hw => ?_⟩
  have hsplit : (u : ℝ) = (u / 2 ^ 60 : ℕ) * 2 ^ 60 + (u % 2 ^ 60 : ℕ) := by exact_mod_cast (Nat.div_add_mod' u (2 ^ 60)).symm
  generalize u % 2 ^ 60 = q at *
  have hlow' : (2 ^ 40 : ℝ) < q := by exact_mod_cast hlow
  have hhigh' : (q + 2 ^ 40 : ℝ) < 2 ^ 60 := by exact_mod_cast hhigh
  rw [Near] at hur
  rw [abs_le] at hur hw
  constructor <;> linarith

/-- Where a number away from midpoints stands for `r`, any other number near `r` rounds as `r` does. -/
theorem roundsTo_roundFix {r : ℝ} {u v : ℕ} (hu : awayFromMidpoints u = true) (hur : Near (2 ^ 39) r u)
    (hvr : Near (2 ^ 39) r v) : RoundsTo r (roundFix v) := by
  obtain ⟨hbits, hgap⟩ := gap_of_awayFromMidpoints hu hur
  have hmag := F64.roundsToMag_unclampedMag (v <<< 1074) fixOne_pos
  rw [cast_shiftLeft_div_fixOne v 946] at hmag
  have hscale (w : ℝ) (hw : |w - r * 2 ^ 128| ≤ 2 ^ 39) : (u / 2 ^ 60 : ℕ) * 2 ^ (60 + 946) < w * 2 ^ 946 ∧
      w * 2 ^ 946 < ((u / 2 ^ 60 : ℕ) + 1) * 2 ^ (60 + 946) := by
    obtain ⟨hlow, hhigh⟩ := hgap w hw
    rw [pow_add, ← mul_assoc, ← mul_assoc]
    exact ⟨mul_lt_mul_of_pos_right hlow (by positivity), mul_lt_mul_of_pos_right hhigh (by positivity)⟩
  have hr : |r * 2 ^ 128 - r * 2 ^ 128| ≤ 2 ^ 39 := by simp
  have h := (hmag.of_same_gap hbits (hscale v hvr) (hscale (r * 2 ^ 128) hr)).roundsTo ?_ false
  · rwa [F64.signFactor, if_neg Bool.false_ne_true, one_mul, mul_assoc, ← pow_add, mul_div_cancel_right₀ _ (by positivity)] at h
  · exact (lt_trans (by positivity) (hscale _ hr).1).le

theorem mag_negRounded (x : F64) : F64.mag (negRounded x) = F64.mag x := by
  rw [negRounded]
  split
  next h => exact (by simpa [F64.isZero] using h : F64.mag x = 0).symm
  next => exact F64.mag_neg x

theorem exactValue_negRounded (x : F64) : exactValue (negRounded x) = -exactValue x := by
  rw [negRounded]
  split
  next h =>
    have hmag : F64.mag F64.posZero = F64.mag x := (by simpa [F64.isZero] using h : F64.mag x = 0).symm
    have hunits : F64.units x = 0 := by
      rw [F64.units, F64.magUnits_eq, ← hmag]
      exact ite_self 0
    simp [exactValue, hunits, show F64.units F64.posZero = 0 from rfl]
  next => exact F64.exactValue_neg x

/-- The rounded value of `-r` from that of `r`, with `+0` for either zero (R11, R122). -/
theorem roundsTo_negRounded {r : ℝ} {x : F64} (h : RoundsTo r x) : RoundsTo (-r) (negRounded x) := by
  obtain ⟨hfinite, hhigh, hlow⟩ := h
  refine ⟨fun hr => ?_, fun hr => ?_, fun hr => ?_⟩
  · rw [abs_neg] at hr
    obtain ⟨hx, hnear⟩ := hfinite hr
    refine ⟨by rwa [F64.isFinite, mag_negRounded], fun y hy => ?_⟩
    have hflip : -r - -(exactValue x : ℝ) = -(r - exactValue x) := by ring
    have hflipy : -r - (exactValue y : ℝ) = -(r - -exactValue y) := by ring
    obtain ⟨hle, htie⟩ := hnear (F64.neg y) (by rwa [F64.isFinite_neg])
    rw [F64.exactValue_neg, Rat.cast_neg] at hle htie
    rw [mag_negRounded, exactValue_negRounded, Rat.cast_neg, hflip, hflipy, abs_neg, abs_neg]
    exact ⟨hle, fun heq hne => htie heq fun h => hne (by rw [← h, neg_neg])⟩
  · rw [hlow (le_neg.1 hr)]
    rfl
  · rw [hhigh (neg_le_neg_iff.1 hr)]
    rfl

/-! ### The octants -/

theorem angle_mul (k n m : ℕ) (hm : 0 < m) : angle (k * m) (n * m) = angle k n := by
  have hm' : (m : ℝ) ≠ 0 := by exact_mod_cast hm.ne'
  rw [angle, angle, Nat.cast_mul, Nat.cast_mul, ← mul_assoc, mul_div_mul_right _ _ hm']

theorem fixCos_zero (n : ℕ) : fixCos 0 n = fixOne := by simp [fixCos, fixAngle, alternating]

theorem fixSin_zero (n : ℕ) : fixSin 0 n = 0 := by simp [fixSin, fixAngle, alternating]

/-- The octant's angles are correctly rounded, for every block size. -/
theorem roundsTo_octant {l j : ℕ} (hl : l ≤ 16) (hj : 8 * j ≤ 2 ^ l) :
    RoundsTo (Real.cos (angle j (2 ^ l))) (roundFix (fixCos j (2 ^ l))) ∧
      RoundsTo (Real.sin (angle j (2 ^ l))) (roundFix (fixSin j (2 ^ l))) := by
  have hn : 0 < 2 ^ l := by positivity
  obtain rfl | hj0 := Nat.eq_zero_or_pos j
  · have hzero : angle 0 (2 ^ l) = 0 := by simp [angle]
    rw [hzero, Real.cos_zero, Real.sin_zero, fixCos_zero, fixSin_zero]
    exact ⟨roundsTo_roundFix_of_eq (by rw [cast_fixOne, one_mul]), roundsTo_roundFix_of_eq (by simp)⟩
  · have hm : 0 < 2 ^ (16 - l) := by positivity
    have hpow : 2 ^ l * 2 ^ (16 - l) = 65536 := by rw [← pow_add, Nat.add_sub_cancel' hl]; rfl
    have hk : 8 * (j * 2 ^ (16 - l)) ≤ 65536 := by
      rw [← hpow, ← mul_assoc]
      exact Nat.mul_le_mul_right _ hj
    obtain ⟨c, s, hc, hs, hcos, hsin⟩ := exists_away_octant (Nat.mul_pos hj0 hm) hk
    rw [← hpow, angle_mul _ _ _ hm] at hcos hsin
    exact ⟨roundsTo_roundFix hc hcos ((near_fixCos hn hj).mono (by norm_num)),
      roundsTo_roundFix hs hsin ((near_fixSin hn hj).mono (by norm_num))⟩

theorem angle_half {m n : ℕ} (hn : 0 < n) (h : 2 * m = n) : angle m n = Real.pi := by
  subst h
  have hm : (m : ℝ) ≠ 0 := by exact_mod_cast (by omega : m ≠ 0)
  rw [angle]
  push_cast
  field_simp

theorem angle_quarter {q n : ℕ} (hn : 0 < n) (h : 4 * q = n) : angle q n = Real.pi / 2 := by
  have hhalf := angle_half (m := q + q) hn (by omega)
  rw [angle_add] at hhalf
  linarith

/-- The symmetries of the octants carry the rounding to every twiddle. -/
theorem roundsTo_cosSin {l k : ℕ} (hl3 : 3 ≤ l) (hl : l ≤ 16) (hk : k < 2 ^ l / 2) :
    RoundsTo (Real.cos (angle k (2 ^ l))) (cosSin (2 ^ l) k).re ∧
      RoundsTo (Real.sin (angle k (2 ^ l))) (cosSin (2 ^ l) k).im := by
  have hoctant {j : ℕ} := roundsTo_octant (j := j) hl
  obtain ⟨m, hm⟩ : 2 ^ 3 ∣ 2 ^ l := pow_dvd_pow 2 hl3
  have hn : 0 < 2 ^ l := by positivity
  generalize 2 ^ l = n at *
  have hquarter := angle_quarter (q := n / 4) hn (by omega)
  have hhalf := angle_half (m := n / 2) hn (by omega)
  rw [cosSin]
  split_ifs with h1 h2 h3
  · exact hoctant h1
  · obtain ⟨hcos, hsin⟩ := hoctant (j := n / 4 - k) (by omega)
    rw [angle_sub (by omega), hquarter, Real.cos_pi_div_two_sub] at hcos
    rw [angle_sub (by omega), hquarter, Real.sin_pi_div_two_sub] at hsin
    exact ⟨hsin, hcos⟩
  · obtain ⟨hcos, hsin⟩ := hoctant (j := k - n / 4) (by omega)
    rw [angle_sub (by omega), hquarter, Real.cos_sub_pi_div_two] at hcos
    rw [angle_sub (by omega), hquarter, Real.sin_sub_pi_div_two] at hsin
    exact ⟨by simpa only [neg_neg] using roundsTo_negRounded hsin, hcos⟩
  · obtain ⟨hcos, hsin⟩ := hoctant (j := n / 2 - k) (by omega)
    rw [angle_sub (by omega), hhalf, Real.cos_pi_sub] at hcos
    rw [angle_sub (by omega), hhalf, Real.sin_pi_sub] at hsin
    exact ⟨by simpa only [neg_neg] using roundsTo_negRounded hcos, hsin⟩

/-! ### The exact twiddles -/

theorem roundFix_fixOne : roundFix fixOne = 0x3FF0000000000000#64 := by decide +kernel

theorem roundFix_zero : roundFix 0 = 0x0000000000000000#64 := by decide

theorem cosSin_zero (n : ℕ) : cosSin n 0 = ⟨0x3FF0000000000000#64, 0x0000000000000000#64⟩ := by
  rw [cosSin, if_pos (Nat.zero_le n), fixCos_zero, fixSin_zero, roundFix_fixOne, roundFix_zero]

theorem cosSin_quarter {n : ℕ} (hn : 0 < n) (h8 : 8 ∣ n) : cosSin n (n / 4) = ⟨0x0000000000000000#64, 0x3FF0000000000000#64⟩ := by
  rw [cosSin, if_neg (by omega), if_pos (by omega), Nat.sub_self, fixCos_zero, fixSin_zero, roundFix_fixOne, roundFix_zero]

/-- Settles O40: in the first octant by the fixed-point sums and the computed distance from every midpoint, elsewhere by the
symmetries of the octants. -/
theorem twiddlesAreCorrectlyRounded : Obligations.TwiddlesAreCorrectlyRounded := by
  intro l k hl6 hl hk
  have h8 : 8 ∣ 2 ^ l := pow_dvd_pow 2 (show 3 ≤ l by omega)
  have hquarter := cosSin_quarter (show 0 < 2 ^ l by positivity) h8
  obtain ⟨hcos, hsin⟩ := roundsTo_cosSin (by omega) hl hk
  rw [angle, Nat.cast_pow, Nat.cast_ofNat] at hcos hsin
  refine ⟨hcos, roundsTo_negRounded hsin, hcos, hsin, ?_, ?_, ?_, ?_⟩ <;> rintro rfl
  · rw [twf, cosSin_zero]
    rfl
  · rw [twf, hquarter]
    rfl
  · rw [twi, cosSin_zero]
  · rw [twi, hquarter]

end Sys2Proof.Machine
end

section
/-! SUPPORT. Adding a zero, exactly: a finite value survives the rounding of its own units (00_scope.md R10, R11). -/

namespace Sys2Proof.F64

open Sys2Proof.Machine

theorem natAbs_units (x : F64) : (units x).natAbs = unitsOfMag (mag x) := by
  rw [units, magUnits_eq]
  split <;> simp

theorem units_eq_zero_iff (x : F64) : units x = 0 ↔ isZero x = true := by
  rw [← Int.natAbs_eq_zero, natAbs_units, ← unitsOfMag_zero, unitsOfMag_strictMono.injective.eq_iff, isZero, beq_iff_eq]

theorem isNeg_eq_units_neg {x : F64} (hx : isZero x = false) : isNeg x = decide (units x < 0) := by
  have hpos := magUnits_pos hx
  rw [units]
  cases isNeg x <;> simp [hpos]

/-- The units of a magnitude round back to its bits. -/
theorem roundMag_unitsOfMag {m : ℕ} (hm : m ≤ infMag) : roundMag (unitsOfMag m) 1 = m := by
  have hnear := ((roundsToMag_unclampedMag (unitsOfMag m) one_pos).nearest m).1
  rw [Nat.cast_one, div_one, sub_self, abs_zero, abs_nonpos_iff, sub_eq_zero, Nat.cast_inj,
    unitsOfMag_strictMono.injective.eq_iff] at hnear
  rw [roundMag_eq, ← hnear, min_eq_left hm]

theorem round_units {x : F64} (hx : isFinite x = true) (hx0 : isZero x = false) :
    round (decide (units x < 0)) (units x).natAbs 1 = x := by
  rw [round, ← isNeg_eq_units_neg hx0, natAbs_units, roundMag_unitsOfMag (mag_le_infMag (isNaN_of_isFinite hx)), pack_isNeg_mag]

theorem addFinite_comm (x y : F64) : addFinite x y = addFinite y x := by
  rw [addFinite, addFinite, Int.add_comm, Bool.and_comm]

/-- Adding `+0` changes a finite value only in the sign of a zero. -/
theorem add_posZero {x : F64} (hx : isFinite x = true) : add x posZero = if isZero x then posZero else x := by
  have hunits : units x + units posZero = units x := Int.add_zero _
  rw [add_of_isFinite hx rfl]
  cases hx0 : isZero x with
  | true =>
    rw [addFinite_of_zero (by rwa [hunits, units_eq_zero_iff]), show isNeg posZero = false from rfl, Bool.and_false]
    rfl
  | false =>
    have hne : units x ≠ 0 := by rw [ne_eq, units_eq_zero_iff, hx0]; decide
    rw [addFinite_of_ne_zero (by rwa [hunits]), hunits, round_units hx hx0]
    rfl

theorem posZero_add {x : F64} (hx : isFinite x = true) : add posZero x = if isZero x then posZero else x := by
  rw [← add_posZero hx, add_of_isFinite hx rfl, add_of_isFinite rfl hx, addFinite_comm]

end Sys2Proof.F64
end

section
/-! SUPPORT. One hop of a lane, position by position (41_hilbert.md R141 to R147, 42_matrix.md R160, R167). -/

namespace Sys2Proof.Machine

open Sys2Proof

/-! ### The multiplier (R141) -/

theorem hmul_zero (n : Nat) (x : Cx) : hmul n 0 x = Cx.zero := rfl

theorem hmul_half (n : Nat) (x : Cx) : hmul n (n / 2) x = Cx.zero := by
  rw [hmul, if_pos rfl, ite_self]

theorem hmul_below_half {n k : Nat} (hk : 1 ≤ k) (hkn : k < n / 2) (x : Cx) : hmul n k x = ⟨x.im, F64.neg x.re⟩ := by
  rw [hmul, if_neg (by omega), if_neg (by omega), if_pos hkn]

theorem hmul_above_half {n k : Nat} (hk : n / 2 < k) (x : Cx) : hmul n k x = ⟨F64.neg x.im, x.re⟩ := by
  rw [hmul, if_neg (by omega), if_neg (by omega), if_neg (by omega)]

/-- Settles O46, bin range by bin range. -/
theorem hilbertMultiplierSwapsAndFlips : Obligations.HilbertMultiplierSwapsAndFlips := by
  intro n k a b _ _
  refine ⟨?_, fun hk hkn => hmul_below_half hk hkn _, fun hk => hmul_above_half hk _⟩
  rintro (rfl | rfl)
  · exact hmul_zero n _
  · exact hmul_half n _

/-! ### The samples of a hop and their block (R142, R160, R167) -/

theorem getElem?_eq_some_getD {α : Type} {l : List α} {i : Nat} (h : i < l.length) (d : α) : l[i]? = some (l.getD i d) := by
  rw [List.getElem?_eq_getElem h, List.getD_eq_getElem l d h]

theorem hopInput_getElem? (m : Memory) (l : Nat) {h cnt k : Nat} (hcnt : cnt ≤ h) (hk : k < h) :
    (hopInput m l h cnt)[k]? = some (if k < cnt then san (m.readF64 (inAddr l 0 + 8 * k)) else F64.posZero) := by
  have hlen : ((m.readF64s (inAddr l 0) cnt).map san).length = cnt := by rw [List.length_map, m.readF64s_length]
  rw [hopInput]
  split
  · next hkc => rw [List.getElem?_append_left (by omega), List.getElem?_map, m.readF64s_getElem? _ hkc, Option.map_some]
  · next hkc =>
    rw [List.getElem?_append_right (by omega), hlen]
    exact List.getElem?_replicate_of_lt (by omega)

theorem laneBlock_getElem? {c : Latched} {u : List F64} (hu : u.length = c.h) {i : Nat} (hi : i < c.n) :
    (laneBlock c u)[i]? = some (if c.delta ≤ i ∧ i < c.delta + c.h then u.getD (i - c.delta) F64.posZero else F64.posZero) := by
  have hz : (List.replicate c.delta F64.posZero).length = c.delta := List.length_replicate
  rw [laneBlock, List.append_assoc]
  rcases Nat.lt_or_ge i c.delta with hlow | hlow
  · rw [List.getElem?_append_left (by omega), List.getElem?_replicate_of_lt hlow, if_neg (by omega)]
  · rw [List.getElem?_append_right (by omega), hz]
    rcases Nat.lt_or_ge i (c.delta + c.h) with hhigh | hhigh
    · rw [List.getElem?_append_left (by omega), if_pos ⟨hlow, hhigh⟩]
      exact getElem?_eq_some_getD (by omega) _
    · rw [List.getElem?_append_right (by omega), List.getElem?_replicate_of_lt (by omega), if_neg (by omega)]

/-- Settles O47, from the places of the samples in `IN` and in the block. -/
theorem hopSamplesAndTheirBlock : Obligations.HopSamplesAndTheirBlock :=
  ⟨fun m l _ _ _ hcnt hk => hopInput_getElem? m l hcnt hk, fun _ _ _ _ hu hi => laneBlock_getElem? hu hi⟩

/-! ### The overlap-add and the shifted path (R143 to R147) -/

theorem overlapAdd_getElem? {o i : Nat} {tail b : List F64} (ht : tail.length = o) (hi : i < b.length) :
    (overlapAdd o tail b)[i]? = some
      (if i < o then F64.add (tail.getD i F64.posZero) (b.getD i F64.posZero) else b.getD i F64.posZero) := by
  have hb := getElem?_eq_some_getD hi F64.posZero
  rw [overlapAdd]
  split
  · next hio =>
    have ht' := getElem?_eq_some_getD (show i < tail.length by omega) F64.posZero
    rw [List.getElem?_append_left (by simp; omega)]
    simp only [List.getElem?_zipWith, List.getElem?_take_of_lt hio, ht', hb]
  · next hio =>
    have hlen : (List.zipWith F64.add tail (b.take o)).length = o := by simp; omega
    rw [List.getElem?_append_right (by omega), hlen, List.getElem?_drop, Nat.add_sub_of_le (by omega), hb]

theorem zipWith_range_eq_map {α β : Type} (f : Nat → α → β) {n : Nat} {x : List α} (hx : x.length = n) (d : α) :
    List.zipWith f (List.range n) x = (List.range n).map (fun k => f k (x.getD k d)) := by
  refine List.ext_getElem (by simp [hx]) fun i _ h => ?_
  have hi : i < x.length := by simpa [hx] using h
  simp [hi]

theorem shifted_getElem? {n i : Nat} (hn : n = 2 ^ Nat.log2 n) {b : List F64} (hb : b.length = n) (hi : i < n) :
    (shifted n b)[i]? = some ((ifft n ((List.range n).map (fun k =>
      hmul n k ((fft n (b.map (fun v => ⟨v, F64.posZero⟩))).getD k Cx.zero)))).getD i Cx.zero).re := by
  have hfft := fft_length n hn (b.map (fun v => ⟨v, F64.posZero⟩)) (by rwa [List.length_map])
  rw [shifted, zipWith_range_eq_map (hmul n) hfft Cx.zero, List.getElem?_map,
    getElem?_eq_some_getD (by rwa [ifft_length n hn _ (by simp)]) Cx.zero, Option.map_some]

/-- Settles O48: outputs and tails are the two parts of the accumulators, whose positions are those of the overlap-add. -/
theorem laneStepAddsTailsAndKeepsTheRest : Obligations.LaneStepAddsTailsAndKeepsTheRest := by
  intro c t u hc ht hu b r acc
  have hb : b.length = c.n := laneBlock_length c hc u hu
  have hr : r.length = c.n := shifted_length c.n hc.1.1 b hb
  have hsized := (laneHilbert_length c hc t ht u hu).2.2
  obtain ⟨⟨hpow, -⟩, ⟨-, ho⟩, hh, -⟩ := hc
  obtain ⟨htO, htH⟩ := ht
  have haccO : ∀ i, i < c.n → (overlapAdd c.o t.tailO b)[i]? = some (acc t.tailO b i) := fun i hi =>
    overlapAdd_getElem? htO (by omega)
  have haccH : ∀ i, i < c.n → (overlapAdd c.o t.tailH r)[i]? = some (acc t.tailH r i) := fun i hi =>
    overlapAdd_getElem? htH (by omega)
  refine ⟨fun k hk => ⟨?_, ?_⟩, fun i hi => ⟨?_, ?_⟩, ⟨hr, fun i hi => shifted_getElem? hpow hb hi⟩, hsized, rfl, rfl⟩
  · exact (List.getElem?_take_of_lt hk).trans (haccO k (by omega))
  · exact (List.getElem?_take_of_lt hk).trans (haccH k (by omega))
  · exact List.getElem?_drop.trans (haccO _ (by omega))
  · exact List.getElem?_drop.trans (haccH _ (by omega))

end Sys2Proof.Machine
end

section
/-! SUPPORT. The original path over a run of hops (41_hilbert.md R143, R148, R150): what a tail still has to emit, and that every
hop adds its samples behind that. -/

namespace Sys2Proof.Machine

open Sys2Proof Sys2Proof.Stated

/-! ### Samples on their way through the tails -/

/-- `y` is the finite sample `x` after some additions of `+0`. -/
def Carried (x y : F64) : Prop := F64.isFinite x = true ∧ (y = x ∨ (F64.isZero x = true ∧ y = F64.posZero))

theorem Carried.refl {x : F64} (hx : F64.isFinite x = true) : Carried x x := ⟨hx, .inl rfl⟩

theorem carried_posZero_iff (y : F64) : Carried F64.posZero y ↔ y = F64.posZero :=
  ⟨fun h => h.2.elim id And.right, fun h => ⟨rfl, .inl h⟩⟩

theorem Carried.sameUpToZeroSign {x y : F64} (h : Carried x y) : SameUpToZeroSign y x := by
  obtain ⟨-, rfl | ⟨hx, rfl⟩⟩ := h
  · exact .inl rfl
  · exact .inr ⟨rfl, hx⟩

theorem carried_ite {x : F64} (hx : F64.isFinite x = true) : Carried x (if F64.isZero x then F64.posZero else x) := by
  split
  · next hx0 => exact ⟨hx, .inr ⟨hx0, rfl⟩⟩
  · exact .refl hx

theorem Carried.add_posZero {x y : F64} (h : Carried x y) : Carried x (F64.add y F64.posZero) := by
  obtain ⟨hx, rfl | ⟨hx0, rfl⟩⟩ := h
  · rw [F64.add_posZero hx]
    exact carried_ite hx
  · exact ⟨hx, .inr ⟨hx0, F64.add_posZero rfl⟩⟩

theorem carried_posZero_add {x : F64} (hx : F64.isFinite x = true) : Carried x (F64.add F64.posZero x) := by
  rw [F64.posZero_add hx]
  exact carried_ite hx

/-! ### One hop -/

theorem forall₂_carried_replicate {n : Nat} {ys : List F64} (h : List.Forall₂ Carried (List.replicate n F64.posZero) ys) :
    ys = List.replicate n F64.posZero := by
  refine List.eq_replicate_iff.2 ⟨by simpa using h.length_eq.symm, fun y hy => ?_⟩
  obtain ⟨i, hi, rfl⟩ := List.getElem_of_mem hy
  have hc := h.get (i := i) (by rwa [h.length_eq]) hi
  simpa [carried_posZero_iff] using hc

theorem forall₂_carried_zipWith_zeros {xs ys : List F64} (h : List.Forall₂ Carried xs ys) :
    List.Forall₂ Carried xs (List.zipWith F64.add ys (List.replicate xs.length F64.posZero)) := by
  induction h with
  | nil => exact .nil
  | cons hxy _ ih => exact .cons hxy.add_posZero ih

theorem forall₂_carried_overlapAdd_zeros (o : Nat) {xs : List F64} (h : ∀ x ∈ xs, F64.isFinite x = true) :
    List.Forall₂ Carried xs (overlapAdd o (List.replicate o F64.posZero) xs) := by
  induction xs generalizing o with
  | nil => simp [overlapAdd]
  | cons x xs ih =>
    obtain ⟨hx, hxs⟩ := List.forall_mem_cons.1 h
    cases o with
    | zero => exact List.forall₂_same.2 fun y hy => .refl (h y hy)
    | succ o => exact .cons (carried_posZero_add hx) (ih o hxs)

theorem overlapAdd_append (o : Nat) {ys zs tail b : List F64} (h : ys.length = zs.length) :
    overlapAdd (ys.length + o) (ys ++ tail) (zs ++ b) = List.zipWith F64.add ys zs ++ overlapAdd o tail b := by
  rw [overlapAdd, h, List.take_length_add_append, List.drop_length_add_append, List.zipWith_append h, List.append_assoc, overlapAdd]

/-- The tail has the `δ` samples `pend` still to emit, and `+0` behind them. -/
def Pends (c : Latched) (pend tail : List F64) : Prop :=
  pend.length = c.delta ∧ List.Forall₂ Carried (pend ++ List.replicate (c.o - c.delta) F64.posZero) tail

theorem pends_coldLane {c : Latched} (hc : c.Wf) : Pends c (List.replicate c.delta F64.posZero) (coldLane c.o).tailO := by
  obtain ⟨-, -, -, hd, -⟩ := hc
  refine ⟨List.length_replicate, ?_⟩
  rw [← List.replicate_add, Nat.add_sub_of_le (by omega), coldLane]
  exact List.forall₂_same.2 fun x hx => .refl (by rw [List.eq_of_mem_replicate hx]; rfl)

/-- The accumulator of a hop holds what the tail had to emit, then the hop's samples, then `+0`. -/
theorem Pends.overlapAdd_laneBlock {c : Latched} (hc : c.Wf) {pend tail u : List F64} (hp : Pends c pend tail)
    (hu : ∀ x ∈ u, F64.isFinite x = true) :
    List.Forall₂ Carried (pend ++ (u ++ List.replicate (c.o - c.delta) F64.posZero)) (overlapAdd c.o tail (laneBlock c u)) := by
  obtain ⟨-, ⟨-, hon⟩, hh, hd, -⟩ := hc
  obtain ⟨hlen, htail⟩ := hp
  have hpend : List.Forall₂ Carried pend (tail.take c.delta) := by
    simpa [← hlen] using List.forall₂_take c.delta htail
  have hzeros : tail.drop c.delta = List.replicate (c.o - c.delta) F64.posZero :=
    forall₂_carried_replicate (by simpa [← hlen] using List.forall₂_drop c.delta htail)
  have hys : (tail.take c.delta).length = c.delta := by rw [← hpend.length_eq, hlen]
  have hrest : c.n - c.delta - c.h = c.o - c.delta := by omega
  have hacc : overlapAdd c.o tail (laneBlock c u) =
      List.zipWith F64.add (tail.take c.delta) (List.replicate pend.length F64.posZero) ++
        overlapAdd (c.o - c.delta) (List.replicate (c.o - c.delta) F64.posZero)
          (u ++ List.replicate (c.o - c.delta) F64.posZero) := by
    rw [← overlapAdd_append _ (by rw [hys, List.length_replicate, hlen]), hys, Nat.add_sub_of_le (by omega), ← hzeros,
      List.take_append_drop, hzeros, hlen, laneBlock, hrest, List.append_assoc]
  rw [hacc]
  refine List.rel_append (forall₂_carried_zipWith_zeros hpend) (forall₂_carried_overlapAdd_zeros _ fun x hx => ?_)
  rcases List.mem_append.1 hx with hx | hx
  · exact hu x hx
  · rw [List.eq_of_mem_replicate hx]
    rfl

/-! ### The stream of hops (R148) -/

/-- The lane step's original path is that of R143 and R147, whatever it does beside it. -/
def StepsOriginalPath (c : Latched) (f : Lane → List F64 → LaneStep) : Prop :=
  ∀ t u, (f t u).yo = (overlapAdd c.o t.tailO (laneBlock c u)).take c.h ∧
    (f t u).lane.tailO = (overlapAdd c.o t.tailO (laneBlock c u)).drop c.h

theorem laneDelay_stepsOriginalPath (c : Latched) : StepsOriginalPath c (laneDelay c) := fun _ _ => ⟨rfl, rfl⟩

theorem laneHilbert_stepsOriginalPath (c : Latched) : StepsOriginalPath c (laneHilbert c) := fun _ _ => ⟨rfl, rfl⟩

section
variable {c : Latched} {f : Lane → List F64 → LaneStep} (hc : c.Wf) (hf : StepsOriginalPath c f)
include hc hf

/-- A hop emits the first `H` samples of what was pending and its own, and the others stay pending. -/
theorem Pends.hop {t : Lane} {pend u : List F64} (hp : Pends c pend t.tailO) (hlen : u.length = c.h)
    (hu : ∀ x ∈ u, F64.isFinite x = true) :
    List.Forall₂ Carried ((pend ++ u).take c.h) (f t u).yo ∧ Pends c ((pend ++ u).drop c.h) (f t u).lane.tailO := by
  obtain ⟨hyo, htail⟩ := hf t u
  have hacc := hp.overlapAdd_laneBlock hc hu
  have hle : c.h ≤ (pend ++ u).length := by rw [List.length_append]; omega
  rw [← List.append_assoc] at hacc
  rw [hyo, htail]
  refine ⟨?_, ?_, ?_⟩
  · rw [← List.take_append_of_le_length hle]
    exact List.forall₂_take _ hacc
  · rw [List.length_drop, List.length_append, hlen, Nat.add_sub_cancel, hp.1]
  · rw [← List.drop_append_of_le_length hle]
    exact List.forall₂_drop _ hacc

/-- A stream emits what was pending and then its input, as many samples as it takes. -/
theorem forall₂_carried_laneStream (us : List (List F64)) {t : Lane} {pend : List F64} (hp : Pends c pend t.tailO)
    (hus : ∀ u ∈ us, u.length = c.h ∧ ∀ x ∈ u, F64.isFinite x = true) :
    List.Forall₂ Carried ((pend ++ us.flatten).take us.flatten.length) (laneStream f t us) := by
  induction us generalizing t pend with
  | nil => exact .nil
  | cons u us ih =>
    obtain ⟨⟨hlen, hu⟩, hus⟩ := List.forall_mem_cons.1 hus
    obtain ⟨hyo, hrest⟩ := hp.hop hc hf hlen hu
    have hle : c.h ≤ (pend ++ u).length := by rw [List.length_append]; omega
    rw [List.flatten_cons, List.length_append, hlen, ← List.append_assoc, List.take_add,
      List.take_append_of_le_length hle, List.drop_append_of_le_length hle]
    exact List.rel_append hyo (ih hrest hus)

end

/-- Settles O49: every hop keeps the samples that are still to come pending in the tail, and each addition there but one is
of `+0`. -/
theorem originalPathIsADelayOfDelta : Obligations.OriginalPathIsADelayOfDelta := by
  intro c us hc hus f hf y
  have hpath : StepsOriginalPath c f := by
    rcases List.mem_pair.1 hf with rfl | rfl
    · exact laneDelay_stepsOriginalPath c
    · exact laneHilbert_stepsOriginalPath c
  have hstream := forall₂_carried_laneStream hc hpath us (pends_coldLane hc) hus
  have hylen : y.length = us.flatten.length := by
    rw [← hstream.length_eq, List.length_take, List.length_append]
    omega
  refine ⟨hylen, fun t ht => ?_⟩
  have hcarried := hstream.get (i := t) (by rwa [hstream.length_eq]) ht
  rw [List.getD_eq_getElem y unity ht]
  simp only [List.get_eq_getElem, List.getElem_take] at hcarried
  refine ⟨fun hlow => ?_, fun hhigh => ?_⟩
  · rw [List.getElem_append_left (by rwa [List.length_replicate]), List.getElem_replicate, carried_posZero_iff] at hcarried
    exact hcarried
  · rw [List.getElem_append_right (by rwa [List.length_replicate])] at hcarried
    simp only [List.length_replicate] at hcarried
    rw [List.getD_eq_getElem _ unity (by omega)]
    exact hcarried.sameUpToZeroSign

end Sys2Proof.Machine
end

section
/-! SUPPORT. One hop of the core (42_matrix.md R161 to R169): the matrix position by position, the samples of each channel in
`OUT`, the steered samples in their order, and HOP's checks. -/

namespace Sys2Proof.Machine

open Sys2Proof Sys2Proof.Stated

/-! ### The matrix, position by position (R162 to R166) -/

/-- Settles O50: the matrix is written in the order of evaluation that the spec gives. -/
theorem matrixEvaluatesInOrder : Obligations.MatrixEvaluatesInOrder := fun _ _ _ _ _ _ _ _ => ⟨rfl, rfl, rfl⟩

theorem mixLT_getElem? {a b d : List F64} {k : Nat} {x y z : F64} (ha : a[k]? = some x) (hb : b[k]? = some y)
    (hd : d[k]? = some z) : (mixLT a b d)[k]? = some (matrixLT x y z) := by
  induction k generalizing a b d with
  | zero =>
    match a, b, d, ha, hb, hd with
    | _ :: _, _ :: _, _ :: _, rfl, rfl, rfl => rfl
  | succ k ih =>
    match a, b, d, ha, hb, hd with
    | _ :: _, _ :: _, _ :: _, ha, hb, hd => exact ih ha hb hd

theorem mixRT_getElem? {a b d : List F64} {k : Nat} {x y z : F64} (ha : a[k]? = some x) (hb : b[k]? = some y)
    (hd : d[k]? = some z) : (mixRT a b d)[k]? = some (matrixRT x y z) := by
  induction k generalizing a b d with
  | zero =>
    match a, b, d, ha, hb, hd with
    | _ :: _, _ :: _, _ :: _, rfl, rfl, rfl => rfl
  | succ k ih =>
    match a, b, d, ha, hb, hd with
    | _ :: _, _ :: _, _ :: _, ha, hb, hd => exact ih ha hb hd

theorem mixDecode_getElem? {a b d e : List F64} {k : Nat} {x y z w : F64} (ha : a[k]? = some x) (hb : b[k]? = some y)
    (hd : d[k]? = some z) (he : e[k]? = some w) :
    (mixDecode a b d e)[k]? = some ⟨x, y, matrixLB y z, matrixRB x w⟩ := by
  induction k generalizing a b d e with
  | zero =>
    match a, b, d, e, ha, hb, hd, he with
    | _ :: _, _ :: _, _ :: _, _ :: _, rfl, rfl, rfl, rfl => rfl
  | succ k ih =>
    match a, b, d, e, ha, hb, hd, he with
    | _ :: _, _ :: _, _ :: _, _ :: _, ha, hb, hd, he => exact ih ha hb hd he

/-! ### Channels of `OUT` (R71, R80, R168) -/

theorem Memory.readF64_congr {m m' : Memory} {a : Nat} (h : ∀ i, i < 8 → m'.readByte (a + i) = m.readByte (a + i)) :
    m'.readF64 a = m.readF64 a := by
  refine BitVec.eq_of_toNat_eq ?_
  have h0 : m'.readByte a = m.readByte a := h 0 (by decide)
  rw [Memory.toNat_readF64, Memory.toNat_readF64, h0, h 1 (by decide), h 2 (by decide), h 3 (by decide), h 4 (by decide),
    h 5 (by decide), h 6 (by decide), h 7 (by decide)]

/-- Bytes outside a channel's samples stay. -/
theorem readByte_writeOut (src : NaNSource) {ch a : Nat} {xs : List F64} (m : Memory)
    (h : a < 0x300000 + 0x80000 * ch ∨ 0x300000 + 0x80000 * ch + 8 * xs.length ≤ a) :
    (writeOut src ch xs m).readByte a = m.readByte a := by
  refine Memory.readByte_writeBytes_of_not_mem _ _ _ _ ?_
  rw [bytesOfF64s_length, publishFrom_length, outAddr]
  omega

/-- A sample of the channel that is written shows the computed one. -/
theorem shows_readF64_writeOut (src : NaNSource) (ch : Nat) {xs : List F64} {k : Nat} {x : F64} (m : Memory)
    (h : xs[k]? = some x) : Shows x ((writeOut src ch xs m).readF64 (0x300000 + 0x80000 * ch + 8 * k)) :=
  shows_readF64_writeF64s m src (outAddr ch 0) h

/-- The samples of other channels stay. -/
theorem readF64_writeOut_other (src : NaNSource) {ch ch' k : Nat} {xs : List F64} (m : Memory) (hne : ch ≠ ch')
    (hk : k < Config.nMax) (hxs : xs.length ≤ Config.nMax) :
    (writeOut src ch' xs m).readF64 (0x300000 + 0x80000 * ch + 8 * k) = m.readF64 (0x300000 + 0x80000 * ch + 8 * k) := by
  simp only [Config.nMax] at hk hxs
  refine Memory.readF64_congr fun i hi => readByte_writeOut src m ?_
  omega

theorem shows_readF64_writeDecoded (src : NaNSource) {ch k : Nat} {y : List (Quad F64)} {d : Quad F64} (m : Memory)
    (hd : y[k]? = some d) (hch : ch < 4) (hy : y.length ≤ Config.nMax) :
    Shows (d.get ch) ((writeDecoded src y m).readF64 (0x300000 + 0x80000 * ch + 8 * k)) := by
  have hk : k < Config.nMax := (List.getElem?_eq_some_iff.1 hd).1.trans_le hy
  have hget (f : Quad F64 → F64) : (y.map f)[k]? = some (f d) := by rw [List.getElem?_map, hd, Option.map_some]
  have hother (ch' : Nat) (f : Quad F64 → F64) (m' : Memory) (hne : ch ≠ ch') :=
    readF64_writeOut_other src (xs := y.map f) m' hne hk (by rwa [List.length_map])
  rw [writeDecoded]
  match ch, hch with
  | 0, _ =>
    rw [hother 3 _ _ (by decide), hother 2 _ _ (by decide), hother 1 _ _ (by decide)]
    exact shows_readF64_writeOut src 0 _ (hget Quad.q0)
  | 1, _ =>
    rw [hother 3 _ _ (by decide), hother 2 _ _ (by decide)]
    exact shows_readF64_writeOut src 1 _ (hget Quad.q1)
  | 2, _ =>
    rw [hother 3 _ _ (by decide)]
    exact shows_readF64_writeOut src 2 _ (hget Quad.q2)
  | 3, _ => exact shows_readF64_writeOut src 3 _ (hget Quad.q3)

theorem readByte_writeDecoded (src : NaNSource) {a : Nat} {y : List (Quad F64)} (m : Memory)
    (h : ∀ ch, ch < 4 → a < 0x300000 + 0x80000 * ch ∨ 0x300000 + 0x80000 * ch + 8 * y.length ≤ a) :
    (writeDecoded src y m).readByte a = m.readByte a := by
  have hout (ch : Nat) (f : Quad F64 → F64) (m' : Memory) (hch : ch < 4) :=
    readByte_writeOut src (xs := y.map f) m' (by rw [List.length_map]; exact h ch hch)
  rw [writeDecoded, hout 3 _ _ (by decide), hout 2 _ _ (by decide), hout 1 _ _ (by decide), hout 0 _ _ (by decide)]

/-! ### The order of the steered samples (R187) -/

theorem steeredTo_succ (p : SteerParams) (st : SteerState) (d : Nat → Quad F64) (k : Nat) :
    steeredTo p st d (k + 1) = steeredTo p (steer p st (d 0)).1 (fun i => d (i + 1)) k := by
  induction k with
  | zero => rfl
  | succ k ih => rw [steeredTo, ih, steeredTo]

theorem steerAll_eq_steeredTo (p : SteerParams) (st : SteerState) {ds : List (Quad F64)} {d : Nat → Quad F64}
    (h : ∀ k, k < ds.length → ds[k]? = some (d k)) :
    (steerAll p st ds).1 = steeredTo p st d ds.length ∧
      ∀ k, k < ds.length → (steerAll p st ds).2[k]? = some (steer p (steeredTo p st d k) (d k)).2 := by
  induction ds generalizing st d with
  | nil => exact ⟨rfl, fun _ hk => absurd hk (Nat.not_lt_zero _)⟩
  | cons e ds ih =>
    obtain rfl : e = d 0 := Option.some.inj (h 0 (Nat.succ_pos _))
    obtain ⟨hstate, hout⟩ := ih (steer p st (d 0)).1 (d := fun i => d (i + 1)) fun k hk => h (k + 1) (Nat.succ_lt_succ hk)
    refine ⟨hstate.trans (steeredTo_succ p st d ds.length).symm, fun k hk => ?_⟩
    cases k with
    | zero => rfl
    | succ k =>
      rw [steeredTo_succ]
      exact hout k (Nat.lt_of_succ_lt_succ hk)

theorem decodeSamples_of_steering {c : Latched} {p : SteerParams} (h : c.steer = some p) (src : NaNSource) (d : List (Quad F64))
    (st : SteerState) : decodeSamples c src d st =
      (⟨(steerAll p st d).1.hist, publishGain src (steerAll p st d).1.gain⟩, (steerAll p st d).2) := by
  simp [decodeSamples, h]

/-- The gains after a hop show the computed ones (R43). -/
theorem shows_publishGain (src : NaNSource) (g : Quad F64) {ch : Nat} (hch : ch < 4) :
    Shows (g.get ch) ((publishGain src g).get ch) := by
  match ch, hch with
  | 0, _ | 1, _ | 2, _ | 3, _ => exact shows_publish _ _ _

/-! ### HOP's checks (R167, R243) -/

/-- Settles O53, check by check. -/
theorem hopReportsTheFirstFailingCheck : Obligations.HopReportsTheFirstFailingCheck := by
  intro s c nch cnt hc arity
  have harity : arity = c.mode.arity := by cases hm : c.mode <;> simp [arity, hm, Mode.arity]
  simp only [harity, exec, execHop, hc, checkHop]
  refine ⟨fun hnch => ?_, fun hnch hneg => ?_, fun hnch hlarge => ?_⟩
  · rw [if_pos hnch]
    rfl
  · rw [if_neg (not_not.2 hnch), if_pos hneg]
    rfl
  · rw [if_neg (not_not.2 hnch), if_neg (by omega), if_pos hlarge]
    rfl

theorem exec_hop_of_fits {s : State} {c : Latched} {cnt : Nat} (hc : s.cfg = some c) (hcnt : cnt ≤ c.h) :
    exec (.hop c.mode.arity cnt) s = .next (succeed 0x03#8 (hopEffect c cnt s)) := by
  have hok := (checkHop_ok c.mode.arity cnt s.cfg c).2 ⟨hc, rfl, Int.natCast_nonneg cnt, Int.ofNat_le.2 hcnt⟩
  simp only [exec, execHop, hok, Int.toNat_natCast]

/-! ### A fitting hop (R140, R161 to R169) -/

section
variable {s : State} {c : Latched} {cnt : Nat} (hi : s.Inv) (hc : s.cfg = some c) (hcnt : cnt ≤ c.h)
include hi hc

theorem streamInv_of_cfg : streamInv s (some c) := by
  obtain ⟨-, hstream, -⟩ := hi
  rwa [hc] at hstream

include hcnt

/-- The samples of both streams of a lane with a shifted path, at every position of the hop. -/
theorem laneHilbert_hop_getElem? (l : Nat) {t : Lane} (ht : t.Sized c.o) {k : Nat} (hk : k < c.h) :
    let r := laneHilbert c t (hopInput s.mem l c.h cnt)
    r.yo[k]? = some (r.yo.getD k F64.posZero) ∧ r.yh[k]? = some (r.yh.getD k F64.posZero) := by
  obtain ⟨hwf, -⟩ := streamInv_of_cfg hi hc
  obtain ⟨hyo, hyh, -⟩ := laneHilbert_length c hwf t ht _ (hopInput_length s.mem l c.h cnt hcnt)
  exact ⟨getElem?_eq_some_getD (by omega) _, getElem?_eq_some_getD (by omega) _⟩

theorem laneDelay_hop_getElem? (l : Nat) {t : Lane} (ht : t.Sized c.o) {k : Nat} (hk : k < c.h) :
    let r := laneDelay c t (hopInput s.mem l c.h cnt)
    r.yo[k]? = some (r.yo.getD k F64.posZero) := by
  obtain ⟨hwf, -⟩ := streamInv_of_cfg hi hc
  obtain ⟨hyo, -⟩ := laneDelay_length c hwf t ht _ (hopInput_length s.mem l c.h cnt hcnt)
  exact getElem?_eq_some_getD (by omega) _

end

/-- Settles O51: LT and RT are written one after the other, and neither touches the other's samples. -/
theorem hopEncodesOneHop : Obligations.HopEncodesOneHop := by
  intro s c cnt hi hc hm hcnt lf rf lb rb z
  have hexec := exec_hop_of_fits hc hcnt
  rw [hm] at hexec
  obtain ⟨hwf, hsized, -⟩ := streamInv_of_cfg hi hc
  have hu := hopInputs_length s.mem hcnt
  have hLT := encodeLT_length hwf hsized hu
  have hRT := encodeRT_length hwf hsized hu
  have hh := hwf.h_le
  obtain ⟨s0, s1, s2, s3⟩ := hsized
  refine ⟨_, hexec, ?_, fun k hk => ?_, fun a ha => ?_⟩
  · rw [hopEffect, hm]
    rfl
  · have h0 := laneDelay_hop_getElem? hi hc hcnt 0 s0 hk
    have h1 := laneDelay_hop_getElem? hi hc hcnt 1 s1 hk
    obtain ⟨h2o, h2h⟩ := laneHilbert_hop_getElem? hi hc hcnt 2 s2 hk
    obtain ⟨h3o, h3h⟩ := laneHilbert_hop_getElem? hi hc hcnt 3 s3 hk
    have hLTk := shows_readF64_writeOut s.nanSource 0 s.mem (mixLT_getElem? h0 h3o h2h)
    rw [← readF64_writeOut_other s.nanSource _ (show 0 ≠ 1 by decide) (hk.trans_le hh) (hRT.trans_le hh)] at hLTk
    rw [hopEffect, hm]
    exact ⟨hLTk, shows_readF64_writeOut s.nanSource 1 _ (mixRT_getElem? h1 h2o h3h)⟩
  · rw [hopEffect, hm]
    exact (readByte_writeOut _ _ (by rw [hRT]; omega)).trans (readByte_writeOut _ _ (by rw [hLT]; omega))

/-- Settles O52: the decoded samples are the matrix's at every position, and steering takes them in their order. -/
theorem hopDecodesOneHop : Obligations.HopDecodesOneHop := by
  intro s c cnt hi hc hm hcnt lt rt d
  have hexec := exec_hop_of_fits hc hcnt
  rw [hm] at hexec
  obtain ⟨hwf, hsized, -⟩ := streamInv_of_cfg hi hc
  have hlen := decodeMix_length hwf hsized (hopInputs_length s.mem hcnt)
  have hh := hwf.h_le
  obtain ⟨s0, s1, -⟩ := hsized
  have hmix : ∀ k, k < c.h → (decodeMix (lt, rt))[k]? = some (d k) := fun k hk =>
    have ⟨h0o, h0h⟩ := laneHilbert_hop_getElem? hi hc hcnt 0 s0 hk
    have ⟨h1o, h1h⟩ := laneHilbert_hop_getElem? hi hc hcnt 1 s1 hk
    mixDecode_getElem? h0o h1o h0h h1h
  obtain ⟨y, hy⟩ : ∃ y, y = decodeSamples c s.nanSource (decodeMix (lt, rt)) ⟨s.hist, s.gain⟩ := ⟨_, rfl⟩
  have hylen : y.2.length = c.h := by rw [hy, decodeSamples_length, ← hlen]; rfl
  have hout {k ch : Nat} {q : Quad F64} (hq : y.2[k]? = some q) (hch : ch < 4) :=
    shows_readF64_writeDecoded s.nanSource s.mem hq hch (hylen.trans_le hh)
  have hbytes {a : Nat} (ha : ∀ ch, ch < 4 → a < 0x300000 + 0x80000 * ch ∨ 0x300000 + 0x80000 * ch + 8 * c.h ≤ a) :=
    readByte_writeDecoded s.nanSource (y := y.2) s.mem (by rwa [hylen])
  have hhop : hopEffect c cnt s = { s with
      lanes := ⟨lt.lane, rt.lane, s.lanes.q2, s.lanes.q3⟩
      hist := y.1.hist
      gain := y.1.gain
      mem := writeDecoded s.nanSource y.2 s.mem
      hopCount := s.hopCount + 1#32
      nanTick := s.nanTick + 1 } := by
    rw [hopEffect, hm, hy]
    rfl
  refine ⟨_, hexec, ?_⟩
  rw [hhop]
  refine ⟨rfl, fun hnone => ?_, fun p hp => ?_, fun a ha => hbytes ha⟩
  · rw [decodeSamples_of_no_steering hnone] at hy
    subst hy
    exact ⟨rfl, rfl, fun k ch hk hch => hout (hmix k hk) hch⟩
  · rw [decodeSamples_of_steering hp] at hy
    have hlen : (decodeMix (lt, rt)).length = c.h := hlen
    obtain ⟨hstate, hsteered⟩ := steerAll_eq_steeredTo p ⟨s.hist, s.gain⟩ (by rwa [hlen])
    rw [hlen] at hstate hsteered
    rw [hstate] at hy
    subst hy
    exact ⟨rfl, fun ch hch => shows_publishGain _ _ hch, fun k ch hk hch => hout (hsteered k hk) hch⟩

end Sys2Proof.Machine
end

section
/-! SUPPORT. Zeros in binary64 arithmetic (00_scope.md R10, R11): what a zero operand gives, up to its sign. -/

namespace Sys2Proof.F64

open Sys2Proof.Machine Sys2Proof.Stated

theorem eq_zero_of_isZero {x : F64} (hx : isZero x = true) : x = zero (isNeg x) := by
  rw [eq_iff_isNeg_mag, isNeg_zero, mag_zero]
  exact ⟨rfl, by simpa [isZero] using hx⟩

theorem isFinite_of_isZero {x : F64} (hx : isZero x = true) : isFinite x = true := by
  rw [isZero, beq_iff_eq] at hx
  simp [isFinite, hx, infMag]

theorem isZero_neg (x : F64) : isZero (neg x) = isZero x := by rw [isZero, isZero, mag_neg]

theorem isZero_add {x y : F64} (hx : isZero x = true) (hy : isZero y = true) : isZero (add x y) = true := by
  have hsum : units x + units y = 0 := by rw [(units_eq_zero_iff x).2 hx, (units_eq_zero_iff y).2 hy, Int.add_zero]
  rw [add_of_isFinite (isFinite_of_isZero hx) (isFinite_of_isZero hy), addFinite_of_zero hsum]
  split <;> rfl

theorem isZero_sub {x y : F64} (hx : isZero x = true) (hy : isZero y = true) : isZero (sub x y) = true :=
  isZero_add hx ((isZero_neg y).trans hy)

/-- A zero added to a finite value changes at most the sign of a zero. -/
theorem add_of_isZero_right {x y : F64} (hx : isFinite x = true) (hx0 : isZero x = false) (hy : isZero y = true) : add x y = x := by
  have hunits : units x + units y = units x := by rw [(units_eq_zero_iff y).2 hy, Int.add_zero]
  have hne : units x ≠ 0 := by rw [ne_eq, units_eq_zero_iff, hx0]; decide
  rw [add_of_isFinite hx (isFinite_of_isZero hy), addFinite_of_ne_zero (by rwa [hunits]), hunits, round_units hx hx0]

theorem isZero_round_zero (n : Bool) (den : ℕ) : isZero (round n 0 den) = true := by
  have hmag : roundMag 0 den = 0 := by simp [roundMag, roundPlace, roundsUp]
  rw [round, hmag]
  cases n <;> rfl

theorem isZero_mul {x y : F64} (hx : isFinite x = true) (hy : isFinite y = true) (h : isZero x = true ∨ isZero y = true) :
    isZero (mul x y) = true := by
  have hunits : magUnits x * magUnits y = 0 := by
    rcases h with h | h <;> rw [isZero, beq_iff_eq] at h <;> simp [magUnits_eq, h]
  rw [mul_of_isFinite hx hy, hunits]
  exact isZero_round_zero _ _

theorem isZero_div {x y : F64} (hx : isZero x = true) (hy : isNaN y = false) (hy0 : isZero y = false) :
    isZero (div x y) = true := by
  have hxf := isFinite_of_isZero hx
  cases hinf : isInf y with
  | true =>
    rw [(eq_infinity_iff y (isNeg y)).2 ⟨hinf, rfl⟩, div_infinity_right _ hxf]
    exact isZero_zero _
  | false =>
    have hyf : isFinite y = true := by
      simp only [isFinite, isNaN, isInf, decide_eq_true_eq, decide_eq_false_iff_not, beq_eq_false_iff_ne] at hy hinf ⊢
      omega
    rw [isZero, beq_iff_eq] at hx
    rw [div_of_isFinite hxf hyf hy0, magUnits_eq, hx, unitsOfMag_zero, Nat.zero_shiftLeft]
    exact isZero_round_zero _ _

theorem isZero_sqrt {x : F64} (hx : isZero x = true) : isZero (sqrt x) = true := by
  simp [sqrt, hx, isNaN_of_isFinite (isFinite_of_isZero hx)]

theorem feq_posZero {x : F64} (hx : isZero x = true) : feq x posZero = true := by
  rw [eq_zero_of_isZero hx]
  cases isNeg x <;> decide

/-- A value of one unit or more does not round to zero. -/
theorem isZero_round_of_le {num den : ℕ} (n : Bool) (hden : 0 < den) (h : den ≤ num) : isZero (round n num den) = false := by
  have hupper := (roundsToMag_unclampedMag num hden).upper_le
  have hone : (1 : ℝ) ≤ num / den := by rwa [one_le_div (Nat.cast_pos.2 hden), Nat.cast_le]
  have hpos : unclampedMag num den ≠ 0 := by
    intro h0
    have hfirst : (neighbourSum 0 : ℝ) = 1 := by norm_num [neighbourSum, unitsOfMag]
    rw [h0, hfirst] at hupper
    linarith
  have hmag : mag (round n num den) = min (unclampedMag num den) infMag := mag_pack n ((min_le_right _ _).trans_lt (by decide))
  have hinf : infMag ≠ 0 := by decide
  rw [isZero, hmag, beq_eq_false_iff_ne]
  omega

theorem isNaN_round (n : Bool) (num den : ℕ) : isNaN (round n num den) = false := by
  have hmag : mag (round n num den) = min (unclampedMag num den) infMag := mag_pack n ((min_le_right _ _).trans_lt (by decide))
  simp [isNaN, hmag]

theorem isFinite_of_roundsTo {r : ℝ} {x : F64} (h : RoundsTo r x) (hr : |r| ≤ 1) : isFinite x = true := by
  have hlarge : (1 : ℝ) + 2 ^ 970 < 2 ^ 1024 := calc
    (1 : ℝ) + 2 ^ 970 < 2 ^ 970 + 2 ^ 970 := (add_lt_add_iff_right _).2 (one_lt_pow₀ one_lt_two (by decide))
    _ = 2 ^ 971 := by rw [← mul_two, ← pow_succ]
    _ ≤ 2 ^ 1024 := pow_le_pow_right₀ one_le_two (by decide)
  exact (h.1 (hr.trans_lt (lt_sub_iff_add_lt.2 hlarge))).1

end Sys2Proof.F64
end

section
/-! SUPPORT. Silence (42_matrix.md R171): zeros pass the transforms, the lanes, the matrix and the steering as zeros, and leave
zeros in the tails and histories. -/

namespace Sys2Proof.Machine

open Sys2Proof Sys2Proof.Stated

/-- Zeros alone, of either sign. -/
abbrev AllZero (xs : List F64) : Prop := ∀ x ∈ xs, F64.isZero x = true

theorem allZero_replicate (n : Nat) : AllZero (List.replicate n F64.posZero) := fun _ hx => List.eq_of_mem_replicate hx ▸ rfl

theorem AllZero.append {xs ys : List F64} (hx : AllZero xs) (hy : AllZero ys) : AllZero (xs ++ ys) :=
  List.forall_mem_append.2 ⟨hx, hy⟩

theorem AllZero.take {xs : List F64} (h : AllZero xs) (n : Nat) : AllZero (xs.take n) := fun x hx => h x (List.mem_of_mem_take hx)

theorem AllZero.drop {xs : List F64} (h : AllZero xs) (n : Nat) : AllZero (xs.drop n) := fun x hx => h x (List.mem_of_mem_drop hx)

theorem AllZero.isZero_getD {xs : List F64} (h : AllZero xs) (k : Nat) : F64.isZero (xs.getD k F64.posZero) = true := by
  rw [List.getD_eq_getElem?_getD]
  cases hk : xs[k]? with
  | none => rfl
  | some x => exact h x (List.mem_of_getElem? hk)

/-! ### The transforms (R121 to R126) -/

/-- A complex zero, of any signs. -/
def Cx.IsZero (x : Cx) : Prop := F64.isZero x.re = true ∧ F64.isZero x.im = true

def Cx.IsFinite (x : Cx) : Prop := F64.isFinite x.re = true ∧ F64.isFinite x.im = true

theorem isZero_cxZero : Cx.zero.IsZero := ⟨rfl, rfl⟩

theorem isZero_cmul {w x : Cx} (hw : w.IsFinite) (hx : x.IsZero) : (cmul w x).IsZero := by
  have hmul {a b : F64} (ha : F64.isFinite a = true) (hb : F64.isZero b = true) : F64.isZero (F64.mul a b) = true :=
    F64.isZero_mul ha (F64.isFinite_of_isZero hb) (.inr hb)
  obtain ⟨hwre, hwim⟩ := hw
  obtain ⟨hre, him⟩ := hx
  exact ⟨F64.isZero_sub (hmul hwre hre) (hmul hwim him), F64.isZero_add (hmul hwre him) (hmul hwim hre)⟩

theorem isZero_butterfly {u x w : Cx} (hu : u.IsZero) (hx : x.IsZero) (hw : w.IsFinite) :
    (butterfly u x w).1.IsZero ∧ (butterfly u x w).2.IsZero := by
  obtain ⟨hre, him⟩ := isZero_cmul hw hx
  exact ⟨⟨F64.isZero_add hu.1 hre, F64.isZero_add hu.2 him⟩, ⟨F64.isZero_sub hu.1 hre, F64.isZero_sub hu.2 him⟩⟩

theorem isZero_loopStages {tw : Nat → Cx} {l m : Nat} {a : Nat → Cx} (htw : ∀ k, k < 2 ^ l / 2 → (tw k).IsFinite)
    (hm : m ≤ l) (ha : ∀ i, (a i).IsZero) (i : Nat) : (loopStages tw (2 ^ l) a m i).IsZero := by
  induction m generalizing i with
  | zero => exact ha i
  | succ m ih =>
    have ih := ih (by omega)
    have hw {j : Nat} (hj : j < 2 ^ m) : (tw (j * (2 ^ l / (2 * 2 ^ m)))).IsFinite := by
      refine htw _ ?_
      have hsplit : 2 ^ l = 2 ^ (l - (m + 1)) * (2 * 2 ^ m) := by rw [← pow_succ', ← pow_add]; congr 1; omega
      have hpos : 0 < 2 ^ (l - (m + 1)) := by positivity
      rw [hsplit, Nat.mul_div_cancel _ (by positivity), Nat.mul_left_comm, Nat.mul_div_cancel_left _ (by decide), Nat.mul_comm]
      exact Nat.mul_lt_mul_of_pos_left hj hpos
    have hmod := Nat.mod_lt i (show 0 < 2 * 2 ^ m by positivity)
    rw [loopStages, loopStage]
    split
    next hup => exact (isZero_butterfly (ih _) (ih _) (hw hup)).1
    next hlow => exact (isZero_butterfly (ih _) (ih _) (hw (by omega))).2

theorem isZero_loopFft {tw : Nat → Cx} {l : Nat} {x : List Cx} (htw : ∀ k, k < 2 ^ l / 2 → (tw k).IsFinite)
    (hx : ∀ v ∈ x, v.IsZero) (i : Nat) : (loopFft tw l x i).IsZero := by
  refine isZero_loopStages htw le_rfl (fun j => ?_) i
  rw [List.getD_eq_getElem?_getD]
  cases hj : x[bitrev l j]? with
  | none => exact isZero_cxZero
  | some v => exact hx v (List.mem_of_getElem? hj)

theorem isFinite_twiddles {l k : Nat} (hl6 : 6 ≤ l) (hl : l ≤ 16) (hk : k < 2 ^ l / 2) :
    (twf (2 ^ l) k).IsFinite ∧ (twi (2 ^ l) k).IsFinite := by
  obtain ⟨hfre, hfim, hire, hiim, -⟩ := twiddlesAreCorrectlyRounded l k hl6 hl hk
  have hcos := Real.abs_cos_le_one (2 * Real.pi * k / 2 ^ l)
  have hsin := Real.abs_sin_le_one (2 * Real.pi * k / 2 ^ l)
  exact ⟨⟨F64.isFinite_of_roundsTo hfre hcos, F64.isFinite_of_roundsTo hfim (by rwa [abs_neg])⟩,
    ⟨F64.isFinite_of_roundsTo hire hcos, F64.isFinite_of_roundsTo hiim hsin⟩⟩

theorem isFinite_inverseScale {n : Nat} (hn : 0 < n) : F64.isFinite (inverseScale n) = true := by
  have hround := F64.roundsTo_round false (2 ^ 1074) hn
  have hscale : (2 : ℝ) ^ 1074 ≠ 0 := by positivity
  rw [Nat.cast_pow, Nat.cast_ofNat, show F64.signFactor false = 1 from rfl, one_mul, div_right_comm, div_self hscale] at hround
  rw [inverseScale_eq]
  refine F64.isFinite_of_roundsTo hround ?_
  rw [abs_of_nonneg (by positivity), div_le_one (Nat.cast_pos.2 hn)]
  exact Nat.one_le_cast.2 hn

section
variable {l : Nat} (hl6 : 6 ≤ l) (hl : l ≤ 16) {x : List Cx} (hlen : x.length = 2 ^ l) (hx : ∀ v ∈ x, v.IsZero)
include hl6 hl hlen hx

theorem isZero_of_mem_fft : ∀ v ∈ fft (2 ^ l) x, v.IsZero := by
  intro v hv
  obtain ⟨i, hi, rfl⟩ := List.getElem_of_mem hv
  have hget := (fftIsTheLoopsOverIndices.2 l i x (by rwa [fft_length _ (by rw [Nat.log2_two_pow]) x hlen] at hi) hlen).1
  rw [List.getElem?_eq_getElem hi, Option.some.injEq] at hget
  rw [hget]
  exact isZero_loopFft (fun k hk => (isFinite_twiddles hl6 hl hk).1) hx i

theorem isZero_of_mem_ifft : ∀ v ∈ ifft (2 ^ l) x, v.IsZero := by
  intro v hv
  obtain ⟨i, hi, rfl⟩ := List.getElem_of_mem hv
  have hget := (fftIsTheLoopsOverIndices.2 l i x (by rwa [ifft_length _ (by rw [Nat.log2_two_pow]) x hlen] at hi) hlen).2
  rw [List.getElem?_eq_getElem hi, Option.some.injEq] at hget
  rw [hget, ← inverseScale_eq]
  have hscale := isFinite_inverseScale (Nat.two_pow_pos l)
  obtain ⟨hre, him⟩ := isZero_loopFft (fun k hk => (isFinite_twiddles hl6 hl hk).2) hx i
  exact ⟨F64.isZero_mul (F64.isFinite_of_isZero hre) hscale (.inl hre),
    F64.isZero_mul (F64.isFinite_of_isZero him) hscale (.inl him)⟩

end

/-! ### The lanes (R141 to R147) -/

theorem isZero_hmul (n k : Nat) {x : Cx} (hx : x.IsZero) : (hmul n k x).IsZero := by
  obtain ⟨hre, him⟩ := hx
  rw [hmul]
  split
  · exact isZero_cxZero
  split
  · exact isZero_cxZero
  split
  · exact ⟨him, (F64.isZero_neg _).trans hre⟩
  · exact ⟨(F64.isZero_neg _).trans him, hre⟩

theorem mem_zipWith {α β γ : Type} {f : α → β → γ} {xs : List α} {ys : List β} {z : γ}
    (h : z ∈ List.zipWith f xs ys) : ∃ x y, x ∈ xs ∧ y ∈ ys ∧ f x y = z := by
  obtain ⟨i, hi, rfl⟩ := List.getElem_of_mem h
  rw [List.length_zipWith, lt_inf_iff] at hi
  exact ⟨_, _, List.getElem_mem hi.1, List.getElem_mem hi.2, List.getElem_zipWith.symm⟩

theorem allZero_shifted {c : Latched} (hc : c.Wf) {b : List F64} (hlen : b.length = c.n) (hb : AllZero b) :
    AllZero (shifted c.n b) := by
  obtain ⟨⟨hpow, hmin, hmax⟩, -⟩ := hc
  have hn : c.n ≠ 0 := by rintro h0; rw [h0] at hmin; exact absurd hmin (by decide)
  have hl6 : 6 ≤ Nat.log2 c.n := (Nat.le_log2 hn).2 hmin
  have hl : Nat.log2 c.n ≤ 16 := Nat.lt_succ_iff.1 ((Nat.log2_lt hn).2 (hmax.trans_lt (by decide)))
  generalize Nat.log2 c.n = l at hpow hl6 hl
  rw [hpow] at hlen ⊢
  obtain ⟨x, hx⟩ : ∃ x, x = b.map (fun v => (⟨v, F64.posZero⟩ : Cx)) := ⟨_, rfl⟩
  have hxlen : x.length = 2 ^ l := by rw [hx, List.length_map, hlen]
  have hxzero : ∀ v ∈ x, v.IsZero := by
    rw [hx, List.forall_mem_map]
    exact fun v hv => ⟨hb v hv, rfl⟩
  have hmult : ∀ v ∈ List.zipWith (hmul (2 ^ l)) (List.range (2 ^ l)) (fft (2 ^ l) x), v.IsZero := by
    intro v hv
    obtain ⟨k, y, -, hy, rfl⟩ := mem_zipWith hv
    exact isZero_hmul _ _ (isZero_of_mem_fft hl6 hl hxlen hxzero y hy)
  have hmultLen : (List.zipWith (hmul (2 ^ l)) (List.range (2 ^ l)) (fft (2 ^ l) x)).length = 2 ^ l := by
    rw [List.length_zipWith, List.length_range, fft_length _ (by rw [Nat.log2_two_pow]) x hxlen, min_self]
  rw [shifted, ← hx, AllZero, List.forall_mem_map]
  exact fun v hv => (isZero_of_mem_ifft hl6 hl hmultLen hmult v hv).1

theorem allZero_overlapAdd (o : Nat) {tail b : List F64} (ht : AllZero tail) (hb : AllZero b) : AllZero (overlapAdd o tail b) := by
  refine AllZero.append (fun z hz => ?_) (hb.drop o)
  obtain ⟨x, y, hx, hy, rfl⟩ := mem_zipWith hz
  exact F64.isZero_add (ht x hx) (hb.take o y hy)

/-- Both tails of a lane are zeros (R171). -/
abbrev Lane.Silent (t : Lane) : Prop := AllZero t.tailO ∧ AllZero t.tailH

theorem allZero_laneBlock (c : Latched) {u : List F64} (hu : AllZero u) : AllZero (laneBlock c u) :=
  ((allZero_replicate _).append hu).append (allZero_replicate _)

theorem laneDelay_silent (c : Latched) {t : Lane} {u : List F64} (ht : t.Silent) (hu : AllZero u) :
    AllZero (laneDelay c t u).yo ∧ (laneDelay c t u).lane.Silent := by
  have hacc := allZero_overlapAdd c.o ht.1 (allZero_laneBlock c hu)
  exact ⟨hacc.take _, hacc.drop _, ht.2⟩

theorem laneHilbert_silent {c : Latched} (hc : c.Wf) {t : Lane} {u : List F64} (ht : t.Silent) (hlen : u.length = c.h)
    (hu : AllZero u) :
    AllZero (laneHilbert c t u).yo ∧ AllZero (laneHilbert c t u).yh ∧ (laneHilbert c t u).lane.Silent := by
  have hblock := allZero_laneBlock c hu
  have haccO := allZero_overlapAdd c.o ht.1 hblock
  have haccH := allZero_overlapAdd c.o ht.2 (allZero_shifted hc (laneBlock_length c hc u hlen) hblock)
  exact ⟨haccO.take _, haccH.take _, haccO.drop _, haccH.drop _⟩

/-! ### The matrix (R162 to R166) -/

theorem isZero_coefC_mul {x : F64} (hx : F64.isZero x = true) : F64.isZero (F64.mul coefC x) = true :=
  F64.isZero_mul (by decide) (F64.isFinite_of_isZero hx) (.inr hx)

theorem isZero_matrixLT {x y z : F64} (hx : F64.isZero x = true) (hy : F64.isZero y = true) (hz : F64.isZero z = true) :
    F64.isZero (matrixLT x y z) = true :=
  F64.isZero_sub (F64.isZero_add hx (isZero_coefC_mul hy)) (isZero_coefC_mul hz)

theorem isZero_matrixRT {x y z : F64} (hx : F64.isZero x = true) (hy : F64.isZero y = true) (hz : F64.isZero z = true) :
    F64.isZero (matrixRT x y z) = true :=
  F64.isZero_add (F64.isZero_sub hx (isZero_coefC_mul hy)) (isZero_coefC_mul hz)

theorem decoded_silent {a b : LaneStep} (ha : AllZero a.yo ∧ AllZero a.yh) (hb : AllZero b.yo ∧ AllZero b.yh) (k : Nat) :
    (decoded a b k).Each (fun x => F64.isZero x = true) := by
  obtain ⟨hao, hah⟩ := ha
  obtain ⟨hbo, hbh⟩ := hb
  exact ⟨hao.isZero_getD k, hbo.isZero_getD k,
    F64.isZero_sub (isZero_coefC_mul (hah.isZero_getD k)) (isZero_coefC_mul (hbo.isZero_getD k)),
    F64.isZero_sub (isZero_coefC_mul (hao.isZero_getD k)) (isZero_coefC_mul (hbh.isZero_getD k))⟩

/-! ### The steering (R181 to R187) -/

/-- Histories of zeros and gains of 1.0 (R171). -/
def SteerState.Silent (st : SteerState) : Prop := st.hist.Each AllZero ∧ st.gain = Quad.all F64.one

theorem allZero_pushHist (k : Nat) {h : List F64} {d : F64} (hh : AllZero h) (hd : F64.isZero d = true) :
    AllZero (pushHist k h d) :=
  ((hh.take k).drop 1).append (List.forall_mem_cons.2 ⟨hd, hh.drop k⟩)

theorem isZero_sumSquares (k : Nat) {h : List F64} (hh : AllZero h) : F64.isZero (sumSquares k h) = true := by
  have hfold : ∀ (xs : List F64) (acc : F64), AllZero xs → F64.isZero acc = true →
      F64.isZero (xs.foldl (fun s x => F64.add s (F64.mul x x)) acc) = true := by
    intro xs
    induction xs with
    | nil => exact fun _ _ hacc => hacc
    | cons x xs ih =>
      intro acc hxs hacc
      obtain ⟨hx, hxs⟩ := List.forall_mem_cons.1 hxs
      have hfin := F64.isFinite_of_isZero hx
      exact ih _ hxs (F64.isZero_add hacc (F64.isZero_mul hfin hfin (.inl hx)))
  exact hfold _ _ (hh.take k) rfl

theorem isZero_rms {k : Nat} (hk : 1 ≤ k) {h : List F64} (hh : AllZero h) : F64.isZero (rms k h) = true := by
  have hle : 1 ≤ k <<< 1074 := by
    rw [Nat.shiftLeft_eq]
    exact Nat.mul_pos hk (by positivity)
  exact F64.isZero_sqrt (F64.isZero_div (isZero_sumSquares k hh) (F64.isNaN_round ..) (F64.isZero_round_of_le false one_pos hle))

theorem target_of_isZero (p : SteerParams) {r : Quad F64} (hr : r.Each (fun x => F64.isZero x = true)) (dom ch : Nat) :
    target p r dom ch = F64.one := by
  rw [target, if_pos (F64.feq_posZero (hr.get dom))]

theorem isFinite_of_alphaOk {a : F64} (h : alphaOk a = true) : F64.isFinite a = true := by
  simp only [alphaOk, F64.lt, F64.le, Bool.and_eq_true, decide_eq_true_eq] at h
  obtain ⟨⟨-, hpos⟩, -, hone⟩ := h
  have hmag := F64.natAbs_key a
  have hkeyZero : F64.key F64.posZero = 0 := by decide
  have hkeyOne : F64.key F64.one < F64.infMag := by decide
  rw [F64.isFinite, decide_eq_true_eq]
  omega

/-- A gain of 1.0 stays at a target of 1.0 (R185). -/
theorem smooth_one {p : SteerParams} (hp : p.Wf) : smooth p F64.one F64.one = F64.one := by
  obtain ⟨-, -, -, -, hrel⟩ := hp
  have hdiff : F64.isZero (F64.sub F64.one F64.one) = true := by decide
  rw [smooth, if_neg (by decide)]
  exact F64.add_of_isZero_right (by decide) (by decide)
    (F64.isZero_mul (isFinite_of_alphaOk hrel) (F64.isFinite_of_isZero hdiff) (.inr hdiff))

theorem Quad.get_all {α : Type} (a : α) (ch : Nat) : (Quad.all a).get ch = a :=
  (Quad.each_all (P := (· = a)) rfl).get ch

theorem Quad.eq_all_of_get {α : Type} {q : Quad α} {a : α} (h : ∀ ch, ch < 4 → q.get ch = a) : q = Quad.all a := by
  have h0 : q.q0 = a := h 0 (by decide)
  have h1 : q.q1 = a := h 1 (by decide)
  have h2 : q.q2 = a := h 2 (by decide)
  have h3 : q.q3 = a := h 3 (by decide)
  exact congr (congr (congr (congrArg Quad.mk h0) h1) h2) h3

/-- The gains after a sample, from the RMS values of the moved windows (R182 to R185). -/
theorem steer_gain (p : SteerParams) (st : SteerState) (d : Quad F64) :
    let r := Quad.ofFn (fun ch => rms p.k ((steer p st d).1.hist.get ch))
    (steer p st d).1.gain = Quad.ofFn (fun ch => smooth p (target p r (dominant r) ch) (st.gain.get ch)) := rfl

theorem steer_silent {p : SteerParams} (hp : p.Wf) {st : SteerState} {d : Quad F64} (hst : st.Silent)
    (hd : d.Each (fun x => F64.isZero x = true)) :
    (steer p st d).1.Silent ∧ (steer p st d).2.Each (fun x => F64.isZero x = true) := by
  obtain ⟨hhist, hgain⟩ := hst
  have hpush : (steer p st d).1.hist.Each AllZero := Quad.each_ofFn fun ch _ => allZero_pushHist p.k (hhist.get ch) (hd.get ch)
  have hrms : (Quad.ofFn (fun ch => rms p.k ((steer p st d).1.hist.get ch))).Each (fun x => F64.isZero x = true) :=
    Quad.each_ofFn fun ch _ => isZero_rms hp.1.1 (hpush.get ch)
  have hone : (steer p st d).1.gain = Quad.all F64.one := by
    simp only [steer_gain, target_of_isZero p hrms, hgain, Quad.get_all, smooth_one hp]
    rfl
  refine ⟨⟨hpush, hone⟩, Quad.each_ofFn (f := fun ch => F64.mul ((steer p st d).1.gain.get ch) (d.get ch)) fun ch _ => ?_⟩
  rw [hone, Quad.get_all]
  exact F64.isZero_mul (by decide) (F64.isFinite_of_isZero (hd.get ch)) (.inr (hd.get ch))

theorem steeredTo_silent {p : SteerParams} (hp : p.Wf) {st : SteerState} {d : Nat → Quad F64} (hst : st.Silent)
    (hd : ∀ k, (d k).Each (fun x => F64.isZero x = true)) (k : Nat) : (steeredTo p st d k).Silent := by
  induction k with
  | zero => exact hst
  | succ k ih => exact (steer_silent hp ih (hd k)).1

/-! ### A hop of silence (R171) -/

theorem isZero_san {x : F64} (h : F64.isZero x = true ∨ F64.isFinite x = false) : F64.isZero (san x) = true := by
  rw [san]
  rcases h with h | h
  · rwa [if_pos (F64.isFinite_of_isZero h)]
  · rw [h]
    rfl

theorem allZero_hopInput {m : Memory} {l h cnt : Nat} (hin : ∀ k, k < cnt → F64.isZero (m.readF64 (inAddr l k)) = true ∨
    F64.isFinite (m.readF64 (inAddr l k)) = false) : AllZero (hopInput m l h cnt) := by
  refine AllZero.append (List.forall_mem_map.2 fun x hx => ?_) (allZero_replicate _)
  obtain ⟨k, hk, rfl⟩ := List.getElem_of_mem hx
  have hkcnt : k < cnt := by rwa [m.readF64s_length] at hk
  have hget := m.readF64s_getElem? (inAddr l 0) hkcnt
  rw [List.getElem?_eq_getElem hk, Option.some.injEq] at hget
  rw [hget]
  exact isZero_san (hin k hkcnt)

theorem Shows.eq_of_isNaN_eq_false {x y : F64} (h : Shows x y) (hx : F64.isNaN x = false) : y = x := by
  rwa [Shows, hx, if_neg Bool.false_ne_true] at h

theorem Shows.isZero {x y : F64} (h : Shows x y) (hx : F64.isZero x = true) : F64.isZero y = true := by
  rwa [h.eq_of_isNaN_eq_false (F64.isNaN_of_isFinite (F64.isFinite_of_isZero hx))]

section
variable {s : State} {c : Latched} {cnt : Nat} (hi : s.Inv) (hc : s.cfg = some c) (hcnt : cnt ≤ c.h) (hs : s.Silent)
  (hin : ∀ l, l < c.mode.arity → AllZero (hopInput s.mem l c.h cnt))
include hi hc hcnt hs hin

theorem hop_encode_silent (hm : c.mode = .encode) : ∃ t, exec (.hop 4 cnt) s = .next t ∧ t.Silent ∧
    ∀ ch k, ch < 2 → k < c.h → F64.isZero (t.mem.readF64 (outAddr ch k)) = true := by
  obtain ⟨t, hexec, ht, hout, -⟩ := hopEncodesOneHop s c cnt hi hc hm hcnt
  obtain ⟨hwf, -⟩ := streamInv_of_cfg hi hc
  obtain ⟨⟨s0, s1, s2, s3⟩, hhist, hgain⟩ := hs
  rw [hm] at hin
  have hlen (l : Nat) := hopInput_length s.mem l c.h cnt hcnt
  obtain ⟨yo0, l0⟩ := laneDelay_silent c s0 (hin 0 (by decide))
  obtain ⟨yo1, l1⟩ := laneDelay_silent c s1 (hin 1 (by decide))
  obtain ⟨yo2, yh2, l2⟩ := laneHilbert_silent hwf s2 (hlen 2) (hin 2 (by decide))
  obtain ⟨yo3, yh3, l3⟩ := laneHilbert_silent hwf s3 (hlen 3) (hin 3 (by decide))
  refine ⟨t, hexec, ⟨?_, ?_, ?_⟩, fun ch k hch hk => ?_⟩
  · rw [congrArg State.lanes ht]
    exact ⟨l0, l1, l2, l3⟩
  · rwa [congrArg State.hist ht]
  · rwa [congrArg State.gain ht]
  · obtain ⟨hLT, hRT⟩ := hout k hk
    match ch, hch with
    | 0, _ => exact hLT.isZero (isZero_matrixLT (yo0.isZero_getD k) (yo3.isZero_getD k) (yh2.isZero_getD k))
    | 1, _ => exact hRT.isZero (isZero_matrixRT (yo1.isZero_getD k) (yo2.isZero_getD k) (yh3.isZero_getD k))

theorem hop_decode_silent (hm : c.mode = .decode) : ∃ t, exec (.hop 2 cnt) s = .next t ∧ t.Silent ∧
    ∀ ch k, ch < 4 → k < c.h → F64.isZero (t.mem.readF64 (outAddr ch k)) = true := by
  obtain ⟨t, hexec, ht, hplain, hsteered, -⟩ := hopDecodesOneHop s c cnt hi hc hm hcnt
  obtain ⟨hwf, -⟩ := streamInv_of_cfg hi hc
  obtain ⟨⟨s0, s1, s2, s3⟩, hhist, hgain⟩ := hs
  rw [hm] at hin
  have hlen (l : Nat) := hopInput_length s.mem l c.h cnt hcnt
  obtain ⟨yo0, yh0, l0⟩ := laneHilbert_silent hwf s0 (hlen 0) (hin 0 (by decide))
  obtain ⟨yo1, yh1, l1⟩ := laneHilbert_silent hwf s1 (hlen 1) (hin 1 (by decide))
  have hdecoded := decoded_silent ⟨yo0, yh0⟩ ⟨yo1, yh1⟩
  have hlanes : t.lanes.Each Lane.Silent := by
    rw [congrArg State.lanes ht]
    exact ⟨l0, l1, s2, s3⟩
  cases hp : c.steer with
  | none =>
    obtain ⟨hthist, htgain, hout⟩ := hplain hp
    exact ⟨t, hexec, ⟨hlanes, by rwa [hthist], by rwa [htgain]⟩,
      fun ch k hch hk => (hout k ch hk hch).isZero ((hdecoded k).get ch)⟩
  | some p =>
    obtain ⟨hthist, htgain, hout⟩ := hsteered p hp
    obtain ⟨-, -, -, -, hpwf⟩ := hwf
    rw [hp] at hpwf
    have hstate := steeredTo_silent hpwf.2 (st := ⟨s.hist, s.gain⟩) ⟨hhist, hgain⟩ hdecoded
    obtain ⟨hhist', hgain'⟩ := hstate c.h
    refine ⟨t, hexec, ⟨hlanes, by rwa [hthist], ?_⟩, fun ch k hch hk => (hout k ch hk hch).isZero ?_⟩
    · simp only [hgain', Quad.get_all] at htgain
      exact Quad.eq_all_of_get fun ch hch => (htgain ch hch).eq_of_isNaN_eq_false (by decide)
    · exact (steer_silent hpwf.2 (hstate k) (hdecoded k)).2.get ch

end

/-- Settles O56: in each mode from the samples that the hop shows, all computed from zeros. -/
theorem silenceStaysSilent : Obligations.SilenceStaysSilent := by
  intro s c cnt hi hc hcnt hs hin
  have hzero : ∀ l, l < c.mode.arity → AllZero (hopInput s.mem l c.h cnt) := fun l hl =>
    allZero_hopInput fun k hk => hin l k hl hk
  cases hm : c.mode with
  | encode => exact hop_encode_silent hi hc hcnt hs hzero hm
  | decode => exact hop_decode_silent hi hc hcnt hs hzero hm

end Sys2Proof.Machine
end

section
/-! SUPPORT. The round trip of front streams (42_matrix.md R170): silent rears change LT and RT from the delayed fronts in the sign
of zeros at most, and the decoder's fronts are the original path of both. -/

namespace Sys2Proof.Machine

open Sys2Proof Sys2Proof.Stated

/-! ### Up to the sign of zero -/

theorem SameUpToZeroSign.trans {x y z : F64} (hxy : SameUpToZeroSign x y) (hyz : SameUpToZeroSign y z) : SameUpToZeroSign x z := by
  obtain rfl | ⟨hx, hy⟩ := hxy
  · exact hyz
  · obtain rfl | ⟨-, hz⟩ := hyz
    · exact .inr ⟨hx, hy⟩
    · exact .inr ⟨hx, hz⟩

theorem SameUpToZeroSign.isZero {x y : F64} (h : SameUpToZeroSign x y) (hy : F64.isZero y = true) : F64.isZero x = true := by
  obtain rfl | ⟨hx, -⟩ := h
  · exact hy
  · exact hx

/-- A finite `x` passes as a finite `y` that differs from it in the sign of zero at most. -/
def Passes (x y : F64) : Prop := F64.isFinite x = true → F64.isFinite y = true ∧ SameUpToZeroSign y x

theorem Passes.refl (x : F64) : Passes x x := fun hx => ⟨hx, .inl rfl⟩

theorem Passes.add_zero {x y z : F64} (h : Passes x y) (hz : F64.isZero z = true) : Passes x (F64.add y z) := by
  intro hx
  obtain ⟨hy, hyx⟩ := h hx
  cases hy0 : F64.isZero y with
  | true =>
    have hsum := F64.isZero_add hy0 hz
    exact ⟨F64.isFinite_of_isZero hsum, SameUpToZeroSign.trans (.inr ⟨hsum, hy0⟩) hyx⟩
  | false =>
    rw [F64.add_of_isZero_right hy hy0 hz]
    exact ⟨hy, hyx⟩

theorem Passes.sub_zero {x y z : F64} (h : Passes x y) (hz : F64.isZero z = true) : Passes x (F64.sub y z) :=
  h.add_zero ((F64.isZero_neg z).trans hz)

theorem passes_matrixLT (x : F64) {y z : F64} (hy : F64.isZero y = true) (hz : F64.isZero z = true) :
    Passes x (matrixLT x y z) :=
  ((Passes.refl x).add_zero (isZero_coefC_mul hy)).sub_zero (isZero_coefC_mul hz)

theorem passes_matrixRT (x : F64) {y z : F64} (hy : F64.isZero y = true) (hz : F64.isZero z = true) :
    Passes x (matrixRT x y z) :=
  ((Passes.refl x).sub_zero (isZero_coefC_mul hy)).add_zero (isZero_coefC_mul hz)

/-- Where each sample passes the matrix beside two zeros, a hop passes beside two streams of zeros. -/
theorem forall₂_passes_of_mix {f : F64 → F64 → F64 → F64} {xs ys zs ws : List F64}
    (hf : ∀ (x : F64) {y z : F64}, F64.isZero y = true → F64.isZero z = true → Passes x (f x y z))
    (hmix : ∀ {i : Nat} {x y z : F64}, xs[i]? = some x → ys[i]? = some y → zs[i]? = some z → ws[i]? = some (f x y z))
    (hw : ws.length = xs.length) (hy : ys.length = xs.length) (hz : zs.length = xs.length) (hy0 : AllZero ys)
    (hz0 : AllZero zs) : List.Forall₂ Passes xs ws := by
  refine List.forall₂_iff_get.2 ⟨hw.symm, fun i hi hi' => ?_⟩
  have hget := hmix (List.getElem?_eq_getElem hi) (List.getElem?_eq_getElem (hy ▸ hi)) (List.getElem?_eq_getElem (hz ▸ hi))
  rw [List.getElem?_eq_getElem hi', Option.some.injEq] at hget
  rw [List.get_eq_getElem, List.get_eq_getElem, hget]
  exact hf _ (hy0 _ (List.getElem_mem _)) (hz0 _ (List.getElem_mem _))

/-! ### The encoder's streams with silent rears -/

theorem coldLane_sized (o : Nat) : (coldLane o).Sized o := ⟨List.length_replicate, List.length_replicate⟩

theorem coldLane_silent (o : Nat) : (coldLane o).Silent := ⟨allZero_replicate o, allZero_replicate o⟩

/-- The hops of front streams with rears of `n` zeros each. -/
def silentRears (n : Nat) (us : List (List F64 × List F64)) : List (Quad (List F64)) :=
  us.map (fun u => ⟨u.1, u.2, zeros n, zeros n⟩)

/-- LT and RT are the delayed fronts up to the sign of zero, in hops of `H` samples. -/
theorem encodeStream_silentRears {c : Latched} (hc : c.Wf) {us : List (List F64 × List F64)}
    (hus : ∀ u ∈ us, u.1.length = c.h ∧ u.2.length = c.h) {t : Quad Lane} (ht : t.Each (Lane.Sized c.o)) (h2 : t.q2.Silent)
    (h3 : t.q3.Silent) :
    let lts := encodeStream c t (silentRears c.h us)
    (∀ v ∈ lts, v.1.length = c.h ∧ v.2.length = c.h) ∧
    List.Forall₂ Passes (laneStream (laneDelay c) t.q0 (us.map Prod.fst)) (lts.map Prod.fst).flatten ∧
    List.Forall₂ Passes (laneStream (laneDelay c) t.q1 (us.map Prod.snd)) (lts.map Prod.snd).flatten := by
  induction us generalizing t with
  | nil => exact ⟨List.forall_mem_nil _, .nil, .nil⟩
  | cons u us ih =>
    obtain ⟨⟨hu1, hu2⟩, hus⟩ := List.forall_mem_cons.1 hus
    have hz : (zeros c.h).length = c.h := List.length_replicate
    have hz0 : AllZero (zeros c.h) := allZero_replicate c.h
    have hu : (⟨u.1, u.2, zeros c.h, zeros c.h⟩ : Quad (List F64)).Each (fun x => x.length = c.h) := ⟨hu1, hu2, hz, hz⟩
    obtain ⟨yo2, yh2, l2⟩ := laneHilbert_silent hc h2 hz hz0
    obtain ⟨yo3, yh3, l3⟩ := laneHilbert_silent hc h3 hz hz0
    have hLT := encodeLT_length hc ht hu
    have hRT := encodeRT_length hc ht hu
    obtain ⟨hhops, hL, hR⟩ := ih hus (encodeTails_sized hc ht hu) l2 l3
    obtain ⟨t0, t1, t2, t3⟩ := ht
    have d0 := (laneDelay_length c hc _ t0 _ hu1).1
    have d1 := (laneDelay_length c hc _ t1 _ hu2).1
    obtain ⟨e2, f2, -⟩ := laneHilbert_length c hc _ t2 _ hz
    obtain ⟨e3, f3, -⟩ := laneHilbert_length c hc _ t3 _ hz
    refine ⟨List.forall_mem_cons.2 ⟨⟨hLT, hRT⟩, hhops⟩, List.rel_append ?_ hL, List.rel_append ?_ hR⟩
    · exact forall₂_passes_of_mix passes_matrixLT mixLT_getElem? (hLT.trans d0.symm) (e3.trans d0.symm)
        (f2.trans d0.symm) yo3 yh2
    · exact forall₂_passes_of_mix passes_matrixRT mixRT_getElem? (hRT.trans d1.symm) (e2.trans d1.symm)
        (f3.trans d1.symm) yo2 yh3

/-! ### The decoder's fronts without steering -/

theorem map_mixDecode_fronts {a b d e : List F64} (hb : b.length = a.length) (hd : d.length = a.length) (he : e.length = a.length) :
    (mixDecode a b d e).map Quad.q0 = a ∧ (mixDecode a b d e).map Quad.q1 = b := by
  have hlen := mixDecode_length a b d e _ rfl hb hd he
  have hget {i : Nat} (hi : i < a.length) := mixDecode_getElem? (List.getElem?_eq_getElem hi) (List.getElem?_eq_getElem (hb ▸ hi))
    (List.getElem?_eq_getElem (hd ▸ hi)) (List.getElem?_eq_getElem (he ▸ hi))
  refine ⟨List.ext_getElem (by rw [List.length_map, hlen]) fun i _ hi => ?_,
    List.ext_getElem (by rw [List.length_map, hlen, hb]) fun i _ hi => ?_⟩
  · rw [List.getElem_map, (List.getElem?_eq_some_iff.1 (hget hi)).2]
  · rw [List.getElem_map, (List.getElem?_eq_some_iff.1 (hget (hb ▸ hi))).2]

theorem decodeStream_fronts {c : Latched} (hc : c.Wf) {us : List (List F64 × List F64)}
    (hus : ∀ u ∈ us, u.1.length = c.h ∧ u.2.length = c.h) {t : Quad Lane} (h0 : t.q0.Sized c.o) (h1 : t.q1.Sized c.o) :
    let dec := decodeStream c t us
    (dec.map (fun y => y.map Quad.q0)).flatten = laneStream (laneHilbert c) t.q0 ((us.map Prod.fst).map (fun v => v.map san)) ∧
    (dec.map (fun y => y.map Quad.q1)).flatten = laneStream (laneHilbert c) t.q1 ((us.map Prod.snd).map (fun v => v.map san)) := by
  induction us generalizing t with
  | nil => exact ⟨rfl, rfl⟩
  | cons u us ih =>
    obtain ⟨⟨hu1, hu2⟩, hus⟩ := List.forall_mem_cons.1 hus
    obtain ⟨yo0, yh0, l0⟩ := laneHilbert_length c hc _ h0 (u.1.map san) (by rwa [List.length_map])
    obtain ⟨yo1, yh1, l1⟩ := laneHilbert_length c hc _ h1 (u.2.map san) (by rwa [List.length_map])
    obtain ⟨hL, hR⟩ := ih hus (t := ⟨_, _, t.q2, t.q3⟩) l0 l1
    obtain ⟨hF0, hF1⟩ := map_mixDecode_fronts (yo1.trans yo0.symm) (yh0.trans yo0.symm) (yh1.trans yo0.symm)
    exact ⟨congrArg₂ (· ++ ·) hF0 hL, congrArg₂ (· ++ ·) hF1 hR⟩

theorem map_san_of_isFinite {xs : List F64} (h : ∀ x ∈ xs, F64.isFinite x = true) : xs.map san = xs := by
  have hsan : ∀ x ∈ xs, san x = id x := fun x hx => if_pos (h x hx)
  rw [List.map_congr_left hsan, List.map_id]

/-! ### One front stream through both (R148, R170) -/

theorem SameUpToZeroSign.isFinite {x y : F64} (h : SameUpToZeroSign x y) (hy : F64.isFinite y = true) : F64.isFinite x = true := by
  obtain rfl | ⟨hx, -⟩ := h
  · exact hy
  · exact F64.isFinite_of_isZero hx

/-- `ys` is as long as `xs` and is `xs` delayed by `d` samples, up to the sign of zero, behind `d` zeros (R148, R170). -/
def DelayedBy (d : Nat) (xs ys : List F64) : Prop :=
  ys.length = xs.length ∧ ∀ i, i < xs.length →
    (i < d → F64.isZero (ys.getD i unity) = true) ∧ (d ≤ i → SameUpToZeroSign (ys.getD i unity) (xs.getD (i - d) unity))

theorem DelayedBy.trans {d e : Nat} {xs ys zs : List F64} (hxy : DelayedBy d xs ys) (hyz : DelayedBy e ys zs) :
    DelayedBy (d + e) xs zs := by
  obtain ⟨hlen, hxy⟩ := hxy
  obtain ⟨hlen', hyz⟩ := hyz
  refine ⟨hlen'.trans hlen, fun i hi => ?_⟩
  obtain ⟨hzero, hsame⟩ := hyz i (by omega)
  obtain hie | hie := Nat.lt_or_ge i e
  · exact ⟨fun _ => hzero hie, by omega⟩
  · obtain ⟨hzero', hsame'⟩ := hxy (i - e) (by omega)
    refine ⟨fun h => (hsame hie).isZero (hzero' (by omega)), fun h => (hsame hie).trans ?_⟩
    rw [Nat.add_comm d e, ← Nat.sub_sub]
    exact hsame' (by omega)

theorem DelayedBy.isFinite {d : Nat} {xs ys : List F64} (h : DelayedBy d xs ys) (hx : ∀ x ∈ xs, F64.isFinite x = true) :
    ∀ y ∈ ys, F64.isFinite y = true := by
  obtain ⟨hlen, h⟩ := h
  intro y hy
  obtain ⟨i, hi, rfl⟩ := List.getElem_of_mem hy
  obtain ⟨hzero, hsame⟩ := h i (by omega)
  rw [List.getD_eq_getElem _ _ hi] at hzero hsame
  obtain hid | hid := Nat.lt_or_ge i d
  · exact F64.isFinite_of_isZero (hzero hid)
  · have hx' := hx _ (List.getElem_mem (n := i - d) (by omega))
    rw [← List.getD_eq_getElem _ unity] at hx'
    exact (hsame hid).isFinite hx'

theorem delayedBy_zero_of_passes {xs ys : List F64} (h : List.Forall₂ Passes xs ys) (hx : ∀ x ∈ xs, F64.isFinite x = true) :
    DelayedBy 0 xs ys := by
  refine ⟨h.length_eq.symm, fun i hi => ⟨fun h0 => absurd h0 (Nat.not_lt_zero i), fun _ => ?_⟩⟩
  have hiy : i < ys.length := h.length_eq ▸ hi
  rw [Nat.sub_zero, List.getD_eq_getElem _ _ hi, List.getD_eq_getElem _ _ hiy]
  exact (h.get hi hiy (hx _ (List.getElem_mem hi))).2

/-- The delay of a lane's original path (R148). -/
theorem delayedBy_laneStream {c : Latched} (hc : c.Wf) {us : List (List F64)}
    (hus : ∀ u ∈ us, u.length = c.h ∧ ∀ x ∈ u, F64.isFinite x = true) {f : Lane → List F64 → LaneStep}
    (hf : f ∈ [laneDelay c, laneHilbert c]) : DelayedBy c.delta us.flatten (laneStream f (coldLane c.o) us) := by
  obtain ⟨hlen, hdelay⟩ := originalPathIsADelayOfDelta c us hc hus f hf
  refine ⟨hlen, fun i hi => ?_⟩
  obtain ⟨hzero, hsame⟩ := hdelay i (hlen ▸ hi)
  exact ⟨fun h => by rw [hzero h]; rfl, hsame⟩

/-- A delayed stream that passes in hops to the original path of another core of the same sizes is delayed once more. -/
theorem delayedBy_passed_laneStream {ce cd : Latched} (hce : ce.Wf) (hcd : cd.Wf) (hh : cd.h = ce.h) (hdelta : cd.delta = ce.delta)
    {us vs : List (List F64)} (hus : ∀ u ∈ us, u.length = ce.h ∧ ∀ x ∈ u, F64.isFinite x = true)
    (hvs : ∀ v ∈ vs, v.length = ce.h)
    (hpass : List.Forall₂ Passes (laneStream (laneDelay ce) (coldLane ce.o) us) vs.flatten) :
    DelayedBy (2 * ce.delta) us.flatten (laneStream (laneHilbert cd) (coldLane cd.o) (vs.map (fun v => v.map san))) := by
  have hfirst := delayedBy_laneStream hce hus List.mem_cons_self
  have hufin : ∀ x ∈ us.flatten, F64.isFinite x = true := List.forall_mem_flatten.2 fun u hu => (hus u hu).2
  have hpassed := hfirst.trans (delayedBy_zero_of_passes hpass (hfirst.isFinite hufin))
  have hvfin := List.forall_mem_flatten.1 (hpassed.isFinite hufin)
  have hsan : ∀ v ∈ vs, v.map san = id v := fun v hv => map_san_of_isFinite (hvfin v hv)
  have hsecond := delayedBy_laneStream hcd (fun v hv => ⟨(hvs v hv).trans hh.symm, hvfin v hv⟩)
    (List.mem_cons_of_mem _ List.mem_cons_self)
  rw [List.map_congr_left hsan, List.map_id, two_mul, ← hdelta]
  rw [← hdelta] at hpassed
  exact hpassed.trans hsecond

theorem length_flatten_of_hops {n : Nat} {us : List (List F64)} (h : ∀ u ∈ us, u.length = n) :
    us.flatten.length = us.length * n := by
  rw [List.length_flatten, List.sum_eq_card_nsmul _ n (List.forall_mem_map.2 h), List.length_map, smul_eq_mul]

/-- Settles O57: LT and RT are the delayed fronts, and the decoder's fronts are those delayed once more. -/
theorem frontRoundTripIsADelayOfTwoDelta : Obligations.FrontRoundTripIsADelayOfTwoDelta := by
  intro ce cd us hce hcd _ _ hn ho hus rears dec lf rf
  have ⟨_, _, hhe, hde, _⟩ := hce
  have ⟨_, _, hhd, hdd, _⟩ := hcd
  have hh : cd.h = ce.h := by rw [hhd, hhe, hn, ho]
  have hdelta : cd.delta = ce.delta := by rw [hdd, hde, ho]
  obtain ⟨hhops, hL, hR⟩ := encodeStream_silentRears hce (fun u hu => ⟨(hus u hu).1.1, (hus u hu).2.1⟩)
    (t := Quad.all (coldLane ce.o)) (Quad.each_all (coldLane_sized _)) (coldLane_silent _) (coldLane_silent _)
  obtain ⟨hlf, hrf⟩ := decodeStream_fronts hcd (fun v hv => hh ▸ hhops v hv) (t := Quad.all (coldLane cd.o))
    (coldLane_sized _) (coldLane_sized _)
  have hleft : DelayedBy (2 * ce.delta) (us.map Prod.fst).flatten lf := by
    rw [show lf = _ from hlf]
    exact delayedBy_passed_laneStream hce hcd hh hdelta (List.forall_mem_map.2 fun u hu => (hus u hu).1)
      (List.forall_mem_map.2 fun v hv => (hhops v hv).1) hL
  have hright : DelayedBy (2 * ce.delta) (us.map Prod.snd).flatten rf := by
    rw [show rf = _ from hrf]
    exact delayedBy_passed_laneStream hce hcd hh hdelta (List.forall_mem_map.2 fun u hu => (hus u hu).2)
      (List.forall_mem_map.2 fun v hv => (hhops v hv).2) hR
  have hlenL : (us.map Prod.fst).flatten.length = us.length * ce.h := by
    rw [length_flatten_of_hops (List.forall_mem_map.2 fun u hu => (hus u hu).1.1), List.length_map]
  have hlenR : (us.map Prod.snd).flatten.length = us.length * ce.h := by
    rw [length_flatten_of_hops (List.forall_mem_map.2 fun u hu => (hus u hu).2.1), List.length_map]
  refine ⟨hleft.1.trans hlenL, hright.1.trans hlenR, fun t ht => ?_⟩
  obtain ⟨hzeroL, hsameL⟩ := hleft.2 t (hlenL ▸ ht)
  obtain ⟨hzeroR, hsameR⟩ := hright.2 t (hlenR ▸ ht)
  exact ⟨fun h => ⟨hzeroL h, hzeroR h⟩, fun h => ⟨hsameL h, hsameR h⟩⟩

end Sys2Proof.Machine
end

section
/-! SUPPORT. Non-negative values in binary64 arithmetic, and integers that are exact (00_scope.md R10, R11). -/

namespace Sys2Proof.F64

open Sys2Proof.Machine Sys2Proof.Stated

/-! ### Exact integers -/

/-- A positive integer below `2^53`, shifted up to a significand of 53 bits, is the value of some finite magnitude. -/
theorem exists_unitsOfMag_eq_integer {k : ℕ} (hpos : 0 < k) (hk : k < 2 ^ 53) :
    ∃ m < infMag, unitsOfMag m = k <<< 1074 := by
  have hlog : Nat.log2 k ≤ 52 := Nat.le_of_lt_succ ((Nat.log2_lt hpos.ne').2 hk)
  obtain ⟨i, hi⟩ := Nat.exists_eq_add_of_le hlog
  have hlow : 2 ^ 52 ≤ k * 2 ^ i := by
    rw [hi, pow_add]
    exact Nat.mul_le_mul_right _ (Nat.log2_self_le hpos.ne')
  have hhigh : k * 2 ^ i < 2 ^ 53 := by
    rw [show 53 = (Nat.log2 k + 1) + i by omega, pow_add]
    exact Nat.mul_lt_mul_of_pos_right Nat.lt_log2_self (by positivity)
  refine ⟨(1074 - i) * 2 ^ 52 + k * 2 ^ i, by rw [infMag]; omega, ?_⟩
  rw [unitsOfMag_place (.inr hlow) hhigh.le, Nat.mul_assoc, ← pow_add, Nat.add_sub_cancel' (by omega), Nat.shiftLeft_eq]

theorem ofNat_spec {k : ℕ} (hk : k < 2 ^ 53) : isFinite (ofNat k) = true ∧ magUnits (ofNat k) = k <<< 1074 := by
  obtain ⟨m, hm, hunits⟩ : ∃ m < infMag, unitsOfMag m = k <<< 1074 := by
    rcases Nat.eq_zero_or_pos k with rfl | hpos
    · exact ⟨0, by decide, by rw [unitsOfMag_zero, Nat.zero_shiftLeft]⟩
    · exact exists_unitsOfMag_eq_integer hpos hk
  have hmag : mag (ofNat k) = m := by
    rw [ofNat, ← hunits, round, roundMag_unitsOfMag hm.le, mag_pack false (hm.trans (by decide))]
  exact ⟨by rwa [isFinite, hmag, decide_eq_true_eq], by rw [magUnits_eq, hmag, hunits]⟩

theorem cast_shiftLeft_div (n e : ℕ) : ((n <<< e : ℕ) : ℤ) / (2 ^ e : ℚ) = n := by
  rw [Nat.shiftLeft_eq, Int.cast_natCast, Nat.cast_mul, Nat.cast_pow, Nat.cast_ofNat, mul_div_cancel_right₀ _ (by positivity)]

theorem exactValue_ofNat {k : ℕ} (hk : k < 2 ^ 53) : exactValue (ofNat k) = k := by
  have hsign : isNeg (ofNat k) = false := isNeg_round ..
  rw [exactValue, units, hsign, if_neg Bool.false_ne_true, (ofNat_spec hk).2]
  exact cast_shiftLeft_div k 1074

theorem isZero_ofNat {k : ℕ} (hk : 1 ≤ k) : isZero (ofNat k) = false :=
  isZero_round_of_le false one_pos (hk.trans Nat.le_shiftLeft)

/-! ### Non-negative values -/

/-- A value of sign bit 0 that is not a NaN: `+0`, a positive finite value or `+∞`. -/
def IsNonneg (x : F64) : Prop := isNaN x = false ∧ isNeg x = false

theorem isNonneg_round (num den : ℕ) : IsNonneg (round false num den) := ⟨isNaN_round .., isNeg_round ..⟩

theorem isNonneg_posZero : IsNonneg posZero := ⟨rfl, rfl⟩

theorem isNonneg_infinity : IsNonneg (infinity false) := ⟨rfl, rfl⟩

theorem IsNonneg.isFinite_or_eq_infinity {x : F64} (h : IsNonneg x) : isFinite x = true ∨ x = infinity false := by
  obtain ⟨hnan, hsign⟩ := h
  have hle := mag_le_infMag hnan
  rcases hle.lt_or_eq with hlt | heq
  · exact .inl (decide_eq_true hlt)
  · exact .inr ((eq_infinity_iff x false).2 ⟨beq_iff_eq.2 heq, hsign⟩)

theorem IsNonneg.units_nonneg {x : F64} (h : IsNonneg x) : 0 ≤ units x := by
  rw [units, h.2]
  exact Int.natCast_nonneg _

theorem IsNonneg.ne_infinity_true {x : F64} (h : IsNonneg x) : x ≠ infinity true := by
  rintro rfl
  exact Bool.noConfusion h.2

theorem IsNonneg.add {x y : F64} (hx : IsNonneg x) (hy : IsNonneg y) : IsNonneg (add x y) := by
  rcases hx.isFinite_or_eq_infinity with hxf | rfl
  · rcases hy.isFinite_or_eq_infinity with hyf | rfl
    · rw [add_of_isFinite hxf hyf]
      by_cases hsum : units x + units y = 0
      · rw [addFinite_of_zero hsum, hx.2, Bool.false_and, if_neg Bool.false_ne_true]
        exact isNonneg_posZero
      · have hpos : ¬units x + units y < 0 := not_lt.2 (Int.add_nonneg hx.units_nonneg hy.units_nonneg)
        rw [addFinite_of_ne_zero hsum, decide_eq_false hpos]
        exact isNonneg_round ..
    · rw [add_infinity_right (n := false) hx.1 hx.ne_infinity_true]
      exact isNonneg_infinity
  · rw [add_infinity_left (n := false) hy.1 hy.ne_infinity_true]
    exact isNonneg_infinity

theorem isNonneg_mul_self {x : F64} (hx : isFinite x = true) : IsNonneg (mul x x) := by
  rw [mul_of_isFinite hx hx, bne_self_eq_false]
  exact isNonneg_round ..

theorem IsNonneg.div {x y : F64} (hx : IsNonneg x) (hy : IsNonneg y) (hyf : isFinite y = true) (hy0 : isZero y = false) :
    IsNonneg (div x y) := by
  rcases hx.isFinite_or_eq_infinity with hxf | rfl
  · rw [div_of_isFinite hxf hyf hy0, hx.2, hy.2]
    exact isNonneg_round ..
  · rw [div_infinity_left false hyf, hy.2]
    exact isNonneg_infinity

theorem IsNonneg.sqrt {x : F64} (h : IsNonneg x) : IsNonneg (sqrt x) := by
  rw [F64.sqrt, h.1, h.2, if_neg Bool.false_ne_true, if_neg Bool.false_ne_true]
  split
  · exact h
  · split
    · exact h
    · exact isNonneg_round ..

theorem IsNonneg.posZero_le {x : F64} (h : IsNonneg x) : le posZero x = true := by
  rw [le_iff_key (by decide) h.1, show key posZero = 0 from rfl, key, h.2]
  exact Int.natCast_nonneg _

end Sys2Proof.F64
end

section
/-! SUPPORT. The steering of one sample (43_steering.md R181 to R187): the loop of the dominant channel, the moved window and its
sum of squares. -/

namespace Sys2Proof.Machine

open Sys2Proof Sys2Proof.Stated

/-! ### The dominant channel (R183) -/

/-- The channel that R183's loop holds after it has compared the one it held, `dom`, with `ch`. -/
def louder (r : Quad F64) (dom ch : Nat) : Nat := if F64.lt (r.get dom) (r.get ch) = true then ch else dom

theorem dominant_eq_louder (r : Quad F64) : dominant r = louder r (louder r (louder r 0 1) 2) 3 := by
  change [1, 2, 3].foldl (louder r) 0 = _
  rw [List.foldl_cons, List.foldl_cons, List.foldl_cons, List.foldl_nil]

/-- Of the channels below `n`, `dom` is the loudest, and the lowest of equally loud ones. -/
def Leads (r : Quad F64) (n dom : Nat) : Prop :=
  dom < n ∧ (∀ ch, ch < n → F64.key (r.get ch) ≤ F64.key (r.get dom)) ∧
    ∀ ch, ch < dom → F64.key (r.get ch) < F64.key (r.get dom)

theorem leads_one (r : Quad F64) : Leads r 1 0 :=
  ⟨by decide, fun ch hch => by rw [Nat.lt_one_iff.1 hch], fun _ h => absurd h (Nat.not_lt_zero _)⟩

/-- Without NaNs a comparison of the loop takes in one more channel. -/
theorem Leads.compare_next {r : Quad F64} (hr : r.Each (fun x => F64.isNaN x = false)) {n dom : Nat} (h : Leads r n dom) :
    Leads r (n + 1) (louder r dom n) := by
  obtain ⟨hlt, hloudest, hlowest⟩ := h
  rw [louder]
  split
  next hmore =>
    rw [F64.lt_iff_key (hr.get dom) (hr.get n)] at hmore
    have hbelow : ∀ ch, ch < n → F64.key (r.get ch) < F64.key (r.get n) := fun ch hch => (hloudest ch hch).trans_lt hmore
    refine ⟨n.lt_succ_self, fun ch hch => ?_, hbelow⟩
    rcases Nat.lt_succ_iff_lt_or_eq.1 hch with hch | rfl
    · exact (hbelow ch hch).le
    · exact le_rfl
  next hnot =>
    rw [F64.lt_iff_key (hr.get dom) (hr.get n)] at hnot
    refine ⟨hlt.trans n.lt_succ_self, fun ch hch => ?_, hlowest⟩
    rcases Nat.lt_succ_iff_lt_or_eq.1 hch with hch | rfl
    · exact hloudest ch hch
    · exact not_lt.1 hnot

theorem leads_dominant {r : Quad F64} (hr : r.Each (fun x => F64.isNaN x = false)) : Leads r 4 (dominant r) :=
  dominant_eq_louder r ▸ (((leads_one r).compare_next hr).compare_next hr).compare_next hr

/-- Settles O54: the three comparisons are the loop unrolled, and each of them keeps the loudest and lowest channel so far. -/
theorem dominantChannelIsLoudestAndLowest : Obligations.DominantChannelIsLoudestAndLowest := by
  refine ⟨dominant_eq_louder, fun r hr => ?_⟩
  obtain ⟨hlt, hloudest, hlowest⟩ := leads_dominant hr
  refine ⟨hlt, fun ch hch => ?_, fun ch hch => (F64.lt_iff_key (hr.get ch) (hr.get _)).2 (hlowest ch hch)⟩
  rw [← Bool.not_eq_true, F64.lt_iff_key (hr.get _) (hr.get ch)]
  exact not_lt.2 (hloudest ch hch)

/-! ### The window (R181) -/

section
variable {k : Nat} {h : List F64} (d : F64) (hlen : k ≤ h.length)
include hlen

theorem pushHist_getElem?_of_lt {j : Nat} (hj : j + 1 < k) : (pushHist k h d)[j]? = h[j + 1]? := by
  have hin : j < ((h.take k).drop 1).length := by
    rw [List.length_drop, List.length_take, Nat.min_eq_left hlen]
    exact Nat.lt_sub_of_add_lt hj
  rw [pushHist, List.getElem?_append_left hin, List.getElem?_drop, Nat.add_comm 1 j, List.getElem?_take_of_lt hj]

/-- At and after the newest entry the window is the pushed sample and what lay beyond the window. -/
theorem pushHist_getElem?_add (i : Nat) : (pushHist k h d)[k - 1 + i]? = (d :: h.drop k)[i]? := by
  have hfront : ((h.take k).drop 1).length = k - 1 := by rw [List.length_drop, List.length_take, Nat.min_eq_left hlen]
  rw [pushHist, List.getElem?_append_right (by omega), hfront, Nat.add_sub_cancel_left]

theorem pushHist_getElem?_last : (pushHist k h d)[k - 1]? = some d :=
  pushHist_getElem?_add d hlen 0

theorem pushHist_getElem?_of_le (hpos : 1 ≤ k) {j : Nat} (hj : k ≤ j) : (pushHist k h d)[j]? = h[j]? := by
  obtain ⟨i, rfl⟩ := Nat.exists_eq_add_of_le hj
  rw [show k + i = k - 1 + (i + 1) by omega, pushHist_getElem?_add d hlen, List.getElem?_cons_succ, List.getElem?_drop,
    show k - 1 + (i + 1) = k + i by omega]

end

/-! ### The RMS (R182) -/

theorem sumSquares_eq_squares {k : Nat} {h : List F64} (hk : k ≤ h.length) : sumSquares k h = squares h k := by
  induction k with
  | zero => rfl
  | succ k ih =>
    have hlast : h[k]? = some (h.getD k unity) := by
      rw [List.getD_eq_getElem h unity hk, List.getElem?_eq_getElem hk]
    rw [squares, ← ih (Nat.le_of_succ_le hk), sumSquares, sumSquares, List.take_add_one, hlast, List.foldl_append]
    rfl

theorem isNonneg_squares {h : List F64} {k : Nat} (hfin : ∀ j, j < k → F64.isFinite (h.getD j unity) = true) :
    F64.IsNonneg (squares h k) := by
  induction k with
  | zero => exact F64.isNonneg_posZero
  | succ k ih => exact (ih fun j hj => hfin j (Nat.lt_succ_of_lt hj)).add (F64.isNonneg_mul_self (hfin k k.lt_succ_self))

/-- The RMS of finite samples is not negative, also where the sum of squares overflows. -/
theorem isNonneg_rms {k : Nat} {h : List F64} (hpos : 1 ≤ k) (hmax : k < 2 ^ 53) (hlen : k ≤ h.length)
    (hfin : ∀ j, j < k → F64.isFinite (h.getD j unity) = true) : F64.IsNonneg (rms k h) := by
  rw [rms, sumSquares_eq_squares hlen]
  exact ((isNonneg_squares hfin).div (F64.isNonneg_round ..) (F64.ofNat_spec hmax).1 (F64.isZero_ofNat hpos)).sqrt

/-! ### One sample (R184 to R187) -/

theorem Quad.get_ofFn {α : Type} (f : Nat → α) : ∀ {ch : Nat}, ch < 4 → (Quad.ofFn f).get ch = f ch
  | 0, _ => rfl
  | 1, _ => rfl
  | 2, _ => rfl
  | 3, _ => rfl

theorem Quad.ofFn_congr {α : Type} {f g : Nat → α} (h : ∀ ch, ch < 4 → f ch = g ch) : Quad.ofFn f = Quad.ofFn g := by
  rw [Quad.ofFn, h 0 (by decide), h 1 (by decide), h 2 (by decide), h 3 (by decide), Quad.ofFn]

theorem steer_hist_get (p : SteerParams) (st : SteerState) (d : Quad F64) {ch : Nat} (hch : ch < 4) :
    (steer p st d).1.hist.get ch = pushHist p.k (st.hist.get ch) (d.get ch) :=
  Quad.get_ofFn (fun ch => pushHist p.k (st.hist.get ch) (d.get ch)) hch

theorem steer_output_get (p : SteerParams) (st : SteerState) (d : Quad F64) {ch : Nat} (hch : ch < 4) :
    (steer p st d).2.get ch = F64.mul ((steer p st d).1.gain.get ch) (d.get ch) :=
  Quad.get_ofFn (fun ch => F64.mul ((steer p st d).1.gain.get ch) (d.get ch)) hch

/-- Settles O55: the window by the entries of a push, the RMS by its sum as a recursion, the gain and the output by the steps of
`steer`. -/
theorem steeringUpdatesEachChannel : Obligations.SteeringUpdatesEachChannel := by
  refine ⟨fun k hk => ?_, ?_⟩
  · have hsmall : k < 2 ^ 53 := hk.trans_lt (by decide)
    exact ⟨(F64.ofNat_spec hsmall).1, F64.exactValue_ofNat hsmall⟩
  intro p st d ch hch hpos hlen z q r dom tgt g
  have hpush : q.1.hist.get ch = pushHist p.k (st.hist.get ch) (d.get ch) := steer_hist_get p st d hch
  have hqlen (j : Nat) (hj : j < 4) : p.k ≤ (q.1.hist.get j).length := by
    rw [show q.1.hist.get j = _ from steer_hist_get p st d hj, pushHist_length _ _ _ hpos (hlen j hj)]
    exact hlen j hj
  have hr : r = Quad.ofFn (fun j => rms p.k (q.1.hist.get j)) :=
    Quad.ofFn_congr fun j hj => by rw [rms, sumSquares_eq_squares (hqlen j hj)]
  have hgain : q.1.gain.get ch = smooth p (target p r dom ch) g := by
    rw [show q.1.gain = _ from steer_gain p st d, ← hr]
    exact Quad.get_ofFn _ hch
  refine ⟨?_, fun j hj => ?_, ?_, fun j hj => ?_, fun hmax hfin => ?_, hgain, steer_output_get p st d hch⟩
  · rw [hpush, pushHist_length _ _ _ hpos (hlen ch hch)]
  · rw [hpush, pushHist_getElem?_of_lt _ (hlen ch hch) hj]
  · rw [hpush, pushHist_getElem?_last _ (hlen ch hch)]
  · rw [hpush, pushHist_getElem?_of_le _ (hlen ch hch) hpos hj]
  · rw [hr, Quad.get_ofFn _ hch]
    exact (isNonneg_rms hpos (hmax.trans_lt (by decide)) (hqlen ch hch) hfin).posZero_le

end Sys2Proof.Machine
end

section
/-! SUPPORT. The control commands (44_control.md): CONFIGURE's checks in the terms of the statements and what a validation means
for the command, then NOP, CLEAR and SOFT_RESET. -/

namespace Sys2Proof.Machine

open Sys2Proof Sys2Proof.Stated

/-! ### Completions (R244) -/

theorem raiseError_eq_failed (op : BitVec 8) (e : CmdError) (s : State) : raiseError op e s = failed op e.code e.detail s := by
  simp only [raiseError, complete, failed, e.code_ne_zero, if_false]

theorem succeed_eq_done (op : BitVec 8) (s : State) : succeed op s = done op s := rfl

theorem coldStart_eq_cold (o : Nat) (s : State) : coldStart o s = cold o s := rfl

/-! ### CONFIGURE's checks (R202) -/

theorem notPowerOfTwo_iff (n : Nat) : (n = 0 ∨ n &&& (n - 1) ≠ 0) ↔ ¬∃ l, n = 2 ^ l := by
  refine ⟨?_, fun h => ?_⟩
  · rintro h ⟨l, rfl⟩
    exact h.elim (Nat.two_pow_pos l).ne' fun hand => hand (two_pow_and_sub_one l)
  · by_contra hnot
    obtain ⟨hzero, hand⟩ := not_or.1 hnot
    exact h ⟨_, eq_two_pow_log2 n hzero (not_not.1 hand)⟩

theorem not_windowAccepted_iff (s : State) :
    (s.rmsWindow.toNat < 1 ∨ Config.kMax < s.rmsWindow.toNat) ↔ ¬windowAccepted s := by
  simp only [windowAccepted, Config.kMax]
  omega

/-- A negated check of comparisons fails exactly when their conjunction, as a proposition, does. -/
theorem not_eq_true_iff_of {b : Bool} {p : Prop} (h : b = true ↔ p) : (!b) = true ↔ ¬p := by
  rw [← h, Bool.not_eq_true', Bool.not_eq_true]

theorem gminCheck_iff (s : State) :
    (F64.isFinite s.gmin && F64.le F64.posZero s.gmin && F64.le s.gmin F64.one) = true ↔ gminAccepted s := by
  rw [Bool.and_eq_true, Bool.and_eq_true, and_assoc]
  rfl

theorem gboostCheck_iff (s : State) : (F64.le F64.one s.gboost && F64.le s.gboost gboostMax) = true ↔ gboostAccepted s :=
  Bool.and_eq_true_iff

theorem alphaOk_iff (a : F64) : alphaOk a = true ↔ alphaAccepted a := Bool.and_eq_true_iff

open Classical in
/-- CONFIGURE's checks of the steering registers, in the terms of the statements. -/
theorem validateSteer_eq (s : State) : validateSteer s =
    if ¬windowAccepted s then .error .rmsWindowOutOfRange
    else if ¬gminAccepted s then .error .gminOutOfRange
    else if ¬gboostAccepted s then .error .gboostOutOfRange
    else if ¬alphaAccepted s.alphaAtt then .error .alphaAttOutOfRange
    else if ¬alphaAccepted s.alphaRel then .error .alphaRelOutOfRange
    else .ok ⟨s.rmsWindow.toNat, s.gmin, s.gboost, s.alphaAtt, s.alphaRel⟩ := by
  unfold validateSteer
  exact if_congr (not_windowAccepted_iff s) rfl <| if_congr (not_eq_true_iff_of (gminCheck_iff s)) rfl <|
    if_congr (not_eq_true_iff_of (gboostCheck_iff s)) rfl <| if_congr (not_eq_true_iff_of (alphaOk_iff _)) rfl <|
    if_congr (not_eq_true_iff_of (alphaOk_iff _)) rfl rfl

/-- What CONFIGURE latches once the block size and the overlap have passed: only a requested steering is checked further. -/
def validateMode (s : State) : Except CmdError Latched :=
  if s.mode = 1#2 then .ok (latch .encode s.blockSize.toNat s.overlap.toNat none)
  else if s.logicEn = 0#1 then .ok (latch .decode s.blockSize.toNat s.overlap.toNat none)
  else (validateSteer s).map fun p => latch .decode s.blockSize.toNat s.overlap.toNat (some p)

open Classical in
/-- CONFIGURE's checks in order, in the terms of the statements. -/
theorem validate_eq (s : State) : validate s =
    if s.mode = 2#2 ∨ s.mode = 3#2 then .error .modeReserved
    else if ¬∃ l, s.blockSize.toNat = 2 ^ l then .error .blockSizeNotPowerOfTwo
    else if s.blockSize.toNat < 64 then .error .blockSizeTooSmall
    else if 65536 < s.blockSize.toNat then .error .blockSizeTooLarge
    else if ¬(0 < s.overlap.toNat ∧ s.overlap.toNat < s.blockSize.toNat) then .error .overlapOutOfRange
    else validateMode s := by
  unfold validate
  refine if_congr Iff.rfl rfl <| if_congr (notPowerOfTwo_iff _) rfl <| if_congr Iff.rfl rfl <| if_congr Iff.rfl rfl <|
    if_congr Iff.rfl rfl ?_
  unfold validateMode
  cases validateSteer s <;> rfl

theorem mode_legal_iff (m : BitVec 2) : ¬(m = 2#2 ∨ m = 3#2) ↔ m = 0#2 ∨ m = 1#2 := by
  revert m
  decide

/-- The powers of two from `2^6` to `2^16` lie between the bounds of the block size. -/
theorem blockSize_bounds {n : Nat} (h : ∃ l, 6 ≤ l ∧ l ≤ 16 ∧ n = 2 ^ l) : (∃ l, n = 2 ^ l) ∧ ¬n < 64 ∧ ¬65536 < n := by
  obtain ⟨l, hlo, hhi, rfl⟩ := h
  exact ⟨⟨l, rfl⟩, not_lt.2 (Nat.pow_le_pow_right (n := 2) (by decide) hlo),
    not_lt.2 (Nat.pow_le_pow_right (n := 2) (by decide) hhi)⟩

theorem validate_of_sizesAccepted {s : State} (hsizes : sizesAccepted s) (hmode : s.mode = 0#2 ∨ s.mode = 1#2) :
    validate s = validateMode s := by
  obtain ⟨hn, ho⟩ := hsizes
  obtain ⟨hpow, hlo, hhi⟩ := blockSize_bounds hn
  rw [validate_eq, if_neg ((mode_legal_iff _).2 hmode), if_neg (not_not.2 hpow), if_neg hlo, if_neg hhi, if_neg (not_not.2 ho)]

theorem validate_of_steeringRequested {s : State} (hsizes : sizesAccepted s) (hsteer : steeringRequested s) :
    validate s = (validateSteer s).map fun p => latch .decode s.blockSize.toNat s.overlap.toNat (some p) := by
  obtain ⟨hmode, hlogic⟩ := hsteer
  simp [validate_of_sizesAccepted hsizes (.inl hmode), validateMode, hmode, hlogic]

/-! ### CONFIGURE (R201, R203, R204) -/

theorem configureLatches_of_validate {s : State} {mode : Mode} {n o : Nat} {steer : Option SteerParams}
    (h : validate s = .ok (latch mode n o steer)) : configureLatches s mode n o steer := by
  simp only [configureLatches, exec, execConfigure, h, succeed_eq_done, coldStart_eq_cold]
  rfl

theorem code_of_validateSteer_error {s : State} {e : CmdError} (h : validateSteer s = .error e) : e.code = 1#4 := by
  rw [validateSteer_eq] at h
  split_ifs at h <;> cases h <;> rfl

theorem code_of_validateMode_error {s : State} {e : CmdError} (h : validateMode s = .error e) : e.code = 1#4 := by
  unfold validateMode at h
  split_ifs at h
  cases hsteer : validateSteer s with
  | ok p => rw [hsteer] at h; cases h
  | error e' =>
    rw [hsteer] at h
    cases h
    exact code_of_validateSteer_error hsteer

/-- All of CONFIGURE's checks report ERR 1 (R241). -/
theorem code_of_validate_error {s : State} {e : CmdError} (h : validate s = .error e) : e.code = 1#4 := by
  rw [validate_eq] at h
  iterate 5
    split at h
    · cases h
      rfl
  exact code_of_validateMode_error h

theorem configureFails_of_validate {s : State} {e : CmdError} (h : validate s = .error e) : configureFails s e.detail := by
  simp only [configureFails, exec, execConfigure, h, raiseError_eq_failed, code_of_validate_error h]
  rfl

theorem configureFails_of_validateSteer {s : State} {e : CmdError} (hsizes : sizesAccepted s) (hsteer : steeringRequested s)
    (h : validateSteer s = .error e) : configureFails s e.detail :=
  configureFails_of_validate (by rw [validate_of_steeringRequested hsizes hsteer, h]; rfl)

/-- Settles O28: the sizes pass, so the mode and LOGIC_EN decide what is latched. -/
theorem configureLatchesAcceptedRegisters : Obligations.ConfigureLatchesAcceptedRegisters := by
  refine fun s hsizes => ⟨fun hmode => ?_, fun hmode hlogic => ?_, fun hsteer hwindow hgmin hgboost hatt hrel => ?_⟩ <;>
    apply configureLatches_of_validate
  · rw [validate_of_sizesAccepted hsizes (.inr hmode), validateMode, if_pos hmode]
  · simp [validate_of_sizesAccepted hsizes (.inl hmode), validateMode, hmode, hlogic]
  · have hok : validateSteer s = .ok ⟨s.rmsWindow.toNat, s.gmin, s.gboost, s.alphaAtt, s.alphaRel⟩ := by
      simp [validateSteer_eq, hwindow, hgmin, hgboost, hatt, hrel]
    rw [validate_of_steeringRequested hsizes hsteer, hok]
    rfl

/-- Settles O29: the mode first, then the sizes, then the steering registers; each clause passes the checks before its own. -/
theorem configureFailsOnTheFirstFailingCheck : Obligations.ConfigureFailsOnTheFirstFailingCheck := by
  refine fun s => ⟨fun hmode => ?_, fun hmode => ?_, fun hsizes hsteer => ?_⟩
  · exact configureFails_of_validate (e := .modeReserved) (if_pos hmode)
  · have hlegal := (mode_legal_iff _).2 hmode
    refine ⟨fun hpow => ?_, fun hpow hsmall => ?_, fun hpow hlarge => ?_, fun hn hoverlap => ?_⟩
    · exact configureFails_of_validate (e := .blockSizeNotPowerOfTwo) (by rw [validate_eq, if_neg hlegal, if_pos hpow])
    · exact configureFails_of_validate (e := .blockSizeTooSmall) (by
        rw [validate_eq, if_neg hlegal, if_neg (not_not.2 hpow), if_pos hsmall])
    · exact configureFails_of_validate (e := .blockSizeTooLarge) (by
        rw [validate_eq, if_neg hlegal, if_neg (not_not.2 hpow), if_neg (by omega), if_pos hlarge])
    · obtain ⟨hpow, hlo, hhi⟩ := blockSize_bounds hn
      exact configureFails_of_validate (e := .overlapOutOfRange) (by
        rw [validate_eq, if_neg hlegal, if_neg (not_not.2 hpow), if_neg hlo, if_neg hhi, if_pos (by omega)])
  · have hfails {e : CmdError} (h : validateSteer s = .error e) := configureFails_of_validateSteer hsizes hsteer h
    refine ⟨fun hwindow => hfails (e := .rmsWindowOutOfRange) ?_, fun hwindow hgmin => hfails (e := .gminOutOfRange) ?_,
      fun hwindow hgmin hgboost => hfails (e := .gboostOutOfRange) ?_,
      fun hwindow hgmin hgboost hatt => hfails (e := .alphaAttOutOfRange) ?_,
      fun hwindow hgmin hgboost hatt hrel => hfails (e := .alphaRelOutOfRange) ?_⟩ <;>
      simp [validateSteer_eq, *]

/-! ### NOP and CLEAR (R200, R205) -/

/-- A word means a command exactly when it is the word of that command, which is well-formed. -/
theorem decode_eq_ok_iff (w : Word) (i : Instr) : decode w = .ok i ↔ i.wf = true ∧ w = encode i := by
  refine ⟨fun h => ?_, ?_⟩
  · obtain ⟨hword, hwf⟩ := encodeOfDecodeIsTheWord w i h
    exact ⟨hwf, hword.symm⟩
  · rintro ⟨hwf, rfl⟩
    exact decode_encode hwf

/-- Settles O27: NOP's word is 0, and its outcome is a completion. -/
theorem nopOnlyCompletes : Obligations.NopOnlyCompletes :=
  ⟨fun w => (decode_eq_ok_iff w .nop).trans (and_iff_right rfl), fun s => congrArg Host.Outcome.next (succeed_eq_done 0x00#8 s)⟩

/-- Settles O30: by the two outcomes of CLEAR. -/
theorem clearColdStarts : Obligations.ClearColdStarts := by
  refine ⟨fun w => (decode_eq_ok_iff w .clear).trans (and_iff_right rfl), fun s => ⟨fun c hc => ?_, fun hc => ?_⟩⟩
  · simp only [exec, execClear, hc, succeed_eq_done, coldStart_eq_cold]
  · simp only [exec, execClear, hc, raiseError_eq_failed]
    rfl

/-! ### Commands that need a configuration (R207) -/

theorem exec_hop_of_unconfigured {s : State} (h : s.cfg = none) (nch : Nat) (cnt : Int) :
    exec (.hop nch cnt) s = .next (failed 0x03#8 5#4 0x51#8 s) := by
  simp only [exec, execHop, h, checkHop, raiseError_eq_failed]
  rfl

theorem Performs.err_ne_notConfigured {i : Instr} {s t : State} (h : Performs s i t)
    (hi : i ∈ [Instr.nop, .configure, .softReset]) : t.err ≠ 5#4 := by
  cases h with
  | nop | configured | softReset => exact (by decide : (0#4 : BitVec 4) ≠ 5#4)
  | configureFailed e h => rw [complete_err, code_of_validate_error h]; decide
  | _ => simp at hi

/-- Settles O31: CLEAR and the transforms by their own statements, and CONFIGURE's checks report another code. -/
theorem commandsThatNeedAConfiguration : Obligations.CommandsThatNeedAConfiguration := by
  refine fun s => ⟨fun hc => ⟨exec_hop_of_unconfigured hc, (clearColdStarts.2 s).2 hc, (fftFwdRewritesItsWindow s).2 hc,
    (fftInvRewritesItsWindow s).2 hc⟩, fun i hi => ?_⟩
  obtain ⟨t, ht, hp⟩ := exec_performs i s
  exact ⟨t, ht, hp.err_ne_notConfigured hi⟩

/-! ### SOFT_RESET (R206, R271) -/

/-- No register shows a byte of the buffers. -/
theorem readWindow_with_mem {a : Nat} (ha : a < 0x1000) (m : Memory) (s : State) :
    readWindow a { s with mem := m } = readWindow a s := by
  cases h : regAt a with
  | none => simp only [readWindow, targetAt, ha, h, if_true]
  | some r =>
    simp only [readWindow, targetAt, ha, h, if_true]
    cases r <;> rfl

/-- Settles O32: a SOFT_RESET is a power-on that keeps the buffers, which no register shows. -/
theorem softResetKeepsOnlyTheBuffers : Obligations.SoftResetKeepsOnlyTheBuffers := by
  refine fun s => ⟨softResetState s, rfl, rfl, rfl, fun p hp => ?_, powerOnState_irq s⟩
  obtain ⟨-, hlt, hread⟩ := resetTable_spec p hp
  have hsoft : softResetState s = { powerOnState s with mem := s.mem } := rfl
  rw [hsoft, readWindow_with_mem hlt, readWindow_powerOnState hlt, hread]

end Sys2Proof.Machine
end

section
/-! SUPPORT. The frame driver's steps on an idle core (45_frame.md R221 to R223): a command that runs to its end, values written
to `IN` one after the other, values read from `OUT`. -/

namespace Sys2Proof.Machine

open Sys2Proof Sys2Proof.Stated

/-! ### One command (R110) -/

/-- STATUS may be read at any time, and a read changes only the returned words (R77, R84). -/
theorem hostStep_rd32_status (s : State) :
    hostStep (rd32 offStatus) s = .next { s with returned := readWindow 0x00C s :: s.returned } := by
  rw [readWindow_register (r := .status) (by decide)]
  exact hostStep_read_register (r := .status) (by decide) (.inr rfl)

/-- A command runs to the outcome of its turn, and the read of STATUS that ends the wait changes only the returned words. -/
theorem runCommand_of_exec {i : Instr} (hi : i.wf = true) {s v : State} (hb : s.busy = false)
    (hexec : exec i { s with busy := true, pending := encode i } = .next v) :
    runCommand i s = .next { v with returned := readWindow 0x00C v :: v.returned } := by
  have hcmd : hostStep (wr32 offCmd (encode i)) s = .next { s with busy := true, pending := encode i } :=
    ((cmdWriteStartsOrOverruns s (encode i)).1 hb).1
  have hturn : coreStep { s with busy := true, pending := encode i } = .next v :=
    (coreStep_of_decode rfl (decode_encode hi)).trans hexec
  simp only [runCommand, hcmd, andThen, hturn, hostStep_rd32_status]

/-! ### Accesses one after another -/

theorem hostSteps_append (as bs : List Access) (s : State) :
    hostSteps (as ++ bs) s = andThen (hostSteps as s) (hostSteps bs) := by
  induction as generalizing s with
  | nil => rfl
  | cons a as ih =>
    rw [List.cons_append, hostSteps, hostSteps]
    cases hostStep a s with
    | next t => exact ih t
    | fault e => rfl
    | refused e => rfl

/-- Accesses that complete, then others. -/
theorem hostSteps_append_of_next {as bs : List Access} {s t : State} (h : hostSteps as s = .next t) :
    hostSteps (as ++ bs) s = hostSteps bs t := by
  rw [hostSteps_append, h, andThen]

theorem hostSteps_cons_of_next {a : Access} {as : List Access} {s t : State} (h : hostStep a s = .next t) :
    hostSteps (a :: as) s = hostSteps as t := by
  rw [hostSteps, h, andThen]

/-! ### Values written to `IN` (R46, R72, R223) -/

theorem cellsFrom_append (bs cs : List Byte) (a : Nat) :
    cellsFrom a (bs ++ cs) = cellsFrom a bs ++ cellsFrom (a + bs.length) cs := by
  induction bs generalizing a with
  | nil => rfl
  | cons b bs ih =>
    rw [List.cons_append, cellsFrom, ih, cellsFrom, List.cons_append, List.length_cons, Nat.add_right_comm, Nat.add_assoc]

/-- A store behind another is one store of both. -/
theorem Memory.writeBytes_append (m : Memory) (a : Nat) (bs cs : List Byte) :
    m.writeBytes a (bs ++ cs) = (m.writeBytes a bs).writeBytes (a + bs.length) cs := by
  have hbelow : ∀ c ∈ m.cells.takeWhile (fun c => decide (c.1 < a)) ++ cellsFrom a bs,
      decide (c.1 < a + bs.length) = true := by
    intro c hc
    obtain hc | hc := List.mem_append.1 hc
    · exact decide_eq_true (Nat.lt_add_right _ (takeBelow_lt m.cells a c hc))
    · exact decide_eq_true (mem_cellsFrom bs a c hc).2
  have hbelow' : ∀ c ∈ m.cells.takeWhile (fun c => decide (c.1 < a)) ++ cellsFrom a bs,
      decide (c.1 < a + bs.length + cs.length) = true := fun c hc =>
    decide_eq_true (Nat.lt_add_right _ (of_decide_eq_true (hbelow c hc)))
  have habove : (m.cells.dropWhile (fun c => decide (c.1 < a + bs.length))).takeWhile
      (fun c => decide (c.1 < a + bs.length)) = [] :=
    List.takeWhile_eq_nil_iff.2 (List.dropWhile_get_zero_not _ _)
  simp only [Memory.writeBytes, cellsFrom_append, List.length_append, ← Nat.add_assoc]
  rw [List.takeWhile_append_of_pos hbelow, habove, List.dropWhile_append_of_pos hbelow', dropBelow_dropBelow _ (by omega),
    List.append_nil, List.append_assoc _ (cellsFrom a bs)]

theorem Memory.writeBytes_nil (m : Memory) (a : Nat) : m.writeBytes a [] = m := by
  simp [Memory.writeBytes, cellsFrom, List.takeWhile_append_dropWhile]

theorem hostSteps_wrf64 {s : State} (hb : s.busy = false) {a : Nat} (hmod : a % 4 = 0) (hlo : 0x100000 ≤ a)
    (hhi : a + 8 ≤ 0x300000) (x : F64) :
    hostSteps (wrf64 a x) s = .next { s with mem := s.mem.writeBytes a (bytesOfF64 x) } := by
  have hword {b : Nat} (hbmod : b % 4 = 0) (hblo : 0x100000 ≤ b) (hbhi : b < 0x300000) (v : Word) {t : State}
      (ht : t.busy = false) : hostStep (wr32 b v) t = .next { t with mem := t.mem.writeWord b v } :=
    (hostStep_write_buffer ht ⟨hbmod, .inl ⟨hblo, hbhi⟩⟩ v).1
  rw [wrf64, hostSteps_cons_of_next (hword hmod hlo (by omega) _ hb),
    hostSteps_cons_of_next (hword (by omega) (by omega) (by omega) _ (by exact hb)), hostSteps, bytesOfF64,
    Memory.writeBytes_append]
  rfl

/-- Values written one after the other are one store of their bytes. -/
theorem hostSteps_writesF64s (xs : List F64) {s : State} (hb : s.busy = false) {a : Nat} (hmod : a % 4 = 0)
    (hlo : 0x100000 ≤ a) (hhi : a + 8 * xs.length ≤ 0x300000) :
    hostSteps (writesF64s a xs) s = .next { s with mem := s.mem.writeF64s a xs } := by
  induction xs generalizing s a with
  | nil => rw [writesF64s, hostSteps, Memory.writeF64s, bytesOfF64s, Memory.writeBytes_nil]
  | cons x xs ih =>
    rw [List.length_cons] at hhi
    rw [writesF64s, hostSteps_append_of_next (hostSteps_wrf64 hb hmod hlo (by omega) x),
      ih (by exact hb) (by omega) (by omega) (by omega), Memory.writeF64s, Memory.writeF64s, bytesOfF64s,
      Memory.writeBytes_append]
    rfl

/-! ### Values read from the buffers (R47, R72, R223) -/

theorem hostRead_status (s : State) :
    hostRead offStatus s = .next (readWindow 0x00C s, { s with returned := readWindow 0x00C s :: s.returned }) := by
  rw [hostRead, hostStep_rd32_status, andThen, offStatus]

theorem hostRead_idle {s : State} (hb : s.busy = false) {a : Nat} (hmod : a % 4 = 0) (hwin : a < Config.windowSize) :
    hostRead a s = .next (readWindow a s, { s with returned := readWindow a s :: s.returned }) := by
  rw [hostRead, rd32, hostStep_read_idle hb hmod hwin, andThen]

theorem hostReadF64s_idle (n : Nat) {s : State} (hb : s.busy = false) {a : Nat} (hmod : a % 4 = 0) (hlo : 0x100000 ≤ a)
    (hhi : a + 8 * n ≤ 0x600000) :
    ∃ w, hostReadF64s n a s = .next (s.mem.readF64s a n, { s with returned := w }) := by
  induction n generalizing s a with
  | zero => exact ⟨s.returned, rfl⟩
  | succ n ih =>
    have hread {b : Nat} (hbmod : b % 4 = 0) (hblo : 0x100000 ≤ b) (hbhi : b < 0x600000) {t : State} (ht : t.busy = false) :
        hostRead b t = .next (t.mem.readWord b, { t with returned := t.mem.readWord b :: t.returned }) := by
      rw [hostRead_idle ht hbmod (hbhi.trans (by decide)), readWindow_buffer hblo hbhi]
    obtain ⟨w, hrest⟩ := ih (a := a + 8)
      (s := { s with returned := s.mem.readWord (a + 4) :: s.mem.readWord a :: s.returned }) hb (by omega) (by omega) (by omega)
    refine ⟨w, ?_⟩
    rw [hostReadF64s, hread hmod hlo (by omega) hb, andThen, hread (by omega) (by omega) (by omega) (by exact hb), andThen,
      hrest, andThen, Memory.readF64s_succ, Memory.readF64]

/-- The channels of a hop are read one after the other. -/
theorem hopReads_idle {c : Latched} (hh : c.h ≤ Config.nMax) (j : Nat) {ch : Nat} (hch : ch + j ≤ 4) {s : State}
    (hb : s.busy = false) :
    ∃ w, hopReads c j ch s =
      .next ((List.range' ch j).map (fun i => s.mem.readF64s (outAddr i 0) c.h), { s with returned := w }) := by
  simp only [Config.nMax] at hh
  induction j generalizing ch s with
  | zero => exact ⟨s.returned, rfl⟩
  | succ j ih =>
    obtain ⟨v, hread⟩ := hostReadF64s_idle c.h hb (a := outAddr ch 0) (by simp only [outAddr]; omega)
      (by simp only [outAddr]; omega) (by simp only [outAddr]; omega)
    obtain ⟨w, hrest⟩ := ih (ch := ch + 1) (by omega) (s := { s with returned := v }) hb
    refine ⟨w, ?_⟩
    rw [hopReads, hread, andThen, hrest, andThen, List.range'_succ, List.map_cons]

end Sys2Proof.Machine
end

section
/-! SUPPORT. Creating a codec, the frame checks and the empty frame (45_frame.md R221, R222, R227). -/

namespace Sys2Proof.Machine
open Sys2Proof Sys2Proof.Stated

/-! ### The fields of STATUS (R27) -/

theorem extractLsb'_status_err (s : State) : s.status.extractLsb' 8 4 = s.err := by
  refine BitVec.eq_of_toNat_eq ?_
  rw [BitVec.extractLsb'_toNat, Nat.shiftRight_eq_div_pow]
  simp only [State.status, toNat_append_eq_add, BitVec.toNat_zero]
  omega

theorem extractLsb'_status_detail (s : State) : s.status.extractLsb' 24 8 = s.detail := by
  refine BitVec.eq_of_toNat_eq ?_
  rw [BitVec.extractLsb'_toNat, Nat.shiftRight_eq_div_pow]
  simp only [State.status, toNat_append_eq_add, BitVec.toNat_zero]
  omega

/-! ### The registers of a codec (R45, R188, R221) -/

theorem setHalf_hi_setHalf_lo (x v : F64) :
    setHalf .hi (x.extractLsb' 32 32) (setHalf .lo (x.extractLsb' 0 32) v) = x := by
  refine BitVec.eq_of_toNat_eq ?_
  rw [toNat_setHalf_hi, toNat_setHalf_lo]
  simp
  omega

theorem Performs.keeps_returned {i : Instr} {s t : State} (h : Performs s i t) : t.returned = s.returned := by
  cases h with
  | hopped => rw [complete_returned, hopEffect_returned]
  | _ => rfl

theorem hostSteps_write_register {a : Nat} {r : Reg} (h : (a, r) ∈ regMap) {s : State} (hb : s.busy = false) (v : Word)
    (as : List Access) : hostSteps (wr32 a v :: as) s = hostSteps as (r.write v s) :=
  hostSteps_cons_of_next (hostStep_write_register h (.inl hb) v)

/-- The state with another value in the pair. -/
def RegPair.set (p : RegPair) (x : F64) (s : State) : State :=
  match p with
  | .gmin => { s with gmin := x }
  | .gboost => { s with gboost := x }
  | .alphaAtt => { s with alphaAtt := x }
  | .alphaRel => { s with alphaRel := x }

/-- Both halves of a pair, the low one first (R45, R110). -/
theorem hostSteps_wrf64_pair (p : RegPair) {s : State} (hb : s.busy = false) (x : F64) (as : List Access) :
    hostSteps (wrf64 p.addr x ++ as) s = hostSteps as (p.set x s) := by
  have hb' : ((p.reg .lo).write (x.extractLsb' 0 32) s).busy = false := by cases p <;> exact hb
  have hset : (p.reg .hi).write (x.extractLsb' 32 32) ((p.reg .lo).write (x.extractLsb' 0 32) s) = p.set x s := by
    cases p <;> simp only [RegPair.reg, Reg.write, RegPair.set, setHalf_hi_setHalf_lo]
  rw [← hset]
  exact (hostSteps_write_register p.lo_mem_regMap hb _ _).trans (hostSteps_write_register p.hi_mem_regMap hb' _ _)

/-- The steering registers as written for a decoder with steering (R188, R221). -/
theorem hostSteps_steeringWrites (p : SteerParams) {s : State} (hb : s.busy = false) :
    hostSteps (steeringWrites p) s = .next { s with
      rmsWindow := BitVec.ofNat 32 p.k, gmin := p.gmin, gboost := p.gboost, alphaAtt := p.aatt, alphaRel := p.arel } := by
  have hpairs (a b c d : F64) {u : State} (hu : u.busy = false) :
      hostSteps (wrf64 0x048 a ++ wrf64 0x050 b ++ wrf64 0x058 c ++ wrf64 0x060 d) u =
        .next { u with gmin := a, gboost := b, alphaAtt := c, alphaRel := d } := by
    rw [List.append_assoc, List.append_assoc, ← List.append_nil (wrf64 0x060 d)]
    calc _ = _ := hostSteps_wrf64_pair .gmin hu a _
      _ = _ := hostSteps_wrf64_pair .gboost (by exact hu) b _
      _ = _ := hostSteps_wrf64_pair .alphaAtt (by exact hu) c _
      _ = _ := hostSteps_wrf64_pair .alphaRel (by exact hu) d _
  exact (hostSteps_write_register (r := .rmsWindow) (by decide) hb _ _).trans (hpairs _ _ _ _ (by exact hb))

/-- The register writes of a codec leave the registers of its CONFIGURE (R221). -/
theorem hostSteps_codecWrites (mode : Mode) (n o : Word) (steer : Option SteerParams) {s : State} (hb : s.busy = false) :
    hostSteps (codecWrites mode n o steer) s = .next (codecRegisters mode n o steer s) := by
  have hcommon (v l : Word) (as : List Access) :
      hostSteps ([wr32 0x010 v, wr32 0x014 n, wr32 0x018 o, wr32 0x01C l] ++ as) s = hostSteps as { s with
        mode := v.extractLsb' 0 2, blockSize := n, overlap := o, logicEn := l.extractLsb' 0 1 } :=
    calc _ = _ := hostSteps_write_register (r := .mode) (by decide) hb v _
      _ = _ := hostSteps_write_register (r := .blockSize) (by decide) (by exact hb) n _
      _ = _ := hostSteps_write_register (r := .overlap) (by decide) (by exact hb) o _
      _ = _ := hostSteps_write_register (r := .logic) (by decide) (by exact hb) l _
  cases mode with
  | encode => exact hcommon 1#32 0#32 []
  | decode =>
    cases steer with
    | none => exact hcommon 0#32 0#32 []
    | some p => exact (hcommon 0#32 1#32 (steeringWrites p)).trans (hostSteps_steeringWrites p (by exact hb))

theorem codecRegisters_busy (mode : Mode) (n o : Word) (steer : Option SteerParams) (s : State) :
    (codecRegisters mode n o steer s).busy = s.busy := by
  cases mode with
  | encode => rfl
  | decode => cases steer <;> rfl

theorem codecRegisters_returned (mode : Mode) (n o : Word) (steer : Option SteerParams) (s : State) :
    (codecRegisters mode n o steer s).returned = s.returned := by
  cases mode with
  | encode => rfl
  | decode => cases steer <;> rfl

theorem newCodec_of_exec (mode : Mode) (n o : Word) (steer : Option SteerParams) {s u : State} (hb : s.busy = false)
    (hexec : exec .configure { codecRegisters mode n o steer s with busy := true, pending := 0x00000001#32 } = .next u) :
    newCodec mode n o steer s = .next (if u.err = 1#4 then some (.configuration u.detail) else none,
        { u with returned := readWindow 0x00C u :: readWindow 0x00C u :: s.returned }) := by
  have hrun := runCommand_of_exec (i := .configure) rfl ((codecRegisters_busy mode n o steer s).trans hb) hexec
  have hreturned : u.returned = s.returned := (performs_of_exec hexec).keeps_returned.trans (codecRegisters_returned ..)
  have hstatus (w : List Word) : readWindow 0x00C { u with returned := w } = u.status :=
    readWindow_register (r := .status) (by decide) _
  have herr : (readWindow 0x00C u).extractLsb' 8 4 = u.err := by rw [hstatus u.returned, extractLsb'_status_err]
  have hdetail : (readWindow 0x00C u).extractLsb' 24 8 = u.detail := by rw [hstatus u.returned, extractLsb'_status_detail]
  simp only [newCodec, hostSteps_codecWrites mode n o steer hb, andThen, hrun, hostRead_status, hreturned]
  rw [(hstatus _).trans (hstatus u.returned).symm, herr, hdetail]

/-! ### The frame checks (R222) -/

theorem Mode.arity_eq (mode : Mode) : (if mode = .encode then 4 else 2) = mode.arity := by cases mode <;> rfl

theorem Mode.outputs_eq (mode : Mode) : (if mode = .encode then 2 else 4) = mode.outputs := by cases mode <;> rfl

theorem channelsFit_iff (f : AudioFrame) :
    f.ch.all (fun x => decide (x.length = (f.ch.headD []).length) && decide (f.numSamples ≤ (x.length : Int))) = true ↔
      ∀ x ∈ f.ch, x.length = (f.ch.headD []).length ∧ f.numSamples ≤ (x.length : Int) := by
  simp only [List.all_eq_true, Bool.and_eq_true, decide_eq_true_eq]

section
variable {mode : Mode} {f : AudioFrame}

theorem frameCheck_of_wrong_arity (h : f.ch.length ≠ mode.arity) : frameCheck mode f = some .inputShape := if_pos h

theorem frameCheck_of_negative (h : f.ch.length = mode.arity) (hneg : f.numSamples < 0) :
    frameCheck mode f = some .inputRange := by
  rw [frameCheck, if_neg (not_not.2 h), if_pos hneg]

theorem frameCheck_of_wrong_lengths (h : f.ch.length = mode.arity) (h0 : 0 ≤ f.numSamples)
    (hbad : ¬∀ x ∈ f.ch, x.length = (f.ch.headD []).length ∧ f.numSamples ≤ (x.length : Int)) :
    frameCheck mode f = some .inputShape := by
  rw [frameCheck, if_neg (not_not.2 h), if_neg (Int.not_lt.2 h0), if_neg ((channelsFit_iff f).not.2 hbad)]

/-- The frames that pass the checks. -/
theorem frameCheck_eq_none_iff : frameCheck mode f = none ↔ ∃ n, frameFits mode f n := by
  refine ⟨fun h => ?_, fun ⟨n, harity, hn, len, hle, hlen⟩ => ?_⟩
  · have harity : f.ch.length = mode.arity := by
      by_contra hne
      simp [frameCheck_of_wrong_arity hne] at h
    have h0 : 0 ≤ f.numSamples := by
      by_contra hneg
      simp [frameCheck_of_negative harity (Int.not_le.1 hneg)] at h
    have hfit : ∀ x ∈ f.ch, x.length = (f.ch.headD []).length ∧ f.numSamples ≤ (x.length : Int) := by
      by_contra hbad
      simp [frameCheck_of_wrong_lengths harity h0 hbad] at h
    obtain ⟨x, hx⟩ := List.exists_mem_of_length_pos (l := f.ch) (by cases mode <;> simp [harity, Mode.arity])
    obtain ⟨hlen, hle⟩ := hfit x hx
    exact ⟨f.numSamples.toNat, harity.trans mode.arity_eq.symm, (Int.toNat_of_nonneg h0).symm, x.length, by omega,
      fun y hy => (hfit y hy).1.trans hlen.symm⟩
  · rw [mode.arity_eq] at harity
    have hhead {x : List F64} (hx : x ∈ f.ch) : (f.ch.headD []).length = len := by
      cases hch : f.ch with
      | nil => simp [hch] at hx
      | cons y ys => exact hlen y (by simp [hch])
    rw [frameCheck, if_neg (not_not.2 harity), if_neg (by omega), if_pos ((channelsFit_iff f).2 fun x hx => ?_)]
    rw [hlen x hx, hhead hx, hn]
    exact ⟨rfl, Int.ofNat_le.2 hle⟩

theorem processFrame_of_error {c : Latched} {e : FrameError} (h : frameCheck c.mode f = some e) (s : State) :
    processFrame c f s = .next (.error e, s) := by
  simp only [processFrame, h]

end

/-! ### CLEAR before a frame (R205, R223) -/

theorem runCommand_clear {s : State} {c : Latched} (hb : s.busy = false) (hc : s.cfg = some c) :
    ∃ w, runCommand .clear s =
      .next { done 0x02#8 (cold c.o { s with pending := 0x00000002#32 }) with returned := w :: s.returned } :=
  ⟨_, runCommand_of_exec (i := .clear) rfl hb ((clearColdStarts.2 { s with busy := true, pending := 0x00000002#32 }).1 c hc)⟩

/-- Settles O58: CONFIGURE runs on the registers as the writes leave them, each failing check answers at once, and a frame of no
samples has no hops. -/
theorem frameChecksAndEmptyFrames : Obligations.FrameChecksAndEmptyFrames := by
  refine ⟨fun mode n o p s hb => ?_, fun c f s => ?_⟩
  · obtain ⟨u, hu, -⟩ := exec_performs .configure { codecRegisters mode n o p s with busy := true, pending := 0x00000001#32 }
    exact ⟨u, hu, newCodec_of_exec mode n o p hb hu⟩
  dsimp only
  rw [c.mode.arity_eq, c.mode.outputs_eq]
  refine ⟨fun h => ?_, fun h hneg => ?_, fun h h0 hbad => ?_, fun h h0 hsame hc hb => ?_⟩
  · exact processFrame_of_error (frameCheck_of_wrong_arity h) s
  · exact processFrame_of_error (frameCheck_of_negative h hneg) s
  · refine processFrame_of_error (frameCheck_of_wrong_lengths h h0 fun hfit => ?_) s
    obtain ⟨x, hx, hshort | ⟨y, hy, hne⟩⟩ := hbad
    · exact absurd (hfit x hx).2 (Int.not_le.2 hshort)
    · exact hne ((hfit x hx).1.trans (hfit y hy).1.symm)
  · obtain ⟨x, hx⟩ := List.exists_mem_of_length_pos (l := f.ch) (by cases hm : c.mode <;> simp [h, hm, Mode.arity])
    have hfit : frameFits c.mode f 0 :=
      ⟨h.trans c.mode.arity_eq.symm, h0, x.length, Nat.zero_le _, fun y hy => hsame y hy x hx⟩
    obtain ⟨w, hclear⟩ := runCommand_clear hb hc
    refine ⟨_, ?_, w, rfl⟩
    simp only [processFrame, frameCheck_eq_none_iff.2 ⟨0, hfit⟩, h0, hclear, andThen, Int.toNat_zero, frameHops, if_true,
      frameHopsFrom, List.map_replicate, List.drop_nil, List.take_nil]

end Sys2Proof.Machine
end

section
/-! SUPPORT. A hop of a frame (45_frame.md R223): what the driver writes to `IN` is the engine's input, the core's hop is the
engine's, and what the driver reads from `OUT` is the engine's output, each up to the bits of NaNs. -/

namespace Sys2Proof.Machine

open Sys2Proof Sys2Proof.Stated

/-! ### Up to the bits of NaNs (93_implementation_defined.md I3) -/

theorem SameUpToNaN.symm {x y : F64} (h : SameUpToNaN x y) : SameUpToNaN y x := h.imp Eq.symm And.symm

theorem SameUpToNaN.trans {x y z : F64} (hxy : SameUpToNaN x y) (hyz : SameUpToNaN y z) : SameUpToNaN x z := by
  obtain rfl | ⟨hx, hy⟩ := hxy
  · exact hyz
  · obtain rfl | ⟨-, hz⟩ := hyz
    · exact .inr ⟨hx, hy⟩
    · exact .inr ⟨hx, hz⟩

theorem Shows.sameUpToNaN {x y : F64} (h : Shows x y) : SameUpToNaN y x := by
  cases hx : F64.isNaN x with
  | true => exact .inr ⟨by rwa [Shows, if_pos hx] at h, hx⟩
  | false => exact .inl (h.eq_of_isNaN_eq_false hx)

/-- The smoothing does not see a NaN's bits. -/
theorem smooth_congr (p : SteerParams) (tgt : F64) {g g' : F64} (h : SameUpToNaN g g') : smooth p tgt g = smooth p tgt g' := by
  obtain rfl | ⟨hg, hg'⟩ := h
  · rfl
  · simp [smooth, F64.add, hg, hg']

/-- The same histories, and gains that differ in the bits of NaNs at most. -/
def SteerState.Agrees (st st' : SteerState) : Prop :=
  st.hist = st'.hist ∧ ∀ ch, ch < 4 → SameUpToNaN (st.gain.get ch) (st'.gain.get ch)

theorem steer_congr (p : SteerParams) {st st' : SteerState} (h : st.Agrees st') (d : Quad F64) :
    steer p st d = steer p st' d := by
  obtain ⟨hhist, hgain⟩ := h
  have hsmooth (r : Quad F64) : Quad.ofFn (fun ch => smooth p (target p r (dominant r) ch) (st.gain.get ch)) =
      Quad.ofFn (fun ch => smooth p (target p r (dominant r) ch) (st'.gain.get ch)) :=
    Quad.ofFn_congr fun ch hch => smooth_congr p _ (hgain ch hch)
  simp only [steer, hhist, hsmooth]

theorem steerAll_congr (p : SteerParams) {st st' : SteerState} (h : st.Agrees st') (ds : List (Quad F64)) :
    (steerAll p st ds).2 = (steerAll p st' ds).2 ∧ (steerAll p st ds).1.Agrees (steerAll p st' ds).1 := by
  cases ds with
  | nil => exact ⟨rfl, h⟩
  | cons d ds =>
    rw [steerAll, steerAll, steer_congr p h d]
    exact ⟨rfl, rfl, fun ch _ => .inl rfl⟩

/-! ### The samples that the driver writes (R223) -/

theorem frameCnt_le (c : Latched) (n m : Nat) : frameCnt c n m ≤ c.h := Nat.min_le_right ..

/-- The samples of a lane that the driver writes for a hop. -/
def hopSegment (c : Latched) (cnt m : Nat) (x : List F64) : List F64 := (x.drop (m * c.h + c.delta)).take cnt

theorem hopSegment_length (c : Latched) {n : Nat} (m : Nat) {x : List F64} (hx : x.length = n) :
    (hopSegment c (frameCnt c n m) m x).length = frameCnt c n m := by
  rw [hopSegment, List.length_take, List.length_drop, hx, frameCnt]
  omega

theorem Memory.readF64s_congr {m m' : Memory} {a n : Nat}
    (h : ∀ i, a ≤ i → i < a + 8 * n → m'.readByte i = m.readByte i) :
    m'.readF64s a n = m.readF64s a n := by
  rw [Memory.readF64s, Memory.readF64s, Memory.readBytes_eq, Memory.readBytes_eq]
  exact congrArg f64sOfBytes (List.map_congr_left fun i hi => h i (List.mem_range'_1.1 hi).1 (List.mem_range'_1.1 hi).2)

theorem StoresWithin.mono {lo lo' hi hi' : Nat} {m m' : Memory} (h : StoresWithin lo hi m m') (hlo : lo' ≤ lo)
    (hhi : hi ≤ hi') : StoresWithin lo' hi' m m' := by
  induction h with
  | none => exact .none
  | store _ ha hb ih => exact ih.store (hlo.trans ha) (hb.trans hhi)

theorem StoresWithin.trans {lo hi : Nat} {m m' m'' : Memory} (h : StoresWithin lo hi m m') (h' : StoresWithin lo hi m' m'') :
    StoresWithin lo hi m m'' := by
  induction h' with
  | none => exact h
  | store _ ha hb ih => exact ih.store ha hb

/-- The lanes of a hop are written one after the other, and none touches another's samples. -/
theorem hostSteps_hopWrites {c : Latched} {cnt m : Nat} (hcnt : cnt ≤ Config.nMax) (xs : List (List F64)) {l : Nat}
    (hl : l + xs.length ≤ 4) (hxs : ∀ x ∈ xs, (hopSegment c cnt m x).length = cnt) {s : State} (hb : s.busy = false) :
    ∃ m', hostSteps (hopWrites c cnt m l xs) s = .next { s with mem := m' } ∧
      StoresWithin (inAddr l 0) 0x300000 s.mem m' ∧
      ∀ j x, xs[j]? = some x → m'.readF64s (inAddr (l + j) 0) cnt = hopSegment c cnt m x := by
  simp only [Config.nMax] at hcnt
  induction xs generalizing l s with
  | nil => exact ⟨s.mem, rfl, .none, by simp⟩
  | cons x xs ih =>
    obtain ⟨hx, hxs⟩ := List.forall_mem_cons.1 hxs
    rw [List.length_cons] at hl
    have hwrite := hostSteps_writesF64s (hopSegment c cnt m x) hb (a := inAddr l 0) (by simp only [inAddr]; omega)
      (by simp only [inAddr]; omega) (by simp only [inAddr, hx]; omega)
    obtain ⟨m', hrest, hstores, hread⟩ := ih (l := l + 1) (by omega) hxs
      (s := { s with mem := s.mem.writeF64s (inAddr l 0) (hopSegment c cnt m x) }) hb
    refine ⟨m', (hostSteps_append_of_next hwrite).trans hrest, ?_, fun j y hj => ?_⟩
    · refine (StoresWithin.none.writeF64s le_rfl ?_).trans (hstores.mono ?_ le_rfl) <;> simp only [inAddr, hx] <;> omega
    · cases j with
      | zero =>
        obtain rfl : x = y := Option.some.inj hj
        have hkept := Memory.readF64s_congr (a := inAddr l 0) (n := cnt) fun i hi hi' =>
          hstores.readByte (x := i) (.inl (by simp only [inAddr] at *; omega))
        have hsame := s.mem.readF64s_writeF64s_same (inAddr l 0) (hopSegment c cnt m x)
        rw [hx] at hsame
        exact hkept.trans hsame
      | succ j =>
        rw [show l + (j + 1) = l + 1 + j by omega]
        exact hread j y hj

/-- The input of a lane in a hop is the engine's (R160, R223). -/
theorem hopInput_eq_frameInput {c : Latched} {chs : List (List F64)} {n l : Nat} (m : Nat) {x : List F64} {mem : Memory}
    (hx : chs[l]? = some x)
    (hread : mem.readF64s (inAddr l 0) (frameCnt c n m) = hopSegment c (frameCnt c n m) m (x.take n)) :
    hopInput mem l c.h (frameCnt c n m) = frameInput c chs n m l := by
  have hcnt := frameCnt_le c n m
  refine List.ext_getElem? fun k => ?_
  obtain hk | hk := Nat.lt_or_ge k c.h
  · have hwritten : k < frameCnt c n m ↔ m * c.h + k + c.delta < n := by rw [frameCnt]; omega
    rw [hopInput_getElem? mem l hcnt hk, frameInput, List.getElem?_map, List.getElem?_range hk, Option.map_some,
      if_congr hwritten rfl rfl]
    split
    · next h =>
      have hval := mem.readF64s_getElem? (inAddr l 0) (hwritten.2 h)
      rw [hread, hopSegment, List.getElem?_take_of_lt (hwritten.2 h), List.getElem?_drop, List.getElem?_take_of_lt (by omega),
        show m * c.h + c.delta + k = m * c.h + k + c.delta by omega] at hval
      rw [List.getD_eq_getElem?_getD, List.getD_eq_getElem?_getD, hx, Option.getD_some, hval, Option.getD_some]
    · rfl
  · rw [List.getElem?_eq_none (by rwa [hopInput_length _ _ _ _ hcnt]), List.getElem?_eq_none (by simpa [frameInput] using hk)]

/-! ### The engine's hop (R223) -/

/-- The decoded samples of a hop after steering, where there is any, and the steering state after it. -/
def steeredSamples (c : Latched) (st : SteerState) (d : List (Quad F64)) : SteerState × List (Quad F64) :=
  match c.steer with
  | none => (st, d)
  | some p => steerAll p st d

theorem engineHop_encode {c : Latched} (hm : c.mode = .encode) (t : Quad Lane) (st : SteerState) (u : Quad (List F64)) :
    engineHop c t st u =
      (encodeTails (encodeLanes c t u), st, [encodeLT (encodeLanes c t u), encodeRT (encodeLanes c t u)]) := by
  simp only [engineHop, hm]

theorem engineHop_decode {c : Latched} (hm : c.mode = .decode) (t : Quad Lane) (st : SteerState) (u : Quad (List F64)) :
    engineHop c t st u = (decodeTails (decodeLanes c t u) t, (steeredSamples c st (decodeMix (decodeLanes c t u))).1,
      [Quad.q0, Quad.q1, Quad.q2, Quad.q3].map (fun f => (steeredSamples c st (decodeMix (decodeLanes c t u))).2.map f)) := by
  simp only [engineHop, hm, steeredSamples]
  cases c.steer <;> rfl

theorem engineState_succ (c : Latched) (u : Nat → Quad (List F64)) (m : Nat) :
    engineState c u (m + 1) = ((engineHop c (engineState c u m).1 (engineState c u m).2 (u m)).1,
      (engineHop c (engineState c u m).1 (engineState c u m).2 (u m)).2.1) := rfl

/-- The core's steering is the engine's, up to the bits of NaNs in its gains. -/
theorem decodeSamples_agrees (c : Latched) (src : NaNSource) (d : List (Quad F64)) {st st' : SteerState} (h : st.Agrees st') :
    (decodeSamples c src d st).2 = (steeredSamples c st' d).2 ∧
      (decodeSamples c src d st).1.Agrees (steeredSamples c st' d).1 := by
  cases hs : c.steer with
  | none =>
    rw [decodeSamples_of_no_steering hs, steeredSamples, hs]
    exact ⟨rfl, h⟩
  | some p =>
    obtain ⟨hout, hhist, hgain⟩ := steerAll_congr p h d
    rw [decodeSamples_of_steering hs, steeredSamples, hs]
    exact ⟨hout, hhist, fun ch hch => (shows_publishGain src _ hch).sameUpToNaN.trans (hgain ch hch)⟩

/-! ### The core's hop is the engine's -/

/-- Sample `k` of each decoded channel. -/
theorem getD_channels (y : List (Quad F64)) (k : Nat) {ch : Nat} (hch : ch < 4) :
    (([Quad.q0, Quad.q1, Quad.q2, Quad.q3].map (fun f => y.map f)).getD ch []).getD k unity =
      (y.getD k (Quad.all unity)).get ch := by
  match ch, hch with
  | 0, _ => exact List.getD_map y (Quad.all unity) Quad.q0
  | 1, _ => exact List.getD_map y (Quad.all unity) Quad.q1
  | 2, _ => exact List.getD_map y (Quad.all unity) Quad.q2
  | 3, _ => exact List.getD_map y (Quad.all unity) Quad.q3

/-- The core's lanes and steering state are the engine's before hop `m`. -/
def Tracks (c : Latched) (u : Nat → Quad (List F64)) (m : Nat) (s : State) : Prop :=
  s.lanes = (engineState c u m).1 ∧ SteerState.Agrees ⟨s.hist, s.gain⟩ (engineState c u m).2

/-- The samples in `OUT` are the engine's of hop `m`. -/
def OutShows (c : Latched) (u : Nat → Quad (List F64)) (m : Nat) (mem : Memory) : Prop :=
  ∀ ch k, ch < c.mode.outputs → k < c.h →
    SameUpToNaN (mem.readF64 (outAddr ch 0 + 8 * k)) (((engineOut c u m).getD ch []).getD k unity)

section
variable {c : Latched} {u : Nat → Quad (List F64)} {m cnt : Nat} {s : State} (hi : streamInv s (some c)) (hcnt : cnt ≤ c.h)
  (htracks : Tracks c u m s) (hu : ∀ l, l < c.mode.arity → hopInput s.mem l c.h cnt = (u m).get l)
include hi hcnt htracks hu

theorem hopEncode_tracks (hm : c.mode = .encode) :
    Tracks c u (m + 1) (hopEffect c cnt s) ∧ OutShows c u m (hopEffect c cnt s).mem := by
  obtain ⟨hlanes, hsteer⟩ := htracks
  have hins : hopInputs s.mem c.h cnt = u m := Quad.ofFn_congr fun l hl => hu l (by rwa [hm])
  obtain ⟨hwf, hsized, -⟩ := hi
  have hLT := encodeLT_length hwf hsized (hins ▸ hopInputs_length s.mem hcnt)
  have hRT := encodeRT_length hwf hsized (hins ▸ hopInputs_length s.mem hcnt)
  have hh := hwf.h_le
  simp only [hopEffect, hm, hopEncode, hins]
  rw [hlanes] at hLT hRT ⊢
  refine ⟨?_, fun ch k hch hk => ?_⟩
  · rw [Tracks, engineState_succ, engineHop_encode hm]
    exact ⟨rfl, hsteer⟩
  · rw [hm] at hch
    rw [engineOut, engineHop_encode hm]
    match ch, hch with
    | 0, _ =>
      have hshows := shows_readF64_writeOut s.nanSource 0 s.mem (getElem?_eq_some_getD (hk.trans_eq hLT.symm) unity)
      rw [← readF64_writeOut_other s.nanSource _ (show 0 ≠ 1 by decide) (hk.trans_le hh) (hRT.trans_le hh)] at hshows
      exact hshows.sameUpToNaN
    | 1, _ => exact (shows_readF64_writeOut s.nanSource 1 _ (getElem?_eq_some_getD (hk.trans_eq hRT.symm) unity)).sameUpToNaN

theorem hopDecode_tracks (hm : c.mode = .decode) :
    Tracks c u (m + 1) (hopEffect c cnt s) ∧ OutShows c u m (hopEffect c cnt s).mem := by
  obtain ⟨hlanes, hsteer⟩ := htracks
  have h0 := hu 0 (by rw [hm]; decide)
  have h1 := hu 1 (by rw [hm]; decide)
  have hdec : decodeLanes c s.lanes (hopInputs s.mem c.h cnt) = decodeLanes c (engineState c u m).1 (u m) := by
    rw [hlanes]
    exact congrArg₂ (fun a b => (laneHilbert c _ a, laneHilbert c _ b)) h0 h1
  obtain ⟨hwf, hsized, -⟩ := hi
  have hlen := decodeMix_length hwf hsized (hopInputs_length s.mem hcnt)
  have hh := hwf.h_le
  rw [hdec] at hlen
  obtain ⟨hout, hagrees⟩ := decodeSamples_agrees c s.nanSource (decodeMix (decodeLanes c (engineState c u m).1 (u m))) hsteer
  have hylen := decodeSamples_length c s.nanSource (decodeMix (decodeLanes c (engineState c u m).1 (u m))) ⟨s.hist, s.gain⟩
  rw [hlen, hout] at hylen
  simp only [hopEffect, hm, hopDecode, hdec, hout]
  refine ⟨?_, fun ch k hch hk => ?_⟩
  · rw [Tracks, engineState_succ, engineHop_decode hm, hlanes]
    exact ⟨rfl, hagrees⟩
  · have hch : ch < 4 := by rwa [hm] at hch
    rw [engineOut, engineHop_decode hm, getD_channels _ k hch]
    exact (shows_readF64_writeDecoded s.nanSource s.mem (getElem?_eq_some_getD (hk.trans_eq hylen.symm) _) hch
      (hylen.trans_le hh)).sameUpToNaN

theorem hopEffect_tracks : Tracks c u (m + 1) (hopEffect c cnt s) ∧ OutShows c u m (hopEffect c cnt s).mem := by
  cases hm : c.mode with
  | encode => exact hopEncode_tracks hi hcnt htracks hu hm
  | decode => exact hopDecode_tracks hi hcnt htracks hu hm

end

end Sys2Proof.Machine
end

section
/-! SUPPORT. A whole frame (45_frame.md R223, R224, R229): its hops one after the other, and the samples that the driver
returns. -/

namespace Sys2Proof.Machine

open Sys2Proof Sys2Proof.Stated

/-! ### Channels that show a stream -/

/-- `outs` channels of `len` samples each, which are those of `f` up to the bits of NaNs. -/
def ShowsStream (outs len : Nat) (ys : List (List F64)) (f : Nat → Nat → F64) : Prop :=
  ys.length = outs ∧ ∀ ch, ch < outs →
    (ys.getD ch []).length = len ∧ ∀ k, k < len → SameUpToNaN ((ys.getD ch []).getD k unity) (f ch k)

theorem showsStream_empty (outs : Nat) (f : Nat → Nat → F64) : ShowsStream outs 0 (List.replicate outs []) f :=
  ⟨List.length_replicate, fun ch hch =>
    ⟨by rw [List.getD_replicate _ hch]; rfl, fun k hk => absurd hk (Nat.not_lt_zero k)⟩⟩

/-- A part of a stream, then the rest of it. -/
theorem ShowsStream.append {outs a b : Nat} {ys zs : List (List F64)} {f : Nat → Nat → F64} (hy : ShowsStream outs a ys f)
    (hz : ShowsStream outs b zs (fun ch k => f ch (a + k))) : ShowsStream outs (a + b) (List.zipWith (· ++ ·) ys zs) f := by
  obtain ⟨hylen, hy⟩ := hy
  obtain ⟨hzlen, hz⟩ := hz
  refine ⟨by rw [List.length_zipWith, hylen, hzlen, min_self], fun ch hch => ?_⟩
  obtain ⟨hya, hy⟩ := hy ch hch
  obtain ⟨hzb, hz⟩ := hz ch hch
  have hjoin : (List.zipWith (· ++ ·) ys zs).getD ch [] = ys.getD ch [] ++ zs.getD ch [] := by
    rw [List.getD_eq_getElem _ _ (by rwa [List.length_zipWith, hylen, hzlen, min_self]), List.getElem_zipWith,
      List.getD_eq_getElem, List.getD_eq_getElem]
  rw [hjoin]
  refine ⟨by rw [List.length_append, hya, hzb], fun k hk => ?_⟩
  obtain hka | hka := Nat.lt_or_ge k a
  · rw [List.getD_append _ _ _ _ (by rwa [hya])]
    exact hy k hka
  · rw [List.getD_append_right _ _ _ _ (by rwa [hya]), hya]
    obtain ⟨i, rfl⟩ := Nat.exists_eq_add_of_le hka
    rw [Nat.add_sub_cancel_left]
    exact hz i (by omega)

/-- The `n` samples of each channel from position `d` on. -/
theorem ShowsStream.window {outs len d n : Nat} {ys : List (List F64)} {f : Nat → Nat → F64} (h : ShowsStream outs len ys f)
    (hle : 0 < n → d + n ≤ len) : ShowsStream outs n (ys.map (fun z => (z.drop d).take n)) (fun ch i => f ch (i + d)) := by
  obtain ⟨hlen, h⟩ := h
  refine ⟨by rw [List.length_map, hlen], fun ch hch => ?_⟩
  obtain ⟨hlen', h⟩ := h ch hch
  have hget : (ys.map (fun z => (z.drop d).take n)).getD ch [] = ((ys.getD ch []).drop d).take n := by
    rw [List.getD_eq_getElem _ _ (by rwa [List.length_map, hlen]), List.getElem_map, List.getD_eq_getElem]
  rw [hget]
  refine ⟨by rw [List.length_take, List.length_drop, hlen']; omega, fun i hi => ?_⟩
  have hval := h (i + d) (by omega)
  rw [List.getD_eq_getElem?_getD] at hval ⊢
  rwa [List.getElem?_take_of_lt hi, List.getElem?_drop, Nat.add_comm d i]

/-- Sample `t` of the engine's output channel. -/
def engineSample (c : Latched) (u : Nat → Quad (List F64)) (ch t : Nat) : F64 :=
  ((engineOut c u (t / c.h)).getD ch []).getD (t % c.h) unity

theorem engineSample_hop (c : Latched) (u : Nat → Quad (List F64)) (ch m : Nat) {k : Nat} (hk : k < c.h) :
    engineSample c u ch (m * c.h + k) = ((engineOut c u m).getD ch []).getD k unity := by
  rw [engineSample, Nat.mul_comm, Nat.mul_add_mod, Nat.mod_eq_of_lt hk, Nat.mul_add_div (by omega), Nat.div_eq_of_lt hk,
    Nat.add_zero]

/-! ### The hops of a frame (R223) -/

/-- The inputs of the four lanes in the hops of a frame. -/
def frameInputs (c : Latched) (chs : List (List F64)) (n m : Nat) : Quad (List F64) := Quad.ofFn (frameInput c chs n m)

/-- An idle configured core has a configuration that CONFIGURE accepts. -/
theorem wf_of_ready {c : Latched} {s : State} (hr : ready c s) : c.Wf := by
  obtain ⟨hi, hc, -⟩ := hr
  exact (streamInv_of_cfg hi hc).1

theorem Mode.arity_le (mode : Mode) : mode.arity ≤ 4 := by cases mode <;> decide

theorem Mode.outputs_le (mode : Mode) : mode.outputs ≤ 4 := by cases mode <;> decide

theorem runCommand_hop_tracks {c : Latched} {u : Nat → Quad (List F64)} {m cnt : Nat} {s : State} (hr : ready c s)
    (hcnt : cnt ≤ c.h) (htracks : Tracks c u m s) (hu : ∀ l, l < c.mode.arity → hopInput s.mem l c.h cnt = (u m).get l) :
    ∃ t, runCommand (.hop c.mode.arity cnt) s = .next t ∧ ready c t ∧ Tracks c u (m + 1) t ∧
      t.hopCount = s.hopCount + 1#32 ∧ OutShows c u m t.mem := by
  obtain ⟨hi, hc, hb⟩ := hr
  have hstream := streamInv_of_cfg hi hc
  have hh := hstream.1.h_le
  have hwf : (Instr.hop c.mode.arity cnt).wf = true :=
    (wf_hop_iff _ _).2 ⟨by have := c.mode.arity_le; omega, by omega, by simp only [Config.nMax] at hh; omega⟩
  have hexec := exec_hop_of_fits (s := { s with busy := true, pending := encode (.hop c.mode.arity cnt) }) hc hcnt
  obtain ⟨htracks', hout⟩ := hopEffect_tracks (s := { s with busy := true, pending := encode (.hop c.mode.arity cnt) })
    hstream hcnt htracks hu
  exact ⟨_, runCommand_of_exec hwf hb hexec, ⟨(performs_of_exec hexec).keeps_inv hi, (hopEffect_cfg ..).trans hc, rfl⟩,
    htracks', hopEffect_hopCount .., hout⟩

/-- The output channels of a hop as they stand in `OUT`. -/
def outChannels (c : Latched) (mem : Memory) : List (List F64) :=
  (List.range' 0 c.mode.outputs).map (fun ch => mem.readF64s (outAddr ch 0) c.h)

theorem OutShows.showsStream {c : Latched} {u : Nat → Quad (List F64)} {m : Nat} {mem : Memory} (h : OutShows c u m mem) :
    ShowsStream c.mode.outputs c.h (outChannels c mem) (fun ch k => engineSample c u ch (m * c.h + k)) := by
  have hlen : (outChannels c mem).length = c.mode.outputs := by rw [outChannels, List.length_map, List.length_range']
  refine ⟨hlen, fun ch hch => ?_⟩
  have hget : (outChannels c mem).getD ch [] = mem.readF64s (outAddr ch 0) c.h := by
    rw [List.getD_eq_getElem _ _ (by rwa [hlen])]
    simp [outChannels]
  rw [hget]
  refine ⟨mem.readF64s_length .., fun k hk => ?_⟩
  rw [List.getD_eq_getElem?_getD, mem.readF64s_getElem? _ hk, Option.getD_some]
  exact (h ch k hch hk).trans (.inl (engineSample_hop c u ch m hk).symm)

section
variable {c : Latched} {chs : List (List F64)} {n : Nat} (hlen : chs.length = c.mode.arity) (hn : ∀ x ∈ chs, n ≤ x.length)
include hlen hn

/-- The writes of a hop leave the engine's inputs in `IN`, and a core that is as it was beside them. -/
theorem hostSteps_hopWrites_frame {m : Nat} {s : State} (hr : ready c s) :
    ∃ mem, hostSteps (hopWrites c (frameCnt c n m) m 0 (chs.map (fun x => x.take n))) s = .next { s with mem := mem } ∧
      ready c { s with mem := mem } ∧
      ∀ l, l < c.mode.arity → hopInput mem l c.h (frameCnt c n m) = (frameInputs c chs n m).get l := by
  have hh := (wf_of_ready hr).h_le
  obtain ⟨hi, hc, hb⟩ := hr
  have harity := c.mode.arity_le
  obtain ⟨mem, hwrite, hstores, hread⟩ := hostSteps_hopWrites (m := m) ((frameCnt_le c n m).trans hh)
    (chs.map (fun x => x.take n)) (l := 0) (by rw [List.length_map]; omega)
    (List.forall_mem_map.2 fun x hx => hopSegment_length c m (List.length_take_of_le (hn x hx))) hb
  refine ⟨mem, hwrite, ⟨hi.of_kept rfl (hstores.mono (by decide) (by decide)), hc, hb⟩, fun l hl => ?_⟩
  have hget : chs[l]? = some chs[l] := List.getElem?_eq_getElem (by omega)
  rw [frameInputs, Quad.get_ofFn _ (by omega)]
  refine hopInput_eq_frameInput m hget ?_
  have hsegment := hread l (chs[l].take n) (by rw [List.getElem?_map, hget, Option.map_some])
  rwa [Nat.zero_add] at hsegment

/-- A hop of a frame returns the engine's samples, and leaves a core that is as the engine. -/
theorem frameHop_shows {m : Nat} {s : State} (hr : ready c s) (htracks : Tracks c (frameInputs c chs n) m s) :
    ∃ ys t, frameHop c (chs.map (fun x => x.take n)) n m s = .next (ys, t) ∧ ready c t ∧
      Tracks c (frameInputs c chs n) (m + 1) t ∧ t.hopCount = s.hopCount + 1#32 ∧
      ShowsStream c.mode.outputs c.h ys (fun ch k => engineSample c (frameInputs c chs n) ch (m * c.h + k)) := by
  obtain ⟨mem, hwrite, hr', hinputs⟩ := hostSteps_hopWrites_frame hlen hn (m := m) hr
  obtain ⟨t, hrun, hready, htracks', hcount, hout⟩ := runCommand_hop_tracks hr' (frameCnt_le c n m) htracks hinputs
  obtain ⟨w, hread⟩ := hopReads_idle (wf_of_ready hready).h_le c.mode.outputs (ch := 0)
    (by have := c.mode.outputs_le; omega) hready.2.2
  refine ⟨outChannels c t.mem, { t with returned := w }, ?_, hready, htracks', hcount, hout.showsStream⟩
  rw [frameHop, hwrite, andThen, hrun, andThen, hread, outChannels]

/-- The hops from one on, joined. -/
theorem frameHopsFrom_shows (j : Nat) {m : Nat} {s : State} (hr : ready c s) (htracks : Tracks c (frameInputs c chs n) m s) :
    ∃ ys t, frameHopsFrom c (chs.map (fun x => x.take n)) n j m s = .next (ys, t) ∧ ready c t ∧
      t.hopCount = s.hopCount + BitVec.ofNat 32 j ∧
      ShowsStream c.mode.outputs (j * c.h) ys (fun ch k => engineSample c (frameInputs c chs n) ch (m * c.h + k)) := by
  induction j generalizing m s with
  | zero =>
    refine ⟨_, s, rfl, hr, (BitVec.add_zero _).symm, ?_⟩
    rw [Nat.zero_mul]
    exact showsStream_empty _ _
  | succ j ih =>
    obtain ⟨y, t, hhop, hr', htracks', hcount, hshows⟩ := frameHop_shows hlen hn hr htracks
    obtain ⟨ys, v, hrest, hr'', hcount', hshows'⟩ := ih hr' htracks'
    refine ⟨_, v, by rw [frameHopsFrom, hhop, andThen, hrest, andThen], hr'', ?_, ?_⟩
    · rw [hcount', hcount, BitVec.add_assoc, Nat.add_comm j 1, BitVec.ofNat_add]
    · rw [Nat.succ_mul, Nat.add_comm]
      refine hshows.append ?_
      simpa only [Nat.succ_mul, Nat.add_assoc] using hshows'

end

/-! ### The whole frame -/

/-- CLEAR leaves the engine's cold start (R205). -/
theorem runCommand_clear_tracks {c : Latched} {s : State} (hr : ready c s) (u : Nat → Quad (List F64)) :
    ∃ t, runCommand .clear s = .next t ∧ ready c t ∧ Tracks c u 0 t ∧ t.hopCount = 0#32 := by
  have ⟨hi, hc, hb⟩ := hr
  obtain ⟨w, hclear⟩ := runCommand_clear hb hc
  have hstream : streamInv (coldStart c.o s) s.cfg := by
    rw [hc]
    exact coldStart_streamInv (wf_of_ready hr) s
  exact ⟨_, hclear, ⟨⟨hi.1, hstream, mem_statusPairs_ok⟩, hc, rfl⟩, ⟨rfl, rfl, fun ch _ => .inl rfl⟩, rfl⟩

/-- The hops of a frame reach its last sample. -/
theorem delta_add_le_frameHops {c : Latched} (hh : 0 < c.h) (n : Nat) (hn : 0 < n) : c.delta + n ≤ frameHops c n * c.h := by
  rw [frameHops, if_neg (by omega)]
  have := Nat.lt_div_mul_add (a := n + c.delta + c.h - 1) hh
  omega

/-- What a frame returns (R223, R224). -/
theorem processFrame_shows {c : Latched} {f : AudioFrame} {n : Nat} {s : State} (hr : ready c s) (hf : frameFits c.mode f n) :
    ∃ g t, processFrame c f s = .next (.ok g, t) ∧ ready c t ∧ g.rate = f.rate ∧ g.numSamples = n ∧
      t.hopCount = BitVec.ofNat 32 (frameHops c n) ∧
      ShowsStream c.mode.outputs n g.ch (fun ch i => engineSample c (frameInputs c f.ch n) ch (i + c.delta)) := by
  have hcheck := frameCheck_eq_none_iff.2 ⟨n, hf⟩
  obtain ⟨harity, hnum, len, hle, hlen⟩ := hf
  obtain ⟨t, hclear, hr', htracks, hzero⟩ := runCommand_clear_tracks hr (frameInputs c f.ch n)
  obtain ⟨ys, v, hhops, hr'', hcount, hshows⟩ := frameHopsFrom_shows (harity.trans c.mode.arity_eq)
    (fun x hx => hle.trans_eq (hlen x hx).symm) (frameHops c n) hr' htracks
  obtain ⟨-, ⟨ho, hon⟩, hh, -⟩ := wf_of_ready hr
  rw [hzero, BitVec.zero_add] at hcount
  simp only [Nat.zero_mul, Nat.zero_add] at hshows
  refine ⟨⟨f.rate, f.numSamples, ys.map (fun z => (z.drop c.delta).take n)⟩, v, ?_, hr'', rfl, hnum, hcount,
    hshows.window (delta_add_le_frameHops (by omega) n)⟩
  simp only [processFrame, hcheck, hnum, Int.toNat_natCast, hclear, andThen, hhops]

/-! ### The frame alone decides (R229) -/

theorem ShowsStream.forall₂_sameUpToNaN {outs len : Nat} {ys zs : List (List F64)} {f : Nat → Nat → F64}
    (hy : ShowsStream outs len ys f) (hz : ShowsStream outs len zs f) : List.Forall₂ (List.Forall₂ SameUpToNaN) ys zs := by
  obtain ⟨hylen, hy⟩ := hy
  obtain ⟨hzlen, hz⟩ := hz
  refine List.forall₂_iff_get.2 ⟨hylen.trans hzlen.symm, fun ch hch hch' => ?_⟩
  obtain ⟨hya, hy⟩ := hy ch (hylen ▸ hch)
  obtain ⟨hza, hz⟩ := hz ch (hylen ▸ hch)
  rw [List.getD_eq_getElem _ _ hch] at hya hy
  rw [List.getD_eq_getElem _ _ hch'] at hza hz
  refine List.forall₂_iff_get.2 ⟨hya.trans hza.symm, fun k hk hk' => ?_⟩
  have hsame := (hy k (hya ▸ hk)).trans (hz k (hya ▸ hk)).symm
  rwa [List.getD_eq_getElem ys[ch] unity hk, List.getD_eq_getElem zs[ch] unity hk'] at hsame

/-- Settles O59: the checks do not see the core, and both outputs are the engine's from a cold start. -/
theorem frameResultIgnoresHistory : Obligations.FrameResultIgnoresHistory := by
  intro c f s s' hi hi' hc hc' hb hb'
  cases hcheck : frameCheck c.mode f with
  | some e => exact ⟨_, _, s, s', processFrame_of_error hcheck s, processFrame_of_error hcheck s', .inl ⟨e, rfl, rfl⟩⟩
  | none =>
    obtain ⟨n, hf⟩ := frameCheck_eq_none_iff.1 hcheck
    obtain ⟨g, t, hg, -, hrate, hnum, -, hshows⟩ := processFrame_shows ⟨hi, hc, hb⟩ hf
    obtain ⟨g', t', hg', -, hrate', hnum', -, hshows'⟩ := processFrame_shows ⟨hi', hc', hb'⟩ hf
    obtain ⟨-, hn, -⟩ := hf
    exact ⟨_, _, t, t', hg, hg', .inr ⟨g, g', rfl, rfl, hrate, hrate', hnum.trans hn.symm, hnum'.trans hn.symm,
      hshows.forall₂_sameUpToNaN hshows'⟩⟩

end Sys2Proof.Machine
end

section
/-! SUPPORT. The leads of a frame (45_frame.md R225, R226): the original path delays the advanced stream by `δ`, the driver
drops the first `δ` samples, and so each front comes back advanced by `δ`. -/

namespace Sys2Proof.Machine

open Sys2Proof Sys2Proof.Stated

/-! ### The original path of a front lane (R148, R223) -/

/-- Sample `j` of the extended input of a channel, sanitised (R160, R223). -/
def extendedSample (x : List F64) (n j : Nat) : F64 := if j < n then san (x.getD j F64.posZero) else F64.posZero

/-- Sample `t` of a channel's original path: the stream advanced by `δ` and delayed by `δ` again. -/
def alignedSample (c : Latched) (x : List F64) (n t : Nat) : F64 := if t < c.delta then F64.posZero else extendedSample x n t

theorem isFinite_extendedSample (x : List F64) (n j : Nat) : F64.isFinite (extendedSample x n j) = true := by
  unfold extendedSample san
  split
  · split
    · assumption
    · rfl
  · rfl

theorem alignedSample_add_delta (c : Latched) (x : List F64) (n i : Nat) :
    alignedSample c x n (i + c.delta) = extendedSample x n (i + c.delta) := if_neg (by omega)

theorem frameInput_eq_map (c : Latched) (chs : List (List F64)) (n m l : Nat) :
    frameInput c chs n m l = (List.range c.h).map (fun k => extendedSample (chs.getD l []) n (m * c.h + k + c.delta)) := rfl

/-- The `len` samples of a channel's original path from the start of hop `m`. -/
def alignedRun (c : Latched) (x : List F64) (n m len : Nat) : List F64 :=
  (List.range len).map (fun k => alignedSample c x n (m * c.h + k))

section
variable (c : Latched) (chs : List (List F64)) (n m l : Nat)

theorem alignedRun_append_frameInput :
    alignedRun c (chs.getD l []) n m c.delta ++ frameInput c chs n m l = alignedRun c (chs.getD l []) n m (c.delta + c.h) := by
  simp only [alignedRun, frameInput_eq_map, List.range_add, List.map_append, List.map_map]
  refine congrArg _ (List.map_congr_left fun k _ => ?_)
  rw [← alignedSample_add_delta, Nat.add_assoc, Nat.add_comm k]
  rfl

theorem alignedRun_take (x : List F64) : (alignedRun c x n m (c.delta + c.h)).take c.h = alignedRun c x n m c.h := by
  rw [alignedRun, ← List.map_take, List.take_range, Nat.min_eq_left (Nat.le_add_left ..), alignedRun]

theorem alignedRun_drop (x : List F64) : (alignedRun c x n m (c.delta + c.h)).drop c.h = alignedRun c x n (m + 1) c.delta := by
  rw [alignedRun, Nat.add_comm, List.range_add, List.map_append, List.drop_left' (by simp), List.map_map, alignedRun]
  refine List.map_congr_left fun k _ => congrArg (alignedSample c x n) ?_
  rw [Nat.succ_mul, Nat.add_assoc]

theorem frameInput_length : (frameInput c chs n m l).length = c.h := by simp [frameInput]

theorem isFinite_of_mem_frameInput : ∀ v ∈ frameInput c chs n m l, F64.isFinite v = true := by
  rw [frameInput_eq_map]
  exact List.forall_mem_map.2 fun k _ => isFinite_extendedSample _ _ _

/-- A silent channel is a silent input. -/
theorem allZero_frameInput (h : AllZero (chs.getD l [])) : AllZero (frameInput c chs n m l) := by
  rw [frameInput_eq_map]
  refine List.forall_mem_map.2 fun k _ => ?_
  rw [extendedSample]
  split
  · exact isZero_san (.inl (h.isZero_getD _))
  · rfl

end

theorem Carried.passes {x y z : F64} (h : Carried x y) (hp : Passes y z) : SameUpToZeroSign z x :=
  (hp (h.sameUpToZeroSign.isFinite h.1)).2.trans h.sameUpToZeroSign

theorem forall₂_sameUpToZeroSign_of_carried_of_passes {xs ys zs : List F64} (h : List.Forall₂ Carried xs ys)
    (hp : List.Forall₂ Passes ys zs) : List.Forall₂ SameUpToZeroSign zs xs := by
  induction h generalizing zs with
  | nil =>
    cases hp
    exact .nil
  | cons hxy _ ih =>
    cases hp with
    | cons hyz hrest => exact .cons (hxy.passes hyz) (ih hrest)

/-- The lane has the samples that it still has to emit before hop `m` in its tail. -/
def LaneFollows (c : Latched) (x : List F64) (n m : Nat) (t : Lane) : Prop := Pends c (alignedRun c x n m c.delta) t.tailO

theorem coldLane_follows {c : Latched} (hc : c.Wf) (x : List F64) (n : Nat) : LaneFollows c x n 0 (coldLane c.o) := by
  have hcold : alignedRun c x n 0 c.delta = List.replicate c.delta F64.posZero := by
    refine List.eq_replicate_iff.2 ⟨by simp [alignedRun], List.forall_mem_map.2 fun k hk => if_pos ?_⟩
    have := List.mem_range.1 hk
    omega
  rw [LaneFollows, hcold]
  exact pends_coldLane hc

theorem LaneFollows.hop {c : Latched} (hc : c.Wf) {f : Lane → List F64 → LaneStep} (hf : StepsOriginalPath c f)
    {chs : List (List F64)} {n m l : Nat} {t : Lane} (h : LaneFollows c (chs.getD l []) n m t) :
    List.Forall₂ Carried (alignedRun c (chs.getD l []) n m c.h) (f t (frameInput c chs n m l)).yo ∧
      LaneFollows c (chs.getD l []) n (m + 1) (f t (frameInput c chs n m l)).lane := by
  have hhop := Pends.hop hc hf h (frameInput_length c chs n m l) (isFinite_of_mem_frameInput c chs n m l)
  rwa [alignedRun_append_frameInput, alignedRun_take, alignedRun_drop] at hhop

/-! ### The fronts of the engine (R162 to R165, R225) -/

/-- The lanes before hop `m`: the fronts on their way through the tails, and in ENCODE the rears silent. -/
def FrontsFollow (c : Latched) (chs : List (List F64)) (n m : Nat) (t : Quad Lane) : Prop :=
  t.Each (Lane.Sized c.o) ∧ LaneFollows c (chs.getD 0 []) n m t.q0 ∧ LaneFollows c (chs.getD 1 []) n m t.q1 ∧
    (c.mode = .encode → t.q2.Silent ∧ t.q3.Silent)

theorem frameInputs_length (c : Latched) (chs : List (List F64)) (n m : Nat) :
    (frameInputs c chs n m).Each (fun u => u.length = c.h) := Quad.each_ofFn fun l _ => frameInput_length c chs n m l

/-- The two front channels of a hop are the aligned samples, up to the sign of zero. -/
def FrontsShow (c : Latched) (chs : List (List F64)) (n m : Nat) (ys : List (List F64)) : Prop :=
  ∀ l, l < 2 → List.Forall₂ SameUpToZeroSign (ys.getD l []) (alignedRun c (chs.getD l []) n m c.h)

section
variable {c : Latched} (hc : c.Wf) {chs : List (List F64)} {n m : Nat} {t : Quad Lane} (h : FrontsFollow c chs n m t)
include hc h

theorem engineHop_encode_fronts (hm : c.mode = .encode) (hrears : ∀ l, 2 ≤ l → AllZero (chs.getD l []))
    (st : SteerState) :
    FrontsFollow c chs n (m + 1) (engineHop c t st (frameInputs c chs n m)).1 ∧
      FrontsShow c chs n m (engineHop c t st (frameInputs c chs n m)).2.2 := by
  obtain ⟨hsized, h0, h1, hsilent⟩ := h
  obtain ⟨h2, h3⟩ := hsilent hm
  have hu := frameInputs_length c chs n m
  obtain ⟨yo0, next0⟩ := h0.hop hc (laneDelay_stepsOriginalPath c)
  obtain ⟨yo1, next1⟩ := h1.hop hc (laneDelay_stepsOriginalPath c)
  obtain ⟨yo2, yh2, next2⟩ := laneHilbert_silent hc h2 (frameInput_length c chs n m 2)
    (allZero_frameInput c chs n m 2 (hrears 2 (by decide)))
  obtain ⟨yo3, yh3, next3⟩ := laneHilbert_silent hc h3 (frameInput_length c chs n m 3)
    (allZero_frameInput c chs n m 3 (hrears 3 (by decide)))
  have hLT := encodeLT_length hc hsized hu
  have hRT := encodeRT_length hc hsized hu
  have htails := encodeTails_sized hc hsized hu
  obtain ⟨s0, s1, s2, s3⟩ := hsized
  obtain ⟨u0, u1, u2, u3⟩ := hu
  have d0 := (laneDelay_length c hc _ s0 _ u0).1
  have d1 := (laneDelay_length c hc _ s1 _ u1).1
  obtain ⟨e2, f2, -⟩ := laneHilbert_length c hc _ s2 _ u2
  obtain ⟨e3, f3, -⟩ := laneHilbert_length c hc _ s3 _ u3
  rw [engineHop_encode hm]
  refine ⟨⟨htails, next0, next1, fun _ => ⟨next2, next3⟩⟩, fun l hl => ?_⟩
  match l, hl with
  | 0, _ => exact forall₂_sameUpToZeroSign_of_carried_of_passes yo0 (forall₂_passes_of_mix passes_matrixLT mixLT_getElem?
      (hLT.trans d0.symm) (e3.trans d0.symm) (f2.trans d0.symm) yo3 yh2)
  | 1, _ => exact forall₂_sameUpToZeroSign_of_carried_of_passes yo1 (forall₂_passes_of_mix passes_matrixRT mixRT_getElem?
      (hRT.trans d1.symm) (e2.trans d1.symm) (f3.trans d1.symm) yo2 yh3)

theorem engineHop_decode_fronts (hm : c.mode = .decode) (hsteer : c.steer = none) (st : SteerState) :
    FrontsFollow c chs n (m + 1) (engineHop c t st (frameInputs c chs n m)).1 ∧
      FrontsShow c chs n m (engineHop c t st (frameInputs c chs n m)).2.2 := by
  obtain ⟨hsized, h0, h1, -⟩ := h
  have hu := frameInputs_length c chs n m
  obtain ⟨yo0, next0⟩ := h0.hop hc (laneHilbert_stepsOriginalPath c)
  obtain ⟨yo1, next1⟩ := h1.hop hc (laneHilbert_stepsOriginalPath c)
  have htails := decodeTails_sized hc hsized hu
  obtain ⟨s0, s1, -⟩ := hsized
  obtain ⟨u0, u1, -⟩ := hu
  obtain ⟨e0, f0, -⟩ := laneHilbert_length c hc _ s0 _ u0
  obtain ⟨e1, f1, -⟩ := laneHilbert_length c hc _ s1 _ u1
  obtain ⟨hF0, hF1⟩ := map_mixDecode_fronts (e1.trans e0.symm) (f0.trans e0.symm) (f1.trans e0.symm)
  rw [engineHop_decode hm, steeredSamples, hsteer]
  refine ⟨⟨htails, next0, next1, fun h => by rw [hm] at h; cases h⟩, fun l hl => ?_⟩
  have hpasses {ys zs : List F64} (heq : zs = ys) : List.Forall₂ Passes ys zs :=
    heq ▸ List.forall₂_same.2 fun y _ => .refl y
  match l, hl with
  | 0, _ => exact forall₂_sameUpToZeroSign_of_carried_of_passes yo0 (hpasses hF0)
  | 1, _ => exact forall₂_sameUpToZeroSign_of_carried_of_passes yo1 (hpasses hF1)

end

theorem coldLanes_follow {c : Latched} (hc : c.Wf) (chs : List (List F64)) (n : Nat) :
    FrontsFollow c chs n 0 (Quad.all (coldLane c.o)) :=
  ⟨Quad.each_all (coldLane_sized c.o), coldLane_follows hc _ n, coldLane_follows hc _ n,
    fun _ => ⟨coldLane_silent _, coldLane_silent _⟩⟩

section
variable {c : Latched} (hc : c.Wf) (hsteer : c.steer = none) {chs : List (List F64)}
  (hrears : ∀ l, 2 ≤ l → AllZero (chs.getD l [])) {n : Nat}
include hc hsteer hrears

theorem engineHop_fronts {m : Nat} {t : Quad Lane} (h : FrontsFollow c chs n m t) (st : SteerState) :
    FrontsFollow c chs n (m + 1) (engineHop c t st (frameInputs c chs n m)).1 ∧
      FrontsShow c chs n m (engineHop c t st (frameInputs c chs n m)).2.2 := by
  cases hm : c.mode with
  | encode => exact engineHop_encode_fronts hc h hm hrears st
  | decode => exact engineHop_decode_fronts hc h hm hsteer st

theorem engineState_fronts (m : Nat) : FrontsFollow c chs n m (engineState c (frameInputs c chs n) m).1 := by
  induction m with
  | zero => exact coldLanes_follow hc chs n
  | succ m ih => exact (engineHop_fronts hc hsteer hrears ih _).1

theorem engineOut_fronts (m : Nat) : FrontsShow c chs n m (engineOut c (frameInputs c chs n) m) :=
  (engineHop_fronts hc hsteer hrears (engineState_fronts hc hsteer hrears m) _).2

/-- Each front of the engine is its aligned samples. -/
theorem engineSample_fronts {l : Nat} (hl : l < 2) (t : Nat) :
    SameUpToZeroSign (engineSample c (frameInputs c chs n) l t) (alignedSample c (chs.getD l []) n t) := by
  have ⟨_, ⟨ho, hon⟩, hh, _⟩ := hc
  have hpos : 0 < c.h := by omega
  have hmod := Nat.mod_lt t hpos
  have hall := engineOut_fronts hc hsteer hrears (n := n) (t / c.h) l hl
  have hlen := hall.length_eq
  have hget := hall.get (i := t % c.h) (by rw [hlen]; simpa [alignedRun] using hmod) (by simpa [alignedRun] using hmod)
  rw [engineSample, List.getD_eq_getElem _ _ (by rw [hlen]; simpa [alignedRun] using hmod)]
  simpa [alignedRun, Nat.div_add_mod'] using hget

end

/-! ### Leads (R225, R226) -/

theorem leads_trans {a b n : Nat} {x y z : List F64} (hxy : leads a n x y) (hyz : leads b n y z) : leads (a + b) n x z := by
  obtain ⟨-, hxy⟩ := hxy
  obtain ⟨hlen, hyz⟩ := hyz
  refine ⟨hlen, fun i hi => ?_⟩
  obtain ⟨hsame, hzero⟩ := hyz i hi
  obtain hib | hib := Nat.lt_or_ge (i + b) n
  · obtain ⟨hsame', hzero'⟩ := hxy (i + b) hib
    rw [Nat.add_comm a b, ← Nat.add_assoc]
    exact ⟨fun h => (hsame hib).trans (hsame' h), fun h => (hsame hib).isZero (hzero' h)⟩
  · exact ⟨fun h => absurd h (by omega), fun _ => hzero hib⟩

theorem isFinite_of_leads {a n : Nat} {x y : List F64} (h : leads a n x y) (hx : ∀ v ∈ x, F64.isFinite v = true)
    (hn : n ≤ x.length) : ∀ v ∈ y, F64.isFinite v = true := by
  obtain ⟨hlen, h⟩ := h
  intro v hv
  obtain ⟨i, hi, rfl⟩ := List.getElem_of_mem hv
  obtain ⟨hsame, hzero⟩ := h i (hlen ▸ hi)
  rw [List.getD_eq_getElem _ _ hi] at hsame hzero
  obtain hia | hia := Nat.lt_or_ge (i + a) n
  · have hxi := hx _ (List.getElem_mem (hia.trans_le hn))
    rw [← List.getD_eq_getElem _ unity] at hxi
    exact (hsame hia).isFinite hxi
  · exact F64.isFinite_of_isZero (hzero hia)

/-- Channels with finite fronts of at least `n` samples, and silent rears where there are any. -/
def FrontOnly (chs : List (List F64)) (n : Nat) : Prop :=
  (∀ l, l < 2 → n ≤ (chs.getD l []).length ∧ ∀ v ∈ chs.getD l [], F64.isFinite v = true) ∧
    ∀ l, 2 ≤ l → AllZero (chs.getD l [])

theorem frontOnly_of_frameFits {mode : Mode} {f : AudioFrame} {n : Nat} (hf : frameFits mode f n)
    (hfin : ∀ x ∈ f.ch, ∀ v ∈ x, F64.isFinite v = true) (hrears : ∀ l, 2 ≤ l → AllZero (f.ch.getD l [])) :
    FrontOnly f.ch n := by
  obtain ⟨harity, -, len, hle, hlen⟩ := hf
  refine ⟨fun l hl => ?_, hrears⟩
  have hmem : f.ch.getD l [] ∈ f.ch := by
    rw [List.getD_eq_getElem _ _ (by split at harity <;> omega)]
    exact List.getElem_mem _
  exact ⟨hle.trans_eq (hlen _ hmem).symm, hfin _ hmem⟩

/-- The fronts that the engine gives of a front-only frame lead by `δ` (R225). -/
theorem ShowsStream.leads {c : Latched} (hc : c.Wf) (hsteer : c.steer = none) {chs ys : List (List F64)} {n : Nat}
    (hfront : FrontOnly chs n)
    (h : ShowsStream c.mode.outputs n ys (fun ch i => engineSample c (frameInputs c chs n) ch (i + c.delta))) {l : Nat}
    (hl : l < 2) : leads c.delta n (chs.getD l []) (ys.getD l []) := by
  obtain ⟨hfronts, hrears⟩ := hfront
  obtain ⟨hn, hfin⟩ := hfronts l hl
  obtain ⟨hlen, h⟩ := h.2 l (hl.trans_le (by cases c.mode <;> decide))
  refine ⟨hlen, fun i hi => ?_⟩
  have hengine := engineSample_fronts hc hsteer hrears (n := n) hl (i + c.delta)
  rw [alignedSample_add_delta] at hengine
  have hsame : SameUpToZeroSign ((ys.getD l []).getD i unity) (extendedSample (chs.getD l []) n (i + c.delta)) := by
    obtain heq | ⟨-, hnan⟩ := h i hi
    · rwa [heq]
    · rw [F64.isNaN_of_isFinite (hengine.isFinite (isFinite_extendedSample _ _ _))] at hnan
      cases hnan
  rw [extendedSample] at hsame
  refine ⟨fun hlt => ?_, fun hge => ?_⟩
  · have hi' : i + c.delta < (chs.getD l []).length := hlt.trans_le hn
    rwa [if_pos hlt, List.getD_eq_getElem _ _ hi', san, if_pos (hfin _ (List.getElem_mem hi')),
      ← List.getD_eq_getElem _ unity hi'] at hsame
  · rw [if_neg (Nat.not_lt.2 hge)] at hsame
    exact hsame.isZero rfl

theorem ShowsStream.length_of_mem {outs len : Nat} {ys : List (List F64)} {f : Nat → Nat → F64}
    (h : ShowsStream outs len ys f) : ∀ y ∈ ys, y.length = len := by
  intro y hy
  obtain ⟨ch, hch, rfl⟩ := List.getElem_of_mem hy
  obtain ⟨hlen, -⟩ := h.2 ch (h.1 ▸ hch)
  rwa [List.getD_eq_getElem _ _ hch] at hlen

/-- A front-only frame comes back with its fronts leading by `δ`. -/
theorem processFrame_leads {c : Latched} {f : AudioFrame} {n : Nat} {s : State} (hr : ready c s) (hf : frameFits c.mode f n)
    (hsteer : c.steer = none) (hfront : FrontOnly f.ch n) :
    ∃ g t, processFrame c f s = .next (.ok g, t) ∧
      (g.ch.length = c.mode.outputs ∧ g.numSamples = n ∧ ∀ y ∈ g.ch, y.length = n) ∧
      ∀ l, l < 2 → leads c.delta n (f.ch.getD l []) (g.ch.getD l []) := by
  obtain ⟨g, t, hg, -, -, hnum, -, hshows⟩ := processFrame_shows hr hf
  exact ⟨g, t, hg, ⟨hshows.1, hnum, hshows.length_of_mem⟩, fun l hl => hshows.leads (wf_of_ready hr) hsteer hfront hl⟩

/-- An encoder has no steering (R180). -/
theorem Latched.Wf.steer_of_encode {c : Latched} (hc : c.Wf) (hm : c.mode = .encode) : c.steer = none := by
  obtain ⟨-, -, -, -, hsteer⟩ := hc
  cases hs : c.steer with
  | none => rfl
  | some p =>
    rw [hs, hm] at hsteer
    cases hsteer.1

/-- Settles O60: the driver returns the engine's samples from position `δ` on, a front-only frame leads by `δ`, and what an
encoder returns of one is a front-only frame again. -/
theorem framesReturnTheAdvancedStream : Obligations.FramesReturnTheAdvancedStream := by
  refine ⟨fun c f n s hr hf => ?_, fun c f n s hr hf hsteer hfin hrears => ?_,
    fun c d f n s v hr hrd hm hmd hn ho hsteer hf hfin hrears => ?_⟩
  · dsimp only
    rw [c.mode.outputs_eq]
    obtain ⟨g, t, hg, hr', hrate, hnum, hcount, hshows⟩ := processFrame_shows hr hf
    exact ⟨g, t, hg, hr', hrate, hnum, hshows.1, hcount, hshows.2⟩
  · obtain ⟨g, t, hg, -, hleads⟩ := processFrame_leads hr hf hsteer (frontOnly_of_frameFits hf hfin hrears)
    exact ⟨g, t, hg, hleads⟩
  · have hc := wf_of_ready hr
    have hd := wf_of_ready hrd
    have hdelta : d.delta = c.delta := by
      obtain ⟨-, -, -, hcdelta, -⟩ := hc
      obtain ⟨-, -, -, hddelta, -⟩ := hd
      rw [hddelta, hcdelta, ho]
    have hfront := frontOnly_of_frameFits hf hfin hrears
    obtain ⟨g, t, hg, ⟨hglen, hnum, hlen⟩, hleads⟩ := processFrame_leads hr (hm ▸ hf) (hc.steer_of_encode hm) hfront
    rw [hm] at hglen
    have hfits : frameFits d.mode g n := by
      rw [hmd]
      exact ⟨hglen, hnum, n, le_rfl, hlen⟩
    have hfront' : FrontOnly g.ch n := by
      refine ⟨fun l hl => ?_, fun l hl => ?_⟩
      · obtain ⟨hlong, hfinite⟩ := hfront.1 l hl
        exact ⟨(hleads l hl).1.ge, isFinite_of_leads (hleads l hl) hfinite hlong⟩
      · rw [List.getD_eq_default _ _ (hglen.trans_le hl)]
        exact List.forall_mem_nil _
    obtain ⟨w, r, hw, -, hleads'⟩ := processFrame_leads hrd hfits hsteer hfront'
    refine ⟨g, t, w, r, hg, hw, fun l hl => ?_⟩
    have h := leads_trans (hleads l hl) (hleads' l hl)
    rwa [hdelta, ← two_mul] at h

end Sys2Proof.Machine
end

section
/-! SUPPORT. The obligations of completion and interrupt (60_exceptions.md): a busy core's turn ends its command, and the
interrupt output is read from two registers. -/

namespace Sys2Proof.Machine

open Sys2Proof Sys2Proof.Stated

/-! ### The core's turn completes (R240, R278) -/

/-- SOFT_RESET clears BUSY with the rest, and every other outcome is a completion (R206, R244). -/
theorem Performs.busy_eq_false {i : Instr} {s t : State} (h : Performs s i t) : t.busy = false := by
  cases h with
  | softReset => exact softResetState_busy s
  | nop | configureFailed | configured | clearFailed | cleared | hopFailed | hopped | fftFwdFailed | fftFwd | fftInvFailed
  | fftInv => exact complete_busy _ _ _ _

/-- After the core's turn the core is idle, whether it waited, performed a command or refused an illegal word. -/
theorem busy_eq_false_of_coreStep {s t : State} (h : coreStep s = .next t) : t.busy = false := by
  obtain ⟨hb, hx⟩ | ⟨-, i, -, hx⟩ | ⟨-, e, -, hx⟩ := coreStep_cases s
  · rw [hx] at h
    cases h
    exact hb
  · exact (performs_of_exec (hx.symm.trans h)).busy_eq_false
  · rw [hx] at h
    cases h
    exact complete_busy _ _ _ _

theorem coreStep_completes (s : State) : ∃ t, coreStep s = .next t ∧ t.busy = false := by
  obtain ⟨t, ht⟩ := coreStep_next s
  exact ⟨t, ht, busy_eq_false_of_coreStep ht⟩

/-- Settles O9: the step is the core's turn in either form of the inputs, and the core's turn completes. -/
theorem everyAcceptedCommandCompletes : Obligations.EveryAcceptedCommandCompletes := by
  rintro s - (hnil | ⟨rest, hcore⟩)
  · rw [step_nil s hnil]
    exact coreStep_completes s
  · rw [step_core s rest hcore]
    exact coreStep_completes _

/-! ### The interrupt output (R245) -/

theorem getLsbD_readWindow_irqEnable (s : State) {i : Nat} (hi : i < 32) :
    (readWindow 0x024 s).getLsbD i = s.irqEnable.getLsbD i := by
  rw [readWindow_register (r := .irqEnable) (by decide), Reg.read, BitVec.getLsbD_setWidth, decide_eq_true hi, Bool.true_and]

theorem getLsbD_readWindow_irqStatus (s : State) {i : Nat} (hi : i < 32) :
    (readWindow 0x028 s).getLsbD i = s.irqStatus.getLsbD i := by
  rw [readWindow_register (r := .irqStatus) (by decide), Reg.read, BitVec.getLsbD_setWidth, decide_eq_true hi, Bool.true_and]

/-- Settles O18: the host reads the bits of each register as they stand, and `irq` is the or of the enabled ones. -/
theorem interruptOutputIsALevel : Obligations.InterruptOutputIsALevel := by
  intro s
  have h0 : 0 < 32 := by decide
  have h1 : 1 < 32 := by decide
  rw [getLsbD_readWindow_irqStatus s h0, getLsbD_readWindow_irqStatus s h1, getLsbD_readWindow_irqEnable s h0,
    getLsbD_readWindow_irqEnable s h1, State.irq, Bool.or_eq_true, Bool.and_eq_true, Bool.and_eq_true]

end Sys2Proof.Machine
end

section
/-! SUPPORT. The obligation of reset and hazards (70_reset_and_hazards.md): what a step does with each form of the inputs. -/

namespace Sys2Proof.Machine

open Sys2Proof Sys2Proof.Stated

/-! ### The idle core's turn and the order of inputs (R270, R278) -/

theorem coreStep_of_idle {s : State} (hidle : s.busy = false) : coreStep s = .next s := by
  simp [coreStep, hidle]

/-- Settles O6: a turn of the core, taken for want of inputs or from the list, changes nothing while the core is idle; a host
step and a power-on are the transition when they come first. -/
theorem idleCoreWaitsAndInputsComeInOrder : Obligations.IdleCoreWaitsAndInputsComeInOrder := by
  intro s
  refine ⟨fun hidle hnil => ?_, fun rest hidle hcore => ?_, step_host s, step_powerOn s⟩
  · rw [step_nil s hnil, coreStep_of_idle hidle]
  · rw [step_core s rest hcore]
    exact coreStep_of_idle hidle

end Sys2Proof.Machine
end
